-- ==== Sys2Proof/Word.lean ====
section
/-! DEFINITION. The word types of the block: cells, bytes, codes and tags, each of one fixed width
(10_state.md R55 to R59, 30_encoding.md R102, R110, R114). -/

namespace Sys2Proof

/-- A 32-bit cell of WIN, TW, CBUF or SPEC, or a 32-bit register or port field (R20, R40, R114). -/
abbrev Word := BitVec 32

/-- A byte of a read response (R107). -/
abbrev Byte := BitVec 8

/-- The 12-bit data field of a sample word, and a FRAME cell (R55, R112). -/
abbrev Code := BitVec 12

/-- The 4-bit channel field of a sample word (R110, R111). -/
abbrev Tag := BitVec 4

/-- The contents of the phase register (R33). -/
abbrev Phase := BitVec 4

end Sys2Proof
end

