-- ==== Sys2Proof/Syntax.lean ====
section
/-! DEFINITION. The seventeen operations of spec/opcode_table.json (30_encoding.md R101), one
constructor each, and the two formats an operation is selected by (R100). -/

namespace Sys2Proof

/-- The operations (R101). None has an operand: "operands are never encoded: each operation works on
fixed registers and memories named in its rule" (R100). -/
inductive Instr where
  /-- CFGCHK, validate the transform length (R141). -/
  | cfgchk
  /-- TWINIT, build the rotation-factor table (R143). -/
  | twinit
  /-- GENWIN, build the Window Table (R145). -/
  | genwin
  /-- START, configure and start the channel (R148). -/
  | start
  /-- WAIT, wait for the notification and consume it (R163). -/
  | wait
  /-- READ, request samples and append them to the frame (R166). -/
  | read
  /-- WINDOW, weight the frame and form the complex frame (R190). -/
  | window
  /-- FFT, forward radix-2 transform (R204). -/
  | fft
  /-- BITREV, bit-reversal permutation (R210). -/
  | bitrev
  /-- UNPACK, real-signal unpacking (R216). -/
  | unpack
  /-- MAG, magnitude of each one-sided bin (R231). -/
  | mag
  /-- SUPPRESS, zero the lowest K bins (R236). -/
  | suppress
  /-- RENDER, hand the spectrum to the renderer (R246). -/
  | render
  /-- YIELD, hand control to the scheduler (R248). -/
  | yield
  /-- RSVD14, the reserved phase (R103). -/
  | rsvd14
  /-- HALT, the phase a fatal initialisation failure leaves the block in (R149). -/
  | halt
  /-- NOTIFY, raise the notification: the producer's one operation (R160). -/
  | notify
  deriving DecidableEq, Repr

/-- What selects an operation: the phase register (format PH) or the interrupt event line
(format IRQ) (R100, R104). -/
inductive OpWord where
  /-- Format PH: "bits 3 to 0 are the operation code, there is no other field". -/
  | ph (code : Phase)
  /-- Format IRQ: "bit 0 = 1 means execute NOTIFY now". -/
  | irq (evt : BitVec 1)
  deriving DecidableEq, Repr

/-- The two formats by name. -/
inductive OpFormat where
  | ph
  | irq
  deriving DecidableEq, Repr

end Sys2Proof
end

