-- ==== Sys2Proof/Decode.lean ====
section
/-! DEFINITION. The operation decoder, total and rejecting by name, and the encoder
(30_encoding.md R100, R102, R103, R104). -/

namespace Sys2Proof

/-- Why a word selects no operation. -/
inductive DecodeReject where
  /-- `irq_evt = 0` "means no operation" (R103, R104). -/
  | irqIdle
  /-- A bit outside the format's field is set: format PH has bits 3 to 0, format IRQ bit 0 (R100). -/
  | bitOutsideFormat
  /-- No byte at all. -/
  | noBytes
  /-- More than the one byte an operation word fills: "there is one operation length" (R100). -/
  | tooLong
  deriving DecidableEq, Repr

/-- The operation of a phase code: all sixteen values of R102. -/
def decodePhase (p : Phase) : Instr :=
  match p.toNat with
  | 0 => .cfgchk
  | 1 => .twinit
  | 2 => .genwin
  | 3 => .start
  | 4 => .wait
  | 5 => .read
  | 6 => .window
  | 7 => .fft
  | 8 => .bitrev
  | 9 => .unpack
  | 10 => .mag
  | 11 => .suppress
  | 12 => .render
  | 13 => .yield
  | 14 => .rsvd14
  | _ => .halt

/-- The operation an operation word selects (R102, R104). -/
def decode : OpWord → Except DecodeReject Instr
  | .ph code => .ok (decodePhase code)
  | .irq evt => if evt = 1#1 then .ok .notify else .error .irqIdle

/-- An operation word laid out in one byte, its field in the low bits and the bits above zero. -/
def decodeByte (f : OpFormat) (b : Byte) : Except DecodeReject Instr :=
  match f with
  | .ph => if b.toNat < 16 then decode (.ph (b.setWidth 4)) else .error .bitOutsideFormat
  | .irq => if b.toNat < 2 then decode (.irq (b.setWidth 1)) else .error .bitOutsideFormat

/-- The decoder on any bytes: exactly one byte is an operation word. -/
def decodeBytes (f : OpFormat) : List Byte → Except DecodeReject Instr
  | [] => .error .noBytes
  | [b] => decodeByte f b
  | _ :: _ :: _ => .error .tooLong

/-- The operation word of an operation (R102, R104). -/
def encode : Instr → OpWord
  | .cfgchk => .ph 0x0#4
  | .twinit => .ph 0x1#4
  | .genwin => .ph 0x2#4
  | .start => .ph 0x3#4
  | .wait => .ph 0x4#4
  | .read => .ph 0x5#4
  | .window => .ph 0x6#4
  | .fft => .ph 0x7#4
  | .bitrev => .ph 0x8#4
  | .unpack => .ph 0x9#4
  | .mag => .ph 0xA#4
  | .suppress => .ph 0xB#4
  | .render => .ph 0xC#4
  | .yield => .ph 0xD#4
  | .rsvd14 => .ph 0xE#4
  | .halt => .ph 0xF#4
  | .notify => .irq 1#1

/-- The format of a row of the opcode table, by the number of bits it is given: the IRQ row has one
bit, every other row four (or the eight of a whole byte). Log 16: in whole bytes both formats
have eight bits and then the word 1 is read as the phase code of TWINIT. -/
def tableFormat (nbits : Nat) : OpFormat :=
  if nbits = 1 then .irq else .ph

/-- The operation word of `nbits` bits with value `w`, as a byte; none if it does not fit. -/
def tableByte (w : Nat) : Option Byte :=
  if w < 256 then some (BitVec.ofNat 8 w) else none

/-- The instruction the decoder reads from a row's word, numbered as spec/opcode_table.json numbers
its bits. -/
def decodeTableWord (nbits w : Nat) : Option Instr :=
  match tableByte w with
  | none => none
  | some b =>
    match decodeBytes (tableFormat nbits) [b] with
    | .ok i => some i
    | .error _ => none

end Sys2Proof
end

