-- ==== Sys2Proof/Config.lean ====
section
/-! DEFINITION. What is fixed while the block runs: the configuration registers and table arguments
(10_state.md R39 to R51, 60_exceptions.md R296), the sample layout record (92 D6), the unpack gains
(92 D17), and the values the spec leaves free. -/

namespace Sys2Proof

/-- The five memory spaces (R70). -/
inductive Space where
  | frame
  | win
  | tw
  | cbuf
  | spec
  deriving DecidableEq, Repr

/-- The layout record `(WORD_BYTES, CODE_LO, CODE_W, TAG_LO, TAG_W)` of R111. -/
structure Layout where
  wordBytes : Nat
  codeLo : Nat
  codeW : Nat
  tagLo : Nat
  tagW : Nat
  deriving DecidableEq, Repr

/-- The constant inputs of the block: the twelve configuration registers (R40 to R49, R52) and the
table arguments and bound (R13, R296). -/
structure Cfg where
  /-- CSR 0 `CFG_N`, frame_length (R40). -/
  n : Word
  /-- CSR 1 `CFG_RATE`, sample_rate_hz (R41). -/
  rate : Word
  /-- CSR 2 `CFG_CH`, channel_id (R42). -/
  ch : Tag
  /-- CSR 3 `CFG_ATTEN`, attenuation_level (R43). -/
  atten : Word
  /-- CSR 4 `CFG_BITS`, bit_resolution (R44). -/
  bits : Word
  /-- CSR 5 `CFG_K`, dc_suppress_bins (R45). -/
  k : Word
  /-- CSR 6 `CFG_DW`, display_width (R46). -/
  dw : Word
  /-- CSR 7 `CFG_DH`, display_height (R46). -/
  dh : Word
  /-- CSR 8 `CFG_DMIN`, display_min (R47). -/
  dmin : Word
  /-- CSR 9 `CFG_DMAX`, display_max (R47). -/
  dmax : Word
  /-- CSR 10 `CFG_LAYOUT` (R48). -/
  layout : BitVec 1
  /-- CSR 11 `CFG_GLYPH` (R49). -/
  glyph : Byte
  /-- `MAX_N`, the largest legal frame length (R9). -/
  maxN : Nat
  /-- `TW_NOM` as the host gives it: pair m is (cosine, sine) (R143). An entry past the end is the
  free value `Config.twNom` (log 11). -/
  twNom : List (Word × Word)
  /-- `WIN_NOM` as the host gives it (R145). An entry past the end is the free value
  `Config.winNom` (log 11). -/
  winNom : List Word
  deriving DecidableEq, Repr

/-- Where in a run a floating-point primitive is evaluated: the draw number of the operation, then
its stage, element and primitive. It only tells produced NaNs apart (log 9). -/
structure Site where
  draw : Nat
  stage : Nat
  elem : Nat
  prim : Nat
  deriving DecidableEq, Repr

/-- Free value: the 12-bit value of a FRAME cell no operation has written since the reset numbered
`launch` (R62, log 7). -/
opaque Config.unwrittenCode : (launch i : Nat) → Code

/-- Free value: a 32-bit cell no operation has written since the reset numbered `launch` (R62, R67,
log 7). -/
opaque Config.unwrittenWord : (launch : Nat) → Space → (i : Nat) → Word

/-- Free value: a CBUF cell of the upper half after the UNPACK numbered `draw` (R218, log 8). -/
opaque Config.unpackUpper : (draw q : Nat) → Word

/-- Free value: the sign bit (bit 23) and fraction of a NaN produced at a site (R23, log 9). -/
opaque Config.nanBits : Site → BitVec 24

/-- Free value: the pair `TW_NOM(m)` of length `n` where the host's list gives none (R13, log 11). -/
opaque Config.twNom : (n m : Nat) → Word × Word

/-- Free value: `WIN_NOM(i)` of length `n` where the host's list gives none (R13, log 11). -/
opaque Config.winNom : (n i : Nat) → Word

/-- "Unpack gain 1 for bin 0" (R217, 92 D17, log 24). -/
def Config.unpackGainZero : Nat := 1

/-- "Unpack gain 2 for bins 1 .. N/2-1" (R217, 92 D17, log 24). -/
def Config.unpackGain : Nat := 2

/-- `MAX_N` as 92 section 5 gives the default (log 13). -/
def Config.maxNDefault : Nat := 4096

/-- The nominal twiddle table for N = 8, bit patterns of R144. -/
def Config.tw8 : List (Word × Word) :=
  [(0x3F800000#32, 0x00000000#32), (0x3F3504F3#32, 0x3F3504F3#32),
   (0x00000000#32, 0x3F800000#32), (0xBF3504F3#32, 0x3F3504F3#32)]

/-- The nominal window for N = 8, bit patterns of R146. -/
def Config.win8 : List Word :=
  [0x00000000#32, 0x3E40C5F2#32, 0x3F1C7B91#32, 0x3F7352F3#32,
   0x3F7352F3#32, 0x3F1C7B91#32, 0x3E40C5F2#32, 0x00000000#32]

/-- The configuration the host has loaded at `State.reset`: that of program P1 of 95_test_vectors.md
(DESIGN CHOICE, log 14). -/
def Config.launchCfg : Cfg where
  n := 8#32
  rate := 20000#32
  ch := 3#4
  atten := 0#32
  bits := 12#32
  k := 1#32
  dw := 64#32
  dh := 16#32
  dmin := 0x00000000#32
  dmax := 0x43000000#32
  layout := 0#1
  glyph := 0x23#8
  maxN := Config.maxNDefault
  twNom := Config.tw8
  winNom := Config.win8

end Sys2Proof
end

