-- ==== Sys2Proof/Machine/State.lean ====
section
/-! DEFINITION. The state of the block (10_state.md R30 to R67), the environment it runs in
(60_exceptions.md R290 to R296), the reasons a step can stop, and the state after reset. -/

namespace Sys2Proof.Machine

/-- A memory space: the cells written since reset, as (index, value) pairs in strictly rising order
of index; a cell that is not listed has not been written (R62, log 7, log 27). -/
abbrev Memory (w : Nat) := List (Nat × BitVec w)

/-- A read response, format RDRSP (R107): a status of format ST, a byte count and the payload. -/
structure RdRsp where
  status : BitVec 2
  count : BitVec 32
  bytes : List Byte
  deriving DecidableEq, Repr

/-- What the renderer does when RENDER offers it a message (R247). -/
inductive RenderAnswer where
  | accepts
  | busy
  deriving DecidableEq, Repr

/-- A move of the schedule: which agent steps next (R14), whether reset is asserted (R311), or that
nothing happens. -/
inductive Move where
  /-- The consumer takes its next step, if it has one. -/
  | consumer
  /-- The channel presents `irq_evt = 1`: the producer executes one NOTIFY (R272). -/
  | irq
  /-- The host asserts and releases reset (R296, R311). -/
  | reset
  /-- Nothing moves, as while an operation awaits an environment that does not answer. -/
  | idle
  deriving DecidableEq, Repr

/-- The environment's moves still to come: parameters of the step relation (R65), held as queues.
They belong to the model, not to the block (log 1, log 4). -/
structure Env where
  /-- The schedule; when it is empty the consumer moves. -/
  sched : List Move
  /-- Start responses STRSP (R108), one bit each; when it is empty START is not answered. -/
  starts : List (BitVec 1)
  /-- Read responses (R107); when it is empty a READ "receives (Timeout, 0 bytes)" (R120). -/
  reads : List RdRsp
  /-- Answers of the renderer; when it is empty the renderer accepts. -/
  renders : List RenderAnswer
  deriving DecidableEq, Repr

/-- The renderer message, format RNDR (R109). -/
structure RndrMsg where
  length : Word
  magnitudes : List Word
  displayWidth : Word
  displayHeight : Word
  minScale : Word
  maxScale : Word
  fillGlyph : Byte
  deriving DecidableEq, Repr

/-- What the block sends on an output port (R291 to R295). -/
inductive PortMsg where
  /-- An event record, format EV (R118). -/
  | event (code : BitVec 4) (arg : Word)
  /-- A read request, format RDREQ (R106). -/
  | rdReq (maxLen : Word)
  /-- A start request, format STREQ (R108). -/
  | stReq (channelId : Tag) (sampleRate resolution attenuation : Word)
  /-- A renderer message (R109). -/
  | rndr (m : RndrMsg)
  /-- One pulse on the yield port (R293). -/
  | yieldEvt
  deriving DecidableEq, Repr

structure State where
  /-- `NF`, the notification flag (R31). -/
  nf : Bool
  /-- `FILL`, the frame fill counter (R32, log 17). -/
  fill : Nat
  /-- `PH`, the phase register (R33). -/
  ph : Phase
  /-- `STAT`, the sticky status register (R36). -/
  stat : BitVec 4
  /-- `CAUSE`, the fatal cause register (R37). -/
  cause : BitVec 2
  /-- `CFG_*` and the table arguments (R39 to R51). -/
  cfg : Cfg
  /-- `FRAME` (R55). -/
  frame : Memory 12
  /-- `WIN` (R56). -/
  win : Memory 32
  /-- `TW` (R57). -/
  tw : Memory 32
  /-- `CBUF` (R58). -/
  cbuf : Memory 32
  /-- `SPEC` (R59). -/
  spec : Memory 32
  /-- The environment's moves still to come (the model's own, R65). -/
  env : Env
  /-- What the block has sent, oldest first: history that no rule reads (R66, log 6). -/
  out : List PortMsg
  /-- The number of the next fresh free value (the model's own, log 28). -/
  draws : Nat
  /-- The number of the free value that memory held at the last reset (the model's own, log 28). -/
  launch : Nat
  deriving DecidableEq, Repr

/-- Why the machine stops with a fault. -/
inductive Fault where
  /-- Raised by FFT, BITREV and UNPACK when the length is not a power of two of at least 2: the
  source's "behavior is undefined/rejected otherwise", 93 U1 (treatment `fault`), precondition R201.
  Safe: no run from reset meets it, since CFGCHK rejects such a length (log 18). -/
  | transformLengthInvalid
  deriving DecidableEq, Repr

/-- Why a step has no meaning. -/
inductive Refusal where
  /-- An operation that has no meaning in the model yet. Safe. -/
  | notModelled (mnemonic : String)
  /-- Raised by READ: the response breaks contract R167 (a), `count <= max_len`. Safe. -/
  | readCountAboveMaxLen
  /-- Raised by READ: the response breaks contract R167 (b), `count` a multiple of `WORD_BYTES`
  (R76). Safe. -/
  | readCountNotWholeWords
  /-- Raised by READ: the response breaks contract R167 (c), a payload of exactly `count` bytes.
  Safe. -/
  | readPayloadLength
  /-- Raised by a host write to a configuration register after reset release: "a change after reset
  release is outside the spec" (R331, 93 U33). Safe. -/
  | configWriteAfterReset
  deriving DecidableEq, Repr

/-- No move of the environment is fixed in advance (log 1, log 4). -/
def Env.empty : Env where
  sched := []
  starts := []
  reads := []
  renders := []

/-- The state right after reset with configuration `c` loaded and environment `e` (R67, R310): every
register at its reset value, no memory cell written. `launch` numbers the free values that memory
holds (log 7, log 28). -/
def State.launched (c : Cfg) (e : Env) (out : List PortMsg) (launch : Nat) : State where
  nf := false
  fill := 0
  ph := 0#4
  stat := 0#4
  cause := 0#2
  cfg := c
  frame := []
  win := []
  tw := []
  cbuf := []
  spec := []
  env := e
  out := out
  draws := launch + 1
  launch := launch

/-- The machine right after reset (R67), the configuration of log 14 loaded. -/
def State.reset : State :=
  State.launched Config.launchCfg Env.empty [] 0

end Sys2Proof.Machine
end

