-- ==== Sys2Proof/Machine/Operands.lean ====
section
/-! DEFINITION. Operand assembly: the sample layouts, the bytes of a response as sample words, and their
fields (30_encoding.md R105, R110 to R112; 20_memory.md R75). -/

namespace Sys2Proof.Machine

/-- The four statuses of a read response (R105). -/
inductive Status where
  | ok
  | timeout
  | bufferFull
  | invalidState
  deriving DecidableEq, Repr

/-- Format ST, "all four 2-bit values are assigned" (R105). -/
def statusOfCode (c : BitVec 2) : Status :=
  match c.toNat with
  | 0 => .ok
  | 1 => .timeout
  | 2 => .bufferFull
  | _ => .invalidState

/-- The code of a status (R105). -/
def codeOfStatus : Status → BitVec 2
  | .ok => 0b00#2
  | .timeout => 0b01#2
  | .bufferFull => 0b10#2
  | .invalidState => 0b11#2

/-- Layout L16 = `(2, 0, 12, 12, 4)` (R110, R111). PRESUMED by the spec, 93 G2 (log 23). -/
def layoutL16 : Layout where
  wordBytes := 2
  codeLo := 0
  codeW := 12
  tagLo := 12
  tagW := 4

/-- Layout L32 = `(4, 0, 12, 13, 4)` (R111). PRESUMED by the spec, 93 G3 (log 23). -/
def layoutL32 : Layout where
  wordBytes := 4
  codeLo := 0
  codeW := 12
  tagLo := 13
  tagW := 4

/-- `CFG_LAYOUT`: "0 selects layout L16, 1 selects layout L32" (R48). -/
def layoutOf (sel : BitVec 1) : Layout :=
  if sel = 0#1 then layoutL16 else layoutL32

/-- Little-endian assembly: the first byte delivered is the least significant (R75). -/
def leWord : List Byte → Word
  | [] => 0#32
  | b :: bs => (leWord bs <<< 8) ||| b.setWidth 32

/-- Sample word number `j` of a response (R112). -/
def sampleWord (l : Layout) (bytes : List Byte) (j : Nat) : Word :=
  leWord ((bytes.drop (l.wordBytes * j)).take l.wordBytes)

/-- The first `k` sample words of a response, in delivery order (R166). -/
def sampleWords (l : Layout) (bytes : List Byte) : (k : Nat) → List Word
  | 0 => []
  | k + 1 => sampleWords l bytes k ++ [sampleWord l bytes k]

/-- A field of a sample word: `width` bits from bit `lo` up, unsigned (R112). -/
def bitField (w : Word) (lo width : Nat) : Nat :=
  w.toNat / 2 ^ lo % 2 ^ width

/-- The code of a sample word, "no sign extension, scaling or shifting" (R112). -/
def sampleCode (l : Layout) (w : Word) : Code :=
  BitVec.ofNat 12 (bitField w l.codeLo l.codeW)

/-- The tag of a sample word (R112). -/
def sampleTag (l : Layout) (w : Word) : Tag :=
  BitVec.ofNat 4 (bitField w l.tagLo l.tagW)

end Sys2Proof.Machine
end

