-- ==== Sys2Proof/Machine/Flags.lean ====
section
/-! DEFINITION. The status bits, cause codes and event codes: which bit, cause and event each condition of
the block records (10_state.md R36, R37; 30_encoding.md R118; 60_exceptions.md R281, R283 to R286).
The block has no condition codes (R34). -/

namespace Sys2Proof.Machine

/-- `STAT.TO`, bit 0 (R36). -/
def statTO : BitVec 4 := 0b0001#4

/-- `STAT.BF`, bit 1 (R36). -/
def statBF : BitVec 4 := 0b0010#4

/-- `STAT.IS`, bit 2 (R36). -/
def statIS : BitVec 4 := 0b0100#4

/-- `STAT.TM`, bit 3 (R36). -/
def statTM : BitVec 4 := 0b1000#4

/-- Setting a sticky bit: it is never cleared by an operation (R36). -/
def setSticky (stat bit : BitVec 4) : BitVec 4 := stat ||| bit

/-- The sticky bit and the event code of a non-Ok status, none for Ok (R166, R283 to R285). -/
def statusRecord : Status → Option (BitVec 4 × BitVec 4)
  | .ok => none
  | .timeout => some (statTO, 0b0001#4)
  | .bufferFull => some (statBF, 0b0010#4)
  | .invalidState => some (statIS, 0b0011#4)

/-- `EV_TAGMISMATCH` (R118). -/
def evTagMismatch : BitVec 4 := 0b0100#4

/-- `EV_FATAL` (R118). -/
def evFatal : BitVec 4 := 0b0101#4

/-- "`{tag[3:0], zext_28(position)}`: bits 31:28 the tag met, bits 27:0 the frame position skipped"
(R118, log 20). -/
def tagMismatchArg (tag : Tag) (position : Nat) : Word :=
  tag ++ BitVec.ofNat 28 position

/-- The fatal conditions (R270, R281). -/
inductive Fatal where
  | invalidLength
  | configError
  deriving DecidableEq, Repr

/-- "`1` InvalidLength, `2` ConfigError" (R37, R281). -/
def fatalCode : Fatal → BitVec 2
  | .invalidLength => 1#2
  | .configError => 2#2

end Sys2Proof.Machine
end

