-- ==== Sys2Proof/Machine/Numerics.lean ====
section
/-! DEFINITION. IEEE 754 binary32 (00_scope.md R20) and the primitives of R21: each returns "the exactly
computed real result rounded once to binary32 with round-to-nearest, ties-to-even, with gradual
underflow". Finite values are computed on natural numbers as `m * 2^(e - 600)`; log 10. -/

namespace Sys2Proof.Machine

/-- Bit 31, the sign (R20). -/
def signBit (w : Word) : Bool := w.getLsbD 31

/-- Bits 30 to 23, the exponent (R20). -/
def expField (w : Word) : Nat := w.toNat / 2 ^ 23 % 2 ^ 8

/-- Bits 22 to 0, the fraction (R20). -/
def fracField (w : Word) : Nat := w.toNat % 2 ^ 23

/-- "NaN for e = 255, f != 0" (R20). -/
def isNaN (w : Word) : Bool := expField w == 255 && fracField w != 0

/-- "infinity for e = 255, f = 0" (R20). -/
def isInf (w : Word) : Bool := expField w == 255 && fracField w == 0

/-- Neither infinity nor NaN (R20). -/
def isFinite (w : Word) : Bool := expField w != 255

/-- A zero of either sign. -/
def isZero (w : Word) : Bool := w.toNat % 2 ^ 31 == 0

/-- The integer significand of a finite value: `f` when `e = 0`, else `2^23 + f` (R20). -/
def signif (w : Word) : Nat := if expField w = 0 then fracField w else 2 ^ 23 + fracField w

/-- The exponent of the significand's unit, counted from 2^(-149): a finite value is
`(-1)^s * signif * 2^(expo - 149)` (R20). -/
def expo (w : Word) : Nat := if expField w = 0 then 0 else expField w - 1

/-- The exact value of a finite pattern (R20). -/
def toRat (w : Word) : ℚ :=
  (if signBit w then -1 else 1) * (signif w : ℚ) * 2 ^ expo w / 2 ^ 149

/-- A pattern from its sign and its low 31 bits. -/
def ofSignMag (s : Bool) (mag : Nat) : Word :=
  BitVec.ofNat 32 ((if s then 2 ^ 31 else 0) + mag)

/-- The low 31 bits of an infinity. -/
def infMag : Nat := 255 * 2 ^ 23

/-- The zero of a sign. -/
def zeroWord (s : Bool) : Word := ofSignMag s 0

/-- The infinity of a sign. -/
def infWord (s : Bool) : Word := ofSignMag s infMag

/-- A produced NaN: "the payload of a produced NaN left as any value" (R23); its sign and its non-zero
fraction are the free value of the site (log 9). -/
def nanWord (st : Site) : Word :=
  let r := (Config.nanBits st).toNat
  let f := r % 2 ^ 23
  ofSignMag (2 ^ 23 ≤ r) (infMag + (if f = 0 then 2 ^ 22 else f))

/-- `m / 2^k` rounded to the nearest integer, ties to even, for `k >= 1`; `sticky` says that the exact
value lies above `m` by less than one unit. -/
def roundShift (m k : Nat) (sticky : Bool) : Nat :=
  let t := m / 2 ^ k
  let r := m % 2 ^ k
  let half := 2 ^ (k - 1)
  if half < r ∨ (r = half ∧ (sticky = true ∨ t % 2 = 1)) then t + 1 else t

/-- The exponent of the last place of the result for `m * 2^(e - 600)`: 24 significant bits, and never
below 2^(-149), "subnormal results are kept" (R21). -/
def ulpExp (m e : Nat) : Nat := max (e + (Nat.log2 m + 1) - 24) 451

/-- The low 31 bits of `m * 2^(e - 600)`, `m > 0`, rounded once (R21). Adding the rounded significand
to the shifted exponent carries into the exponent when rounding reaches the next power of two. -/
def roundMag (m e : Nat) (sticky : Bool) : Nat :=
  let q := ulpExp m e
  let sig := if q ≤ e then m * 2 ^ (e - q) else roundShift m (q - e) sticky
  min ((q - 451) * 2 ^ 23 + sig) infMag

/-- `(-1)^s * m * 2^(e - 600)` rounded once to binary32 (R21); a zero keeps the sign `s`. -/
def roundWord (s : Bool) (m e : Nat) (sticky : Bool) : Word :=
  if m = 0 then zeroWord s else ofSignMag s (roundMag m e sticky)

/-- The sign flipped: the operand of a subtraction. -/
def negate (w : Word) : Word := w ^^^ 0x80000000#32

/-- The exact sum of two finite values in units of the smaller of their two exponents. -/
def exactSum (a b : Word) : Int :=
  let e := min (expo a) (expo b)
  (if signBit a then -1 else 1) * (signif a * 2 ^ (expo a - e) : Nat)
    + (if signBit b then -1 else 1) * (signif b * 2 ^ (expo b - e) : Nat)

/-- `fadd` (R21). A zero sum is `-0` only when both operands are negative: "x - x = +0",
"(+0) + (-0) = +0". -/
def fadd (st : Site) (a b : Word) : Word :=
  if isNaN a || isNaN b then nanWord st
  else if isInf a then (if isInf b && signBit a != signBit b then nanWord st else a)
  else if isInf b then b
  else
    let x := exactSum a b
    if x = 0 then zeroWord (signBit a && signBit b)
    else roundWord (decide (x < 0)) x.natAbs (min (expo a) (expo b) + 451) false

/-- `fsub` (R21): the sum with the sign of the second operand flipped. -/
def fsub (st : Site) (a b : Word) : Word := fadd st a (negate b)

/-- `fmul` (R21). -/
def fmul (st : Site) (a b : Word) : Word :=
  let s := signBit a != signBit b
  if isNaN a || isNaN b then nanWord st
  else if isInf a || isInf b then (if isZero a || isZero b then nanWord st else infWord s)
  else roundWord s (signif a * signif b) (expo a + expo b + 302) false

/-- `fdiv` (R21): a quotient of at least 27 bits and the sticky remainder, rounded once. -/
def fdiv (st : Site) (a b : Word) : Word :=
  let s := signBit a != signBit b
  if isNaN a || isNaN b then nanWord st
  else if isInf a then (if isInf b then nanWord st else infWord s)
  else if isInf b then zeroWord s
  else if isZero b then (if isZero a then nanWord st else infWord s)
  else
    let num := signif a * 2 ^ 50
    roundWord s (num / signif b) (expo a + 550 - expo b) (num % signif b != 0)

/-- Bit by bit from the top, the largest `r + x`, `x < 2^k`, whose square is at most `m`. -/
def isqrtFrom (m : Nat) : (k r : Nat) → Nat
  | 0, r => r
  | k + 1, r =>
    let r' := r + 2 ^ k
    isqrtFrom m k (if r' * r' ≤ m then r' else r)

/-- The integer square root of a number below 2^80. -/
def isqrt (m : Nat) : Nat := isqrtFrom m 40 0

/-- `fsqrt` (R21): the operand scaled by 54 or 55 bits to an even exponent, an integer root of at
least 27 bits and the sticky remainder, rounded once. "fsqrt(-0) = -0, fsqrt(+0) = +0". -/
def fsqrt (st : Site) (a : Word) : Word :=
  if isNaN a then nanWord st
  else if isZero a then a
  else if signBit a then nanWord st
  else if isInf a then a
  else
    let k := if expo a % 2 = 0 then 55 else 54
    let m := signif a * 2 ^ k
    let r := isqrt m
    roundWord false r ((expo a + 1051 - k) / 2) (r * r != m)

/-- `u2f(n)`: "converts an unsigned integer n < 2^24 to the binary32 of the same value, exactly"
(R21). -/
def u2f (n : Nat) : Word := roundWord false n 600 false

/-- `w` is the binary32 value nearest to `x`, "ties-to-even" (R21): no finite pattern lies nearer, and one
that lies as near has the same value unless the last fraction bit of `w` is 0. -/
def RoundsTo (x : ℝ) (w : Word) : Prop :=
  isFinite w = true ∧ ∀ v : Word, isFinite v = true →
    |((toRat w : ℚ) : ℝ) - x| ≤ |((toRat v : ℚ) : ℝ) - x| ∧
      (|((toRat w : ℚ) : ℝ) - x| = |((toRat v : ℚ) : ℝ) - x| →
        toRat v = toRat w ∨ w.toNat % 2 = 0)

/-- `w` is "the exactly computed real result rounded once to binary32 with round-to-nearest,
ties-to-even" (R21): the nearest finite value, or the infinity of its sign from half a unit in the last
place above the largest finite value on. -/
def RoundedOnce (x : ℝ) (w : Word) : Prop :=
  (|x| < 2 ^ 128 - 2 ^ 103 → RoundsTo x w) ∧
    (2 ^ 128 - 2 ^ 103 ≤ x → w = infWord false) ∧
      (x ≤ -(2 ^ 128 - 2 ^ 103) → w = infWord true)

/-- `+0.0`, "bit pattern 0x00000000" (R190, R236). -/
def posZero : Word := 0x00000000#32

end Sys2Proof.Machine
end

