-- ==== Sys2Proof/Machine/Bits.lean ====
section
/-! DEFINITION. The index helpers of 00_scope.md: bit reversal (R24), the power-of-two test (R25), and
the counted loop of the pseudocode (R19). -/

namespace Sys2Proof.Machine

/-- `brev_W(i)`: "bit b of the result is bit W - 1 - b of i" (R24). -/
def brev : Nat → Nat → Nat
  | 0, _ => 0
  | w + 1, i => i % 2 * 2 ^ w + brev w (i / 2)

/-- `ispow2(n)`: "n != 0 and n & (n - 1) = 0" (R25). -/
def ispow2 (n : Nat) : Bool :=
  n != 0 && (n &&& (n - 1)) == 0

/-- `for i in [0, n): body(i)`, in rising order of `i` (R19). -/
def forUp {σ : Type} : (n : Nat) → (body : Nat → σ → σ) → σ → σ
  | 0, _, x => x
  | n + 1, body, x => body n (forUp n body x)

end Sys2Proof.Machine
end

