-- ==== Sys2Proof/Machine/Length.lean ====
section
/-! DEFINITION. The transform length: its value, its logarithm and the condition CFGCHK tests
(10_state.md R40, 40_init_and_window_table.md R141, 43_transform.md R201). -/

namespace Sys2Proof

/-- The length as a number (R40: "all other rules write N for CFG_N"). -/
abbrev Cfg.len (c : Cfg) : Nat := c.n.toNat

/-- "`LOGN` for its base-2 logarithm" (R40). -/
abbrev Cfg.logn (c : Cfg) : Nat := Nat.log2 c.n.toNat

/-- The precondition of the transform engine: "N is a power of two with N >= 2" (R201). -/
def Cfg.lenPow2 (c : Cfg) : Bool :=
  Machine.ispow2 c.len && decide (2 ≤ c.len)

/-- The condition CFGCHK tests: "ispow2(CFG_N) and 2 <= CFG_N and CFG_N <= MAX_N" (R141). -/
def Cfg.lengthLegal (c : Cfg) : Bool :=
  c.lenPow2 && decide (c.len ≤ c.maxN)

end Sys2Proof
end

