-- ==== Sys2Proof/WellFormed.lean ====
section
/-! DEFINITION. What is well formed: an operation the sequencer can select, and a configuration with a
legal length that meets the table premise (00_scope.md R9, R23; 30_encoding.md R103;
40_init_and_window_table.md R141). -/

namespace Sys2Proof

/-- An operation that the block ever executes: all but the reserved one, which "the sequencer never
writes" (R103). -/
def Instr.wf : Instr → Bool
  | .rsvd14 => false
  | .cfgchk | .twinit | .genwin | .start | .wait | .read | .window | .fft | .bitrev | .unpack
  | .mag | .suppress | .render | .yield | .halt | .notify => true

/-- An operation word that selects an operation: `irq_evt = 0` selects none (R103). -/
def OpWord.wf : OpWord → Bool
  | .ph _ => true
  | .irq evt => evt == 1#1

/-- A binary32 pattern with `0 <= w <= 1`, a zero of either sign among them. -/
def unitWord (w : Word) : Bool :=
  decide (w.toNat ≤ 0x3F800000) || w.toNat == 0x80000000

/-- A binary32 pattern with `|w| <= 1`. -/
def absUnitWord (w : Word) : Bool :=
  decide (w.toNat % 0x80000000 ≤ 0x3F800000)

/-- The table premise: "every value of WIN is a finite binary32 with 0 <= WIN[i] <= 1, and every pair
(c, s) of TW is finite with |c| <= 1, |s| <= 1" (R23), the host's lists giving every entry. -/
def Cfg.tablePremise (c : Cfg) : Bool :=
  decide (c.len ≤ c.winNom.length) && decide (c.len / 2 ≤ c.twNom.length)
    && c.winNom.all unitWord && c.twNom.all (fun p => absUnitWord p.1 && absUnitWord p.2)

/-- `MAX_N` is a power of two below 2^24, as R9 and R231 need. -/
def Cfg.maxNWf (c : Cfg) : Bool :=
  Machine.ispow2 c.maxN && decide (c.maxN < 2 ^ 24)

/-- A configuration the rules are written for. -/
def Cfg.wf (c : Cfg) : Bool :=
  c.lengthLegal && c.maxNWf && c.tablePremise

end Sys2Proof
end

