-- ==== Sys2Proof/Machine/Ops.lean ====
section
/-! DEFINITION. The named operations over registers, memories and ports that the meanings share: memory
access (20_memory.md R70, R77), register writes (00_scope.md R17), events and requests
(60_exceptions.md R290 to R295), taking a fatal condition (R280), reset (70 R310, R311) and the
host's view of the registers (10_state.md R38, R52). -/

namespace Sys2Proof.Machine

/-! ## Phase codes (R102) -/

abbrev P_CFGCHK : Phase := 0x0#4
abbrev P_TWINIT : Phase := 0x1#4
abbrev P_GENWIN : Phase := 0x2#4
abbrev P_START : Phase := 0x3#4
abbrev P_WAIT : Phase := 0x4#4
abbrev P_READ : Phase := 0x5#4
abbrev P_WINDOW : Phase := 0x6#4
abbrev P_FFT : Phase := 0x7#4
abbrev P_BITREV : Phase := 0x8#4
abbrev P_UNPACK : Phase := 0x9#4
abbrev P_MAG : Phase := 0xA#4
abbrev P_SUPPRESS : Phase := 0xB#4
abbrev P_RENDER : Phase := 0xC#4
abbrev P_YIELD : Phase := 0xD#4
abbrev P_RSVD14 : Phase := 0xE#4
abbrev P_HALT : Phase := 0xF#4

/-! ## Memory spaces -/

/-- The written value of cell `i`, none if no operation has written it (R62). -/
def Memory.find {w : Nat} : Memory w → Nat → Option (BitVec w)
  | [], _ => none
  | (a, x) :: m, i => if i = a then some x else if i < a then none else Memory.find m i

/-- `S[i] <- v`: "writing a cell changes that cell only" (R18, R77). -/
def Memory.write {w : Nat} : Memory w → Nat → BitVec w → Memory w
  | [], i, v => [(i, v)]
  | (a, x) :: m, i, v =>
    if i < a then (i, v) :: (a, x) :: m
    else if i = a then (i, v) :: m
    else (a, x) :: Memory.write m i v

/-- The canonical form: indices strictly rising, none below `lo`. -/
def Memory.wfFrom {w : Nat} : (lo : Nat) → Memory w → Bool
  | _, [] => true
  | lo, (a, _) :: m => decide (lo ≤ a) && Memory.wfFrom (a + 1) m

/-- The canonical form of a memory space: indices strictly rising (log 27). -/
def Memory.wf {w : Nat} (m : Memory w) : Bool := Memory.wfFrom 0 m

/-- `S[i]`, an unwritten cell reading as the free value `dflt i` (R18, R62). -/
def Memory.get {w : Nat} (m : Memory w) (dflt : Nat → BitVec w) (i : Nat) : BitVec w :=
  (m.find i).getD (dflt i)

/-- `FRAME[i]` (R55, R62). -/
def State.frameAt (s : State) (i : Nat) : Code := s.frame.get (Config.unwrittenCode s.launch) i

/-- `WIN[i]` (R56). -/
def State.winAt (s : State) (i : Nat) : Word := s.win.get (Config.unwrittenWord s.launch .win) i

/-- `TW[i]` (R57). -/
def State.twAt (s : State) (i : Nat) : Word := s.tw.get (Config.unwrittenWord s.launch .tw) i

/-- `CBUF[i]` (R58). -/
def State.cbufAt (s : State) (i : Nat) : Word := s.cbuf.get (Config.unwrittenWord s.launch .cbuf) i

/-- `SPEC[i]` (R59). -/
def State.specAt (s : State) (i : Nat) : Word := s.spec.get (Config.unwrittenWord s.launch .spec) i

/-- The five memories in canonical form. -/
def State.memWf (s : State) : Bool :=
  s.frame.wf && s.win.wf && s.tw.wf && s.cbuf.wf && s.spec.wf

/-! ## Registers -/

/-- `N` (R40). -/
abbrev State.len (s : State) : Nat := s.cfg.len

/-- `LOGN` (R40). -/
abbrev State.logn (s : State) : Nat := s.cfg.logn

/-- The layout in force (R48). -/
def State.layout (s : State) : Layout := layoutOf s.cfg.layout

/-- `NF <- v` (R17). -/
def State.setNf (s : State) (v : Bool) : State := { s with nf := v }

/-- `FILL <- v` (R17). -/
def State.setFill (s : State) (v : Nat) : State := { s with fill := v }

/-- `PH <- v`, which "plays the role of pc <- target" (R17). -/
def State.setPh (s : State) (v : Phase) : State := { s with ph := v }

/-- `STAT.b <- 1` (R36). -/
def State.setStatBit (s : State) (b : BitVec 4) : State := { s with stat := setSticky s.stat b }

/-- `CAUSE <- v` (R37). -/
def State.setCause (s : State) (v : BitVec 2) : State := { s with cause := v }

/-- FRAME replaced. -/
def State.setFrame (s : State) (m : Memory 12) : State := { s with frame := m }

/-- WIN replaced. -/
def State.setWin (s : State) (m : Memory 32) : State := { s with win := m }

/-- TW replaced. -/
def State.setTw (s : State) (m : Memory 32) : State := { s with tw := m }

/-- CBUF replaced. -/
def State.setCbuf (s : State) (m : Memory 32) : State := { s with cbuf := m }

/-- SPEC replaced. -/
def State.setSpec (s : State) (m : Memory 32) : State := { s with spec := m }

/-- The environment's remaining moves replaced. -/
def State.setEnv (s : State) (e : Env) : State := { s with env := e }

/-- The current free values are used up: the next operation draws fresh ones (log 28). -/
def State.bump (s : State) : State := { s with draws := s.draws + 1 }

/-! ## Ports -/

/-- A message placed on an output port: it "always completes within its operation" (R294). -/
def State.send (s : State) (m : PortMsg) : State := { s with out := s.out ++ [m] }

/-- `emit EV(arg)` (R19, R118). -/
def State.emit (s : State) (code : BitVec 4) (arg : Word) : State := s.send (.event code arg)

/-- "A READ with no queued answer receives (Timeout, 0 bytes)" (R120). -/
def timeoutRsp : RdRsp where
  status := codeOfStatus .timeout
  count := 0#32
  bytes := []

/-- The answer the channel gives to the next READ (R120). -/
def Env.nextRead (e : Env) : RdRsp := e.reads.headD timeoutRsp

/-- The environment once that answer is given: "answers are queued in order" (R120). -/
def Env.afterRead (e : Env) : Env := { e with reads := e.reads.tail }

/-- The environment once the head of the start answers is given. -/
def Env.afterStart (e : Env) : Env := { e with starts := e.starts.tail }

/-- Whether the renderer accepts now; with nothing queued it does (R247, log 4). -/
def Env.rendererAccepts (e : Env) : Bool := e.renders.headD .accepts == .accepts

/-- The environment once the renderer has answered. -/
def Env.afterRender (e : Env) : Env := { e with renders := e.renders.tail }

/-- The schedule without its first move. -/
def Env.afterMove (e : Env) : Env := { e with sched := e.sched.tail }

/-- The move the schedule selects; when it is empty the consumer moves. -/
def Env.nextMove (e : Env) : Move := e.sched.headD .consumer

/-! ## No step, fatal conditions, reset -/

/-- An operation that "has no step": nothing changes (R19, R103, R149, R164; log 2). -/
def hold (s : State) : Host.Outcome State Fault Refusal := .next s

/-- `raise X`: "CAUSE <- code(X); emit EV_FATAL(zext_32(code(X))); PH <- P_HALT", "nothing else is
written" (R280). There is no return from a fatal condition: "only reset leaves P_HALT". -/
def raiseFatal (x : Fatal) (s : State) : State :=
  ((s.setCause (fatalCode x)).emit evFatal ((fatalCode x).setWidth 32)).setPh P_HALT

/-- Reset (R67, R310, R311): registers at their reset values, configuration kept, every memory cell
unspecified again. The environment's queues and the history of messages are not the block's and
stay (log 21). -/
def takeReset (s : State) : State := State.launched s.cfg s.env s.out s.draws

/-! ## The host's view of the registers -/

/-- The CSRs of R52: configuration, reserved numbers that "read as zero" (R50), and the read-only
views; a number above 20 names no register. Observing one is no step (R38). -/
def State.csrRead (s : State) (csr : Nat) : Option Word :=
  match csr with
  | 0 => some s.cfg.n
  | 1 => some s.cfg.rate
  | 2 => some (s.cfg.ch.setWidth 32)
  | 3 => some s.cfg.atten
  | 4 => some s.cfg.bits
  | 5 => some s.cfg.k
  | 6 => some s.cfg.dw
  | 7 => some s.cfg.dh
  | 8 => some s.cfg.dmin
  | 9 => some s.cfg.dmax
  | 10 => some (s.cfg.layout.setWidth 32)
  | 11 => some (s.cfg.glyph.setWidth 32)
  | 12 => some 0#32
  | 13 => some 0#32
  | 14 => some 0#32
  | 15 => some 0#32
  | 16 => some (s.stat.setWidth 32)
  | 17 => some (s.cause.setWidth 32)
  | 18 => some (BitVec.ofNat 32 s.fill)
  | 19 => some (s.ph.setWidth 32)
  | 20 => some (if s.nf then 1#32 else 0#32)
  | _ => none

/-- A host write to a CSR of a running block: the reserved numbers "ignore writes" (R50), the views are
read-only (R52), and a configuration register may not change after reset release (R331, 93 U33;
log 25). -/
def State.csrWrite (s : State) (csr : Nat) (_v : Word) : Host.Outcome State Fault Refusal :=
  if csr < 12 then .refused .configWriteAfterReset else .next s

end Sys2Proof.Machine
end

