-- ==== Sys2Proof/Machine/Driver.lean ====
section
/-! DEFINITION. The Pipeline Driver's two operations, its macro states and when the consumer has a step
(45_driver.md R245 to R256, 30_encoding.md R121). -/

namespace Sys2Proof.Machine

/-- The first `k` cells of SPEC, in index order (R109). -/
def specCells (s : State) : (k : Nat) → List Word
  | 0 => []
  | k + 1 => specCells s k ++ [s.specAt k]

/-- The renderer message: "a copy of the N/2 values as they are at this step" (R109, R246). -/
def renderMessage (s : State) : RndrMsg where
  length := BitVec.ofNat 32 (s.len / 2)
  magnitudes := specCells s (s.len / 2)
  displayWidth := s.cfg.dw
  displayHeight := s.cfg.dh
  minScale := s.cfg.dmin
  maxScale := s.cfg.dmax
  fillGlyph := s.cfg.glyph

/-- RENDER (R246): the consumer "does not proceed to YIELD until the renderer has accepted the message"
(R247); a busy renderer holds it, one answer of the renderer used up. -/
def execRender (s : State) : Host.Outcome State Fault Refusal :=
  let s' := s.setEnv s.env.afterRender
  if s.env.rendererAccepts then .next ((s'.send (.rndr (renderMessage s))).setPh P_YIELD)
  else hold s'

/-- YIELD (R248): "one yield_evt pulse; PH <- P_WAIT, nothing else changes". -/
def execYield (s : State) : Host.Outcome State Fault Refusal :=
  .next ((s.send .yieldEvt).setPh P_WAIT)

/-- Whether the consumer has a step in this state (R164, R253; R103 and R149 for the last two): while it
has none it is blocked, halted or awaiting the environment, and its move holds the state. -/
def consumerEnabled (s : State) : Bool :=
  match decodePhase s.ph with
  | .wait => s.nf
  | .start => !s.env.starts.isEmpty
  | .render => s.env.rendererAccepts
  | .halt | .rsvd14 => false
  | .cfgchk | .twinit | .genwin | .read | .window | .fft | .bitrev | .unpack | .mag | .suppress
  | .yield | .notify => true

/-- The macro states of the source's Pipeline Driver and its startup (R121, R252). -/
inductive MacroState where
  | init
  | waitNotify
  | accumulate
  | window
  | transform
  | reduce
  | render
  | halted
  deriving DecidableEq, Repr

/-- The operations each macro state stands for (R121, R252); the halted phases lie "outside the source's
loop" and stand for none. -/
def macroExpansion : MacroState → List Instr
  | .init => [.cfgchk, .twinit, .genwin, .start]
  | .waitNotify => [.wait]
  | .accumulate => [.read]
  | .window => [.window]
  | .transform => [.fft, .bitrev, .unpack]
  | .reduce => [.mag, .suppress]
  | .render => [.render, .yield]
  | .halted => []

/-- The macro state of a phase (R252): "a model that shows the source's seven states to a user maps
P_YIELD to Render". -/
def macroState (p : Phase) : MacroState :=
  match decodePhase p with
  | .cfgchk | .twinit | .genwin | .start => .init
  | .wait => .waitNotify
  | .read => .accumulate
  | .window => .window
  | .fft | .bitrev | .unpack => .transform
  | .mag | .suppress => .reduce
  | .render | .yield => .render
  | .halt | .rsvd14 | .notify => .halted

end Sys2Proof.Machine
end

