-- ==== Sys2Proof/Machine/Init.lean ====
section
/-! DEFINITION. The initialisation operations and the halted and reserved phases
(40_init_and_window_table.md R140 to R150, 30_encoding.md R103). -/

namespace Sys2Proof.Machine

/-- CFGCHK (R141): a legal length goes on to TWINIT, any other raises InvalidLength. -/
def execCfgchk (s : State) : Host.Outcome State Fault Refusal :=
  if s.cfg.lengthLegal then .next (s.setPh P_TWINIT) else .next (raiseFatal .invalidLength s)

/-- `TW_NOM(m)`: the host's table argument (R13, R143, log 11). -/
def Cfg.twNomAt (c : Cfg) (m : Nat) : Word × Word :=
  c.twNom.getD m (Config.twNom c.len m)

/-- `WIN_NOM(i)`: the host's table argument, "a function of i and N alone" (R145, R147, log 11). -/
def Cfg.winNomAt (c : Cfg) (i : Nat) : Word :=
  c.winNom.getD i (Config.winNom c.len i)

/-- The table TWINIT builds over the old contents `tw` (R143). -/
def twTable (c : Cfg) (tw : Memory 32) : Memory 32 :=
  forUp (c.len / 2) (fun m t =>
    let p := Cfg.twNomAt c m
    (t.write (2 * m) p.1).write (2 * m + 1) p.2) tw

/-- TWINIT (R143). -/
def execTwinit (s : State) : Host.Outcome State Fault Refusal :=
  .next ((s.setTw (twTable s.cfg s.tw)).setPh P_GENWIN)

/-- The table GENWIN builds over the old contents `win` (R145). -/
def winTable (c : Cfg) (win : Memory 32) : Memory 32 :=
  forUp c.len (fun i t => t.write i (Cfg.winNomAt c i)) win

/-- GENWIN (R145). -/
def execGenwin (s : State) : Host.Outcome State Fault Refusal :=
  .next ((s.setWin (winTable s.cfg s.win)).setPh P_START)

/-- The start request `STREQ(CFG_CH, CFG_RATE, CFG_BITS, CFG_ATTEN)` (R108, R148). -/
def startRequest (c : Cfg) : PortMsg := .stReq c.ch c.rate c.bits c.atten

/-- START (R148): "START has no step until the environment answers". -/
def execStart (s : State) : Host.Outcome State Fault Refusal :=
  match s.env.starts with
  | [] => hold s
  | r :: _ =>
    let s' := (s.setEnv s.env.afterStart).send (startRequest s.cfg)
    if r = 0#1 then .next (s'.setPh P_WAIT) else .next (raiseFatal .configError s')

/-- HALT (R149): "no step: PH stays P_HALT, no register or memory changes, no event is emitted". -/
def execHalt (s : State) : Host.Outcome State Fault Refusal := hold s

/-- RSVD14 (R103): "no operation has a step, PH keeps its value, nothing is written". -/
def execRsvd14 (s : State) : Host.Outcome State Fault Refusal := hold s

end Sys2Proof.Machine
end

