-- ==== Sys2Proof/Machine/Reducer.lean ====
section
/-! DEFINITION. The Spectrum Reducer (44_reducer.md R230 to R239). -/

namespace Sys2Proof.Machine

/-- The magnitude of bin `i` divided by N: both squares, their sum, the square root, then the division,
five roundings (R231). -/
def magnitude (s : State) (i : Nat) : Word :=
  let st := fun k => Site.mk s.draws 0 i k
  let re := s.cbufAt (2 * i)
  let im := s.cbufAt (2 * i + 1)
  let sq := fadd (st 2) (fmul (st 0) re re) (fmul (st 1) im im)
  fdiv (st 4) (fsqrt (st 3) sq) (u2f s.len)

/-- MAG (R231). -/
def execMag (s : State) : Host.Outcome State Fault Refusal :=
  .next ((s.setSpec (forUp (s.len / 2) (fun i m => m.write i (magnitude s i)) s.spec)).bump.setPh
    P_SUPPRESS)

/-- `lim = min(CFG_K, N/2)` (R236). -/
def suppressLimit (c : Cfg) : Nat := min c.k.toNat (c.len / 2)

/-- SUPPRESS (R236): "the set of cells written depends on CFG_K and N only". -/
def execSuppress (s : State) : Host.Outcome State Fault Refusal :=
  .next ((s.setSpec (forUp (suppressLimit s.cfg) (fun i m => m.write i posZero) s.spec)).setPh
    P_RENDER)

end Sys2Proof.Machine
end

