-- ==== Sys2Proof/Machine/Signal.lean ====
section
/-! DEFINITION. Cross-context signalling and the Frame Assembler
(41_signal_and_frame_assembly.md R160 to R175). -/

namespace Sys2Proof.Machine

/-- NOTIFY (R160): "the write is unconditional", and it reads nothing. -/
def execNotify (s : State) : Host.Outcome State Fault Refusal := .next (s.setNf true)

/-- WAIT (R163): the test and the clear of NF are one event; "no step while NF = 0" (R164). -/
def execWait (s : State) : Host.Outcome State Fault Refusal :=
  if s.nf then .next ((s.setNf false).setPh P_READ) else hold s

/-- `max_len = (N - FILL) * WORD_BYTES`, "the remaining capacity" (R106, R166, R173). -/
def readMaxLen (s : State) : Word :=
  BitVec.ofNat 32 ((s.len - s.fill) * s.layout.wordBytes)

/-- The channel contract of R167 (a) to (c): the refusal of a response that breaks it. -/
def readContract (l : Layout) (maxLen : Word) (r : RdRsp) : Option Refusal :=
  if maxLen.toNat < r.count.toNat then some .readCountAboveMaxLen
  else if r.count.toNat % l.wordBytes ≠ 0 then some .readCountNotWholeWords
  else if r.bytes.length ≠ r.count.toNat then some .readPayloadLength
  else none

/-- One sample word taken into the frame (R166, R170): a matching code is written; otherwise the cell
keeps its value, `STAT.TM` is set and the mismatch is reported. "In both cases" the position is
consumed. -/
def appendWord (s : State) (w : Word) : State :=
  let tag := sampleTag s.layout w
  let s' :=
    if tag = s.cfg.ch then s.setFrame (s.frame.write s.fill (sampleCode s.layout w))
    else (s.setStatBit statTM).emit evTagMismatch (tagMismatchArg tag s.fill)
  s'.setFill (s.fill + 1)

/-- The sample words of a response, in delivery order (R166). -/
def appendWords (s : State) (ws : List Word) : State := ws.foldl appendWord s

/-- What READ does with a response that keeps the contract: "on success" it appends, otherwise one
sticky bit is set, one event is emitted and the payload is ignored (R166, R169). -/
def readBody (s : State) (r : RdRsp) : State :=
  match statusRecord (statusOfCode r.status) with
  | none =>
    appendWords s (sampleWords s.layout r.bytes (r.count.toNat / s.layout.wordBytes))
  | some (bit, code) => (s.setStatBit bit).emit code 0#32

/-- The successor of READ: P_WINDOW if FILL = N, otherwise P_WAIT (R166, R250). -/
def readNext (s : State) : Phase := if s.fill = s.len then P_WINDOW else P_WAIT

/-- READ (R166). -/
def execRead (s : State) : Host.Outcome State Fault Refusal :=
  let r := s.env.nextRead
  match readContract s.layout (readMaxLen s) r with
  | some refusal => .refused refusal
  | none =>
    let s' := readBody ((s.setEnv s.env.afterRead).send (.rdReq (readMaxLen s))) r
    .next (s'.setPh (readNext s'))

end Sys2Proof.Machine
end

