-- ==== Sys2Proof/Machine/Transform.lean ====
section
/-! DEFINITION. The Spectral Transform Engine, in place on CBUF (43_transform.md R200 to R220). Each
operation is a function of the buffers (00_scope.md R15, 20_memory.md R86). -/

namespace Sys2Proof.Machine

/-- The butterfly on elements `a` and `b` with rotation `(c, sn)` (R205): "all four reads happen before
any write", nothing is fused. `rd` reads a cell of the buffer `m`; `st k` is the site of the
butterfly's primitive number `k`. The sign of a zero is the one R21 gives each primitive; for all-zero
input and tables other than the nominal ones the spec leaves it open (R204, 93 U29): DESIGN CHOICE,
unsafe, log 30. -/
def butterfly (dflt : Nat → Word) (st : Nat → Site) (c sn : Word) (a b : Nat) (m : Memory 32) :
    Memory 32 :=
  let br := m.get dflt (2 * b)
  let bi := m.get dflt (2 * b + 1)
  let ar := m.get dflt (2 * a)
  let ai := m.get dflt (2 * a + 1)
  let reT := fadd (st 2) (fmul (st 0) c br) (fmul (st 1) sn bi)
  let imT := fsub (st 5) (fmul (st 3) c bi) (fmul (st 4) sn br)
  (((m.write (2 * b) (fsub (st 6) ar reT)).write (2 * b + 1) (fsub (st 7) ai imT)).write
    (2 * a) (fadd (st 8) ar reT)).write (2 * a + 1) (fadd (st 9) ai imT)

/-- `h = N >> (s + 1)`, the butterfly span of a stage (R204). -/
def fftSpan (n stage : Nat) : Nat := n >>> (stage + 1)

/-- "Group j of any stage uses table pair m = brev_(LOGN-1)(j)" (R206). -/
def fftPair (logn j : Nat) : Nat := brev (logn - 1) j

/-- One group of a stage: the butterflies `i` in `[0, h)` (R204). -/
def fftGroup (dflt tw : Nat → Word) (draw logn n stage j : Nat) (m : Memory 32) : Memory 32 :=
  let h := fftSpan n stage
  let p := fftPair logn j
  forUp h (fun i m =>
    let a := j * 2 * h + i
    butterfly dflt (fun k => ⟨draw, stage, a, k⟩) (tw (2 * p)) (tw (2 * p + 1)) a (a + h) m) m

/-- One stage: the groups `j` in `[0, 1 << s)` (R204). -/
def fftStage (dflt tw : Nat → Word) (draw logn n stage : Nat) (m : Memory 32) : Memory 32 :=
  forUp (1 <<< stage) (fun j m => fftGroup dflt tw draw logn n stage j m) m

/-- FFT as a function of the buffers: "stages run in order s = 0, 1, ..., LOGN-1" (R204). -/
def fftCbuf (dflt tw : Nat → Word) (draw logn n : Nat) (m : Memory 32) : Memory 32 :=
  forUp logn (fun stage m => fftStage dflt tw draw logn n stage m) m

/-- FFT (R204); a length the engine is not defined on faults (R201, log 18). -/
def execFft (s : State) : Host.Outcome State Fault Refusal :=
  if s.cfg.lenPow2 then
    .next ((s.setCbuf (fftCbuf (Config.unwrittenWord s.launch .cbuf) s.twAt s.draws s.logn s.len
      s.cbuf)).bump.setPh P_BITREV)
  else .fault .transformLengthInvalid

/-- BITREV as a function of the buffer, `old` reading its old contents (R210). -/
def bitrevCbuf (old : Nat → Word) (logn n : Nat) (m : Memory 32) : Memory 32 :=
  forUp n (fun k m =>
    let p := brev logn k
    (m.write (2 * k) (old (2 * p))).write (2 * k + 1) (old (2 * p + 1))) m

/-- BITREV (R210); a length the engine is not defined on faults (R201, log 18). -/
def execBitrev (s : State) : Host.Outcome State Fault Refusal :=
  if s.cfg.lenPow2 then
    .next ((s.setCbuf (bitrevCbuf s.cbufAt s.logn s.len s.cbuf)).setPh P_UNPACK)
  else .fault .transformLengthInvalid

/-- The bins `k` in `1 .. cnt` of UNPACK: "the sum of bin k and the complex conjugate of its mirror bin
N - k, with no halving" (R216). The sign of a zero sum or difference is the one R21 gives the primitive,
where 93 U29 leaves it open (DESIGN CHOICE, unsafe, log 30). -/
def unpackBins (old : Nat → Word) (draw n cnt : Nat) (m : Memory 32) : Memory 32 :=
  forUp cnt (fun k' m =>
    let k := k' + 1
    (m.write (2 * k) (fadd ⟨draw, 0, k, 0⟩ (old (2 * k)) (old (2 * (n - k))))).write
      (2 * k + 1) (fsub ⟨draw, 0, k, 1⟩ (old (2 * k + 1)) (old (2 * (n - k) + 1)))) m

/-- The upper half after UNPACK, "unspecified", "a draw" (R218, log 8). -/
def unpackUpperHalf (draw n : Nat) (m : Memory 32) : Memory 32 :=
  forUp n (fun i m => m.write (n + i) (Config.unpackUpper draw (n + i))) m

/-- UNPACK as a function of the buffer, `old` reading its old contents (R216). -/
def unpackCbuf (old : Nat → Word) (draw n : Nat) (m : Memory 32) : Memory 32 :=
  let m := (m.write 0 (old 0)).write 1 posZero
  unpackUpperHalf draw n (unpackBins old draw n (n / 2 - 1) m)

/-- UNPACK (R216); a length the engine is not defined on faults (R201, log 18). -/
def execUnpack (s : State) : Host.Outcome State Fault Refusal :=
  if s.cfg.lenPow2 then
    .next ((s.setCbuf (unpackCbuf s.cbufAt s.draws s.len s.cbuf)).bump.setPh P_MAG)
  else .fault .transformLengthInvalid

end Sys2Proof.Machine
end

