-- ==== Sys2Proof/Machine/Window.lean ====
section
/-! DEFINITION. The Windowing Stage (42_windowing.md R190 to R194). -/

namespace Sys2Proof.Machine

/-- The real part of element `i` after WINDOW: `fmul(u2f(FRAME[i]), WIN[i])` (R190). -/
def windowedSample (s : State) (i : Nat) : Word :=
  fmul ⟨s.draws, 0, i, 0⟩ (u2f (s.frameAt i).toNat) (s.winAt i)

/-- The complex frame WINDOW forms: every cell is written (R190, R193). -/
def windowedFrame (s : State) : Memory 32 :=
  forUp s.len (fun i m => (m.write (2 * i) (windowedSample s i)).write (2 * i + 1) posZero) s.cbuf

/-- WINDOW (R190); `FILL <- 0`, "the frame is consumed" (R192). -/
def execWindow (s : State) : Host.Outcome State Fault Refusal :=
  .next (((s.setCbuf (windowedFrame s)).setFill 0).bump.setPh P_FFT)

end Sys2Proof.Machine
end

