-- ==== Sys2Proof/Machine/Dispatch.lean ====
section
/-! DEFINITION. One arm per operation of spec/opcode_table.json, each one call of its meaning. -/

namespace Sys2Proof.Machine

def exec (i : Instr) (s : State) : Host.Outcome State Fault Refusal :=
  match i with
  | .cfgchk => Sys2Proof.Machine.execCfgchk s
  | .twinit => Sys2Proof.Machine.execTwinit s
  | .genwin => Sys2Proof.Machine.execGenwin s
  | .start => Sys2Proof.Machine.execStart s
  | .wait => Sys2Proof.Machine.execWait s
  | .read => Sys2Proof.Machine.execRead s
  | .window => Sys2Proof.Machine.execWindow s
  | .fft => Sys2Proof.Machine.execFft s
  | .bitrev => Sys2Proof.Machine.execBitrev s
  | .unpack => Sys2Proof.Machine.execUnpack s
  | .mag => Sys2Proof.Machine.execMag s
  | .suppress => Sys2Proof.Machine.execSuppress s
  | .render => Sys2Proof.Machine.execRender s
  | .yield => Sys2Proof.Machine.execYield s
  | .rsvd14 => Sys2Proof.Machine.execRsvd14 s
  | .halt => Sys2Proof.Machine.execHalt s
  | .notify => Sys2Proof.Machine.execNotify s

end Sys2Proof.Machine
end

