-- ==== Sys2Proof/Machine/Select.lean ====
section
/-! DEFINITION. How an operation is selected: the consumer's by PH, the producer's by the interrupt event
line (30_encoding.md R100; 60_exceptions.md R272), and how a word is placed where the next step finds
it (log 16). -/

namespace Sys2Proof.Machine

/-- The operation word the consumer's next step runs: the phase register (R100). -/
def phaseWord (s : State) : OpWord := .ph s.ph

/-- The operation word the channel's event presents: `irq_evt = 1` (R272). -/
def irqWord : OpWord := .irq 1#1

/-- The schedule with `m` as its first move; an empty schedule already moves the consumer. -/
def selectMove (m : Move) (sched : List Move) : List Move :=
  if sched.headD .consumer = m then sched else m :: sched

/-- The state whose next step runs the operation word `w` of `nbits` bits: PH for the format PH, the
event line for the format IRQ. A word that selects no operation leaves the state as it is, with no
agent moving. -/
def placeWord (s : State) (nbits w : Nat) : State :=
  let go := fun (s : State) (m : Move) =>
    s.setEnv { s.env with sched := selectMove m s.env.sched }
  match decodeTableWord nbits w with
  | none => go s .idle
  | some .notify => go s .irq
  | some _ => go (s.setPh (BitVec.ofNat 4 w)) .consumer

end Sys2Proof.Machine
end

