-- ==== Sys2Proof/Machine/Step.lean ====
section
/-! DEFINITION. One step of the machine: the move that the schedule selects (00_scope.md R14). -/

namespace Sys2Proof.Machine

/-- The operation an operation word selects runs; a word that selects none does nothing (R103). -/
def runWord (w : OpWord) (s : State) : Host.Outcome State Fault Refusal :=
  match decode w with
  | .ok i => exec i s
  | .error _ => .next s

/-- One step: "any agent may take the next step whenever it has one" (R14). The schedule says which
agent moves, and its move is used up. -/
def step (s : State) : Host.Outcome State Fault Refusal :=
  let s' := s.setEnv s.env.afterMove
  match s.env.nextMove with
  | .consumer => runWord (phaseWord s) s'
  | .irq => runWord irqWord s'
  | .reset => .next (takeReset s')
  | .idle => .next s'

/-- The state whose next step runs the row's word (log 16). -/
def State.withFetchWord (s : State) (nbits w : Nat) : State := placeWord s nbits w

end Sys2Proof.Machine
end

