-- ==== Sys2Proof/Safety.lean ====
section
/-! DEFINITION. What counts as a safe run, in the terms that claims use: the halted block, the conditions
the spec tells claims to exclude, the iteration boundary and one frame, the fairness premises on the
environment, and the invariant of the reachable states. -/

namespace Sys2Proof.Machine

/-- "A model treats a state with PH = P_HALT as faulted, not as a final state" (R149). -/
def Safety.faulted (s : State) : Bool := s.ph == P_HALT

/-- "A model count[s] `STAT.IS = 1` as a recorded fault" (R169, 92 D10). -/
def Safety.recordedFault (s : State) : Bool := s.stat &&& statIS != 0#4

/-- `STAT.TM = 0`, the premise of a model "that wants frames to be a function of the current samples
alone" (R328). -/
def Safety.noStaleData (s : State) : Bool := s.stat &&& statTM == 0#4

/-- The register values R254 and R255 give at an iteration boundary: PH = P_WAIT, FILL = 0, CAUSE = 0.
Other states have them too (after START, after an empty READ): they do not make a boundary. -/
def Safety.boundaryRegisters (s : State) : Bool :=
  s.ph == P_WAIT && s.fill == 0 && s.cause == 0#2

/-- `t` is an iteration boundary, reached from `s`: "the state just after a YIELD step" (R254). A boundary
is a step, not a set of states: a run that is blocked, halted or awaiting the environment takes no YIELD
step and has none (92 D30, 95 P4). -/
def Safety.iterationBoundary (s t : State) : Prop :=
  s.env.nextMove = .consumer ∧ s.ph = P_YIELD ∧ step s = .next t

/-- A frame begins at `t`: at an iteration boundary "or from the success of START" (R254). -/
def Safety.frameStart (s t : State) : Prop :=
  Safety.iterationBoundary s t ∨
    (s.env.nextMove = .consumer ∧ s.ph = P_START ∧ step s = .next t ∧ t.ph = P_WAIT)

/-- The renderer messages that `t` has sent and `s` had not: what "one frame" shows (R254). -/
def Safety.rendered (s t : State) : List RndrMsg :=
  (t.out.drop s.out.length).filterMap fun
    | .rndr m => some m
    | .event _ _ | .rdReq _ | .stReq _ _ _ _ | .yieldEvt => none

/-! ## Runs, and the fairness R326 asks a model to state

R326 makes progress depend on the environment: "a model states the needed fairness as a premise on the
environment" (92 D30). The premises speak of an endless run, so the environment goes on adding to its
queues while the block runs. -/

/-- `e'` is `e` with further moves and answers of the environment queued behind what it held. -/
def Safety.feeds (e e' : Env) : Prop :=
  ∃ ms ss rs as, e' = {
    sched := e.sched ++ ms, starts := e.starts ++ ss, reads := e.reads ++ rs
    renders := e.renders ++ as }

/-- An endless run: before each step the environment adds what it likes to its queues, and each step is
answered (so the channel keeps the contract of R167). -/
structure Safety.Run where
  /-- The state before step `n`, the environment's additions for it not yet made. -/
  before : Nat → State
  /-- The environment that step `n` finds. -/
  env : Nat → Env
  fed : ∀ n, Safety.feeds (before n).env (env n)
  answered : ∀ n, step ((before n).setEnv (env n)) = .next (before (n + 1))

/-- The state that step `n` runs in. -/
def Safety.Run.state (r : Safety.Run) (n : Nat) : State := (r.before n).setEnv (r.env n)

/-- Step `n` is the consumer's, in phase `p`. -/
def Safety.Run.runs (r : Safety.Run) (n : Nat) (p : Phase) : Prop :=
  (r.state n).env.nextMove = .consumer ∧ (r.state n).ph = p

/-- The consumer is "blocked in WAIT" before step `n` (R164, R326). -/
def Safety.Run.blocked (r : Safety.Run) (n : Nat) : Prop := (r.state n).ph = P_WAIT ∧ (r.state n).nf = false

/-- Step `n` is a READ that "return[s] samples" (R326): status Ok and at least one byte. -/
def Safety.Run.delivers (r : Safety.Run) (n : Nat) : Prop :=
  r.runs n P_READ ∧ (r.state n).env.nextRead.status = 0b00#2 ∧ 0 < (r.state n).env.nextRead.count.toNat

/-- R326 (a): "a NOTIFY eventually follows whenever the consumer is blocked in WAIT and the channel holds or
will hold data". `data n` says that the channel holds data before step `n`; the channel's own buffer is
not the block's state. -/
def Safety.eventsKeepComing (r : Safety.Run) (data : Nat → Prop) : Prop :=
  ∀ n, r.blocked n → (∃ m, n ≤ m ∧ data m) → ∃ m, n ≤ m ∧ (r.state m).env.nextMove = .irq

/-- R326 (b): "reads eventually return samples": if READ runs again and again, some READ from then on
delivers. -/
def Safety.readsDeliver (r : Safety.Run) : Prop :=
  ∀ n, (∀ k, n ≤ k → ∃ m, k ≤ m ∧ r.runs m P_READ) → ∃ m, n ≤ m ∧ r.delivers m

/-- R247: "a model assumes the renderer always accepts eventually": a consumer that stays in RENDER meets a
step in which the renderer accepts. -/
def Safety.rendererEventuallyAccepts (r : Safety.Run) : Prop :=
  ∀ n, (∀ m, n ≤ m → (r.state m).ph = P_RENDER) →
    ∃ m, n ≤ m ∧ r.runs m P_RENDER ∧ (r.state m).env.rendererAccepts = true

/-- The consumer goes on taking steps: R14 fixes no relative speed of the agents, so this too is a premise
(log 31). -/
def Safety.consumerMoves (r : Safety.Run) : Prop :=
  ∀ n, ∃ m, n ≤ m ∧ (r.state m).env.nextMove = .consumer

/-- The premises under which the run loop makes progress (R326, R247; log 31): both halves of the channel's
fairness with data that goes on coming, the renderer's, the consumer's, and no reset. -/
structure Safety.Fair (r : Safety.Run) : Prop where
  events : ∃ data : Nat → Prop, (∀ n, ∃ m, n ≤ m ∧ data m) ∧ Safety.eventsKeepComing r data
  reads : Safety.readsDeliver r
  renderer : Safety.rendererEventuallyAccepts r
  consumer : Safety.consumerMoves r
  noReset : ∀ n, (r.state n).env.nextMove ≠ .reset

/-- A boundary is reached by step `n` of the run. -/
def Safety.Run.boundary (r : Safety.Run) (n : Nat) : Prop :=
  Safety.iterationBoundary (r.state n) (r.before (n + 1))

/-- "One frame": the execution from step `a` "from one iteration boundary (or from the success of START) to
the next", which step `b` reaches (R254). R254 is silent on a reset in between: that an execution which a
reset interrupts is no frame is the model's choice (DESIGN CHOICE, log 32); the frame after it starts with
the success of the next START. -/
def Safety.Run.oneFrame (r : Safety.Run) (a b : Nat) : Prop :=
  Safety.frameStart (r.state a) (r.before (a + 1)) ∧ a < b ∧ r.boundary b ∧
    ∀ n, a < n → n < b → ¬ r.boundary n ∧ (r.state n).env.nextMove ≠ .reset

/-- The operations `is` in order, one after the other, stopping at the first fault or refusal. -/
def Safety.execSeq : List Instr → State → Host.Outcome State Fault Refusal
  | [], s => .next s
  | i :: is, s =>
    match exec i s with
    | .next t => Safety.execSeq is t
    | .fault r => .fault r
    | .refused r => .refused r

/-- An outcome with `f` applied to its next state. -/
def Safety.mapNext (f : State → State) :
    Host.Outcome State Fault Refusal → Host.Outcome State Fault Refusal
  | .next t => .next (f t)
  | .fault r => .fault r
  | .refused r => .refused r

/-- Every listed cell of a space lies below `size` (R18, R70). -/
def Memory.within {w : Nat} (m : Memory w) (size : Nat) : Prop :=
  ∀ i x, m.find i = some x → i < size

/-- Every cell below `size` has been written. -/
def Memory.full {w : Nat} (m : Memory w) (size : Nat) : Prop :=
  ∀ i, i < size → ∃ x, m.find i = some x

/-- The states a run from any reset can reach satisfy this: memories in canonical form and inside their
spaces (R70), FILL within `N` and where the sequencer needs it (R32, R87, R175, R192, R250), legal PH and
CAUSE values (R37, R103), P_HALT exactly with a cause (R280), a legal length once CFGCHK has passed
(R141), and no table or buffer read before it is written (R237, R320). -/
structure Safety.Inv (s : State) : Prop where
  memWf : s.memWf = true
  frameWithin : s.frame.within s.len
  winWithin : s.win.within s.len
  twWithin : s.tw.within s.len
  cbufWithin : s.cbuf.within (2 * s.len)
  specWithin : s.spec.within (s.len / 2)
  fillLe : s.fill ≤ s.len
  notReserved : s.ph ≠ P_RSVD14
  causeLegal : s.cause ≠ 3#2
  haltCause : s.ph = P_HALT ↔ s.cause ≠ 0#2
  lengthLegal : s.ph ≠ P_CFGCHK → s.ph ≠ P_HALT → s.cfg.lengthLegal = true
  fillFull : s.ph = P_WINDOW → s.fill = s.len
  fillOpen : s.ph = P_WAIT ∨ s.ph = P_READ → s.fill < s.len
  fillZero : s.ph ≠ P_WAIT → s.ph ≠ P_READ → s.ph ≠ P_WINDOW → s.fill = 0
  twFull : s.ph ≠ P_CFGCHK → s.ph ≠ P_TWINIT → s.ph ≠ P_HALT → s.tw.full s.len
  winFull : s.ph ≠ P_CFGCHK → s.ph ≠ P_TWINIT → s.ph ≠ P_GENWIN → s.ph ≠ P_HALT →
    s.win.full s.len
  cbufFull : s.ph = P_FFT ∨ s.ph = P_BITREV ∨ s.ph = P_UNPACK ∨ s.ph = P_MAG →
    s.cbuf.full (2 * s.len)
  specFull : s.ph = P_SUPPRESS ∨ s.ph = P_RENDER ∨ s.ph = P_YIELD → s.spec.full (s.len / 2)
  suppressed : s.ph = P_RENDER ∨ s.ph = P_YIELD →
    ∀ i, i < suppressLimit s.cfg → s.spec.find i = some posZero

end Sys2Proof.Machine
end

