-- ==== Sys2Proof/Certificates/Slice0/Obligations.lean ====
section
/-! DEFINITION. The statements about the model, for the provers. "Site" in them is the model's tag that tells
produced NaNs apart (log 9): a statement that asserts a site exists says the value up to the free bits
of a NaN. -/

open Sys2Proof Sys2Proof.Machine

/-! ## Reset, selection and encoding -/

/-- R310: whatever the state, reset leaves every register at its reset value, the configuration as
loaded, no cell written, and the consumer about to execute CFGCHK. -/
def Obligations.ResetPutsEveryRegisterAtItsResetValue : Prop :=
  ∀ s : State, s.env.nextMove = .reset →
    ∃ t, step s = .next t ∧
      t.nf = false ∧ t.fill = 0 ∧ t.ph = 0b0000#4 ∧ t.stat = 0b0000#4 ∧ t.cause = 0#2 ∧
      t.cfg = s.cfg ∧
      (∀ i, t.frame.find i = none ∧ t.win.find i = none ∧ t.tw.find i = none ∧
        t.cbuf.find i = none ∧ t.spec.find i = none) ∧
      decode (phaseWord t) = .ok .cfgchk

/-- R14, R100, R272, R311 (the schedule is the model's, log 1): the consumer's move runs the operation
that PH decodes to, the channel's event runs NOTIFY, reset resets, an idle move changes nothing; the move
is used up. -/
def Obligations.StepRunsTheSelectedOperation : Prop :=
  ∀ (s s' : State), s' = { s with env := { s.env with sched := s.env.sched.tail } } →
    (s.env.sched = [] ∨ s.env.sched.head? = some .consumer →
      ∃ i, decode (.ph s.ph) = .ok i ∧ step s = exec i s') ∧
    (s.env.sched.head? = some .irq →
      decode (.irq 1#1) = .ok .notify ∧ step s = exec .notify s') ∧
    (s.env.sched.head? = some .reset → step s = .next (takeReset s')) ∧
    (s.env.sched.head? = some .idle → step s = .next s')

/-- R102, R104: the sixteen phase codes and the one event code. -/
def Obligations.OperationWordsDecode : Prop :=
  decode (.ph 0b0000#4) = .ok .cfgchk ∧ decode (.ph 0b0001#4) = .ok .twinit ∧
  decode (.ph 0b0010#4) = .ok .genwin ∧ decode (.ph 0b0011#4) = .ok .start ∧
  decode (.ph 0b0100#4) = .ok .wait ∧ decode (.ph 0b0101#4) = .ok .read ∧
  decode (.ph 0b0110#4) = .ok .window ∧ decode (.ph 0b0111#4) = .ok .fft ∧
  decode (.ph 0b1000#4) = .ok .bitrev ∧ decode (.ph 0b1001#4) = .ok .unpack ∧
  decode (.ph 0b1010#4) = .ok .mag ∧ decode (.ph 0b1011#4) = .ok .suppress ∧
  decode (.ph 0b1100#4) = .ok .render ∧ decode (.ph 0b1101#4) = .ok .yield ∧
  decode (.ph 0b1110#4) = .ok .rsvd14 ∧ decode (.ph 0b1111#4) = .ok .halt ∧
  decode (.irq 1#1) = .ok .notify ∧ decode (.irq 0#1) = .error .irqIdle

/-- R100, R103: an operation has one word and a word has at most one operation. That a whole byte with a bit
outside its format's field is rejected is the model's choice (log 16: the spec gives operation words no
byte layout). -/
def Obligations.EncodingIsUnambiguous : Prop :=
  (∀ (o : OpWord) (i : Instr), decode o = .ok i ↔ encode i = o) ∧
  (∀ b : Byte, 16 ≤ b.toNat → decodeByte .ph b = .error .bitOutsideFormat) ∧
  (∀ b : Byte, 2 ≤ b.toNat → decodeByte .irq b = .error .bitOutsideFormat)

/-! ## Signalling -/

/-- R160: NOTIFY writes NF and nothing else, in every state, and an event runs it in every state. -/
def Obligations.NotifySetsTheFlagAlone : Prop :=
  ∀ s : State, exec .notify s = .next { s with nf := true } ∧
    (s.env.sched.head? = some .irq →
      step s = .next { s with nf := true, env := { s.env with sched := s.env.sched.tail } })

/-- R161: any number of events has the effect of one. -/
def Obligations.NotificationsCoalesce : Prop :=
  ∀ (n : Nat) (s : State) (rest : List Move),
    s.env.sched = List.replicate (n + 1) .irq ++ rest →
      Host.Core.run core (n + 1) s = .next { s with nf := true, env := { s.env with sched := rest } }

/-- R163: with NF = 1 WAIT clears it and goes to READ in one step; with NF = 0 it has no step (the model
holds the state, log 2). -/
def Obligations.WaitConsumesTheNotificationOrHolds : Prop :=
  ∀ s : State,
    (s.nf = true → exec .wait s = .next { s with nf := false, ph := 0b0101#4 }) ∧
    (s.nf = false → exec .wait s = .next s)

/-- R164: while no event and no reset comes, the blocked consumer changes no state, for as long as it
waits (that "no step" is a step that holds is the model's choice, log 2; the schedule is log 1). -/
def Obligations.BlockedWaitChangesNothing : Prop :=
  ∀ (k : Nat) (s : State), s.ph = P_WAIT → s.nf = false →
    .irq ∉ s.env.sched.take k → .reset ∉ s.env.sched.take k →
      Host.Core.run core k s = .next { s with env := { s.env with sched := s.env.sched.drop k } }

/-- R83: the order WAIT, then NOTIFY leaves NF = 1: the wake is kept for the next WAIT. -/
def Obligations.SetWinsOverClearInTheSameInstant : Prop :=
  ∀ (s : State) (rest : List Move), s.ph = P_WAIT → s.nf = true →
    s.env.sched = .consumer :: .irq :: rest →
      Host.Core.run core 2 s =
        .next { s with nf := true, ph := P_READ, env := { s.env with sched := rest } }

/-- R31, R80 (c): NF is set by events alone, and once set only a WAIT of the consumer (or reset) clears
it. -/
def Obligations.WakeIsNeverLost : Prop :=
  ∀ s t : State, step s = .next t →
    (s.nf = false → t.nf = true → s.env.nextMove = .irq) ∧
    (s.nf = true → t.nf = false →
      (s.env.nextMove = .consumer ∧ s.ph = P_WAIT ∧ t.ph = P_READ) ∨ s.env.nextMove = .reset)

/-- R31, R274, R287 (b): taken before or after any operation but WAIT, an event has the same effect, and
the operation is neither changed nor stopped by it; NOTIFY saves and changes nothing else. -/
def Obligations.NotifyCommutesWithEveryOtherOperation : Prop :=
  ∀ (i : Instr) (s : State), i ≠ .wait →
    Safety.execSeq [.notify, i] s = Safety.mapNext (fun t => { t with nf := true }) (exec i s) ∧
    ∀ t, exec i s = .next t → i ≠ .notify → t.nf = s.nf

/-! ## Initialisation -/

/-- R141, R280: CFGCHK goes on exactly for a power of two from 2 to MAX_N, changing PH alone; any other
length raises InvalidLength, which writes CAUSE, one event and PH, and nothing else. -/
def Obligations.CfgchkAcceptsExactlyTheLegalLengths : Prop :=
  ∀ s : State,
    ((∃ k, s.cfg.n.toNat = 2 ^ k) ∧ 2 ≤ s.cfg.n.toNat ∧ s.cfg.n.toNat ≤ s.cfg.maxN →
      exec .cfgchk s = .next { s with ph := 0b0001#4 }) ∧
    (¬ ((∃ k, s.cfg.n.toNat = 2 ^ k) ∧ 2 ≤ s.cfg.n.toNat ∧ s.cfg.n.toNat ≤ s.cfg.maxN) →
      exec .cfgchk s =
        .next { s with cause := 1#2, ph := 0b1111#4, out := s.out ++ [.event 5#4 1#32] })

/-- R25: the power-of-two test is true exactly of the numbers with one bit set. -/
def Obligations.PowerOfTwoTestIsExact : Prop :=
  ∀ n : Nat, ispow2 n = true ↔ ∃ k, ∀ b, n.testBit b = decide (b = k)

/-- R24: bit reversal moves bit W-1-b to bit b, stays in range, and is an involution. -/
def Obligations.BitReversalIsAnInvolution : Prop :=
  ∀ w i : Nat, i < 2 ^ w →
    (∀ b, b < w → (brev w i).testBit b = i.testBit (w - 1 - b)) ∧
    brev w i < 2 ^ w ∧ brev w (brev w i) = i

/-- R143: TWINIT writes pair m of TW_NOM to cells 2m and 2m+1, and touches nothing but TW and PH. -/
def Obligations.TwinitWritesTheTable : Prop :=
  ∀ s : State, ∃ t, exec .twinit s = .next t ∧
    (∀ m, m < s.len / 2 →
      t.twAt (2 * m) = (Cfg.twNomAt s.cfg m).1 ∧ t.twAt (2 * m + 1) = (Cfg.twNomAt s.cfg m).2) ∧
    (∀ q, 2 * (s.len / 2) ≤ q → t.tw.find q = s.tw.find q) ∧
    t = { s with tw := t.tw, ph := 0b0010#4 }

/-- R145: GENWIN writes WIN_NOM(i) to cell i, and touches nothing but WIN and PH. -/
def Obligations.GenwinWritesTheWindow : Prop :=
  ∀ s : State, ∃ t, exec .genwin s = .next t ∧
    (∀ i, i < s.len → t.winAt i = Cfg.winNomAt s.cfg i) ∧
    (∀ q, s.len ≤ q → t.win.find q = s.win.find q) ∧
    t = { s with win := t.win, ph := 0b0011#4 }

/-- R147: two runs of GENWIN with the same configuration leave the same window, whatever else the two
states hold. -/
def Obligations.WindowTableIsIdempotent : Prop :=
  ∀ s s' : State, s.cfg = s'.cfg →
    ∃ t t', exec .genwin s = .next t ∧ exec .genwin s' = .next t' ∧
      ∀ i, i < s.len → t.win.find i = t'.win.find i

/-- R148: START sends the request with the four arguments and follows the answer; answer 1 raises
ConfigError (R280); with no answer it has no step (log 2). -/
def Obligations.StartFollowsTheAnswer : Prop :=
  ∀ (s : State) (rest : List (BitVec 1)),
    (s.env.starts = 0#1 :: rest →
      exec .start s = .next { s with
        ph := 0b0100#4
        env := { s.env with starts := rest }
        out := s.out ++ [.stReq s.cfg.ch s.cfg.rate s.cfg.bits s.cfg.atten] }) ∧
    (s.env.starts = 1#1 :: rest →
      exec .start s = .next { s with
        cause := 2#2
        ph := 0b1111#4
        env := { s.env with starts := rest }
        out := s.out ++ [.stReq s.cfg.ch s.cfg.rate s.cfg.bits s.cfg.atten, .event 5#4 2#32] }) ∧
    (s.env.starts = [] → exec .start s = .next s)

/-- R140, R281, R319: from every reset, a legal configuration and the answer 0 reach P_WAIT in four steps
with both tables written; an illegal length ends in P_HALT with CAUSE 1 whatever the channel would
answer, and the answer 1 in P_HALT with CAUSE 2. That an empty schedule moves the consumer is log 1; an
illegal length halts in the first step, and that the other three are steps which hold the halted state
is the model's choice (log 2, log 3: R149 gives HALT no step). -/
def Obligations.InitialisationReachesTheRunLoop : Prop :=
  ∀ (c : Cfg) (e : Env) (out : List PortMsg) (launch : Nat) (r : BitVec 1) (rest : List (BitVec 1)),
    e.sched = [] → e.starts = r :: rest →
    ∃ t, Host.Core.run core 4 (State.launched c e out launch) = .next t ∧
      t.nf = false ∧ t.fill = 0 ∧ t.stat = 0#4 ∧ t.cfg = c ∧
      (c.lengthLegal = false → t.ph = P_HALT ∧ t.cause = 1#2 ∧ t.win = [] ∧ t.tw = [] ∧
        t.out = out ++ [.event 5#4 1#32]) ∧
      (c.lengthLegal = true →
        (∀ i, i < c.len → t.win.find i = some (Cfg.winNomAt c i)) ∧
        (∀ m, m < c.len / 2 → t.tw.find (2 * m) = some (Cfg.twNomAt c m).1 ∧
          t.tw.find (2 * m + 1) = some (Cfg.twNomAt c m).2) ∧
        (r = 0#1 → t.ph = P_WAIT ∧ t.cause = 0#2 ∧
          t.out = out ++ [.stReq c.ch c.rate c.bits c.atten]) ∧
        (r = 1#1 → t.ph = P_HALT ∧ t.cause = 2#2 ∧
          t.out = out ++ [.stReq c.ch c.rate c.bits c.atten, .event 5#4 2#32]))

/-- R103, R149: HALT and RSVD14 change nothing at all (the model's image of "no step", log 2). -/
def Obligations.HaltAndReservedPhasesHaveNoStep : Prop :=
  ∀ s : State, exec .halt s = .next s ∧ exec .rsvd14 s = .next s

/-- R149, R311: without a reset the block stays in P_HALT for ever, and all that can still change is NF,
by an event. R149 gives HALT no step: that the consumer's moves are answered, by steps which hold the
state, is the model's choice (log 2, log 3), and the schedule is log 1. -/
def Obligations.HaltedUntilReset : Prop :=
  ∀ (k : Nat) (s : State), s.ph = P_HALT → .reset ∉ s.env.sched.take k →
    Host.Core.run core k s = .next { s with
      nf := s.nf || decide (Move.irq ∈ s.env.sched.take k)
      env := { s.env with sched := s.env.sched.drop k } }

/-! ## The Frame Assembler -/

/-- R166, R170: an accepted Ok response of `k` sample words. Position FILL + j takes the code of word j
where the tag matches and keeps its value where it does not; FILL advances by k either way; STAT.TM and
one event per mismatch, in sample order; PH goes to WINDOW exactly when FILL = N; nothing else
changes. -/
def Obligations.ReadAppendsMatchingSamples : Prop :=
  ∀ (s : State) (r : RdRsp) (k : Nat), r = s.env.nextRead → r.status = 0b00#2 →
    r.count.toNat ≤ (readMaxLen s).toNat → r.count.toNat = s.layout.wordBytes * k →
    r.bytes.length = r.count.toNat →
    ∃ t, exec .read s = .next t ∧
      t.fill = s.fill + k ∧
      (∀ j, j < k →
        t.frame.find (s.fill + j) =
          if sampleTag s.layout (sampleWord s.layout r.bytes j) = s.cfg.ch
          then some (sampleCode s.layout (sampleWord s.layout r.bytes j))
          else s.frame.find (s.fill + j)) ∧
      (∀ p, p < s.fill ∨ s.fill + k ≤ p → t.frame.find p = s.frame.find p) ∧
      ((∀ j, j < k → sampleTag s.layout (sampleWord s.layout r.bytes j) = s.cfg.ch) →
        t.stat = s.stat) ∧
      ((∃ j, j < k ∧ sampleTag s.layout (sampleWord s.layout r.bytes j) ≠ s.cfg.ch) →
        t.stat = s.stat ||| 0b1000#4) ∧
      t.out = s.out ++ .rdReq (BitVec.ofNat 32 ((s.len - s.fill) * s.layout.wordBytes)) ::
        (List.range k).filterMap (fun j =>
          let tag := sampleTag s.layout (sampleWord s.layout r.bytes j)
          if tag = s.cfg.ch then none
          else some (.event 4#4 (tag ++ BitVec.ofNat 28 (s.fill + j)))) ∧
      t.ph = (if s.fill + k = s.len then 0b0110#4 else 0b0100#4) ∧
      t = { s with
        fill := t.fill, frame := t.frame, stat := t.stat, out := t.out, ph := t.ph
        env := { s.env with reads := s.env.reads.tail } }

/-- R169, R283, R284, R285: an accepted response with a non-Ok status appends nothing, whatever its count
and payload; it sets its own sticky bit, emits its own event, and the consumer goes back to WAIT (to
WINDOW if FILL = N already, which no run reaches). -/
def Obligations.ReadWithANonOkStatusAppendsNothing : Prop :=
  ∀ (s : State) (r : RdRsp), r = s.env.nextRead →
    r.count.toNat ≤ (readMaxLen s).toNat → r.count.toNat % s.layout.wordBytes = 0 →
    r.bytes.length = r.count.toNat →
    ∀ (bit code : BitVec 4),
      (r.status, bit, code) ∈
        [(0b01#2, 0b0001#4, 1#4), (0b10#2, 0b0010#4, 2#4), (0b11#2, 0b0100#4, 3#4)] →
      exec .read s = .next { s with
        stat := s.stat ||| bit
        out := s.out ++ [.rdReq (BitVec.ofNat 32 ((s.len - s.fill) * s.layout.wordBytes)),
          .event code 0#32]
        ph := if s.fill = s.len then 0b0110#4 else 0b0100#4
        env := { s.env with reads := s.env.reads.tail } }

/-- 41 section 3, R167: a response that breaks (a), (b) or (c) of the channel contract is refused; one that
keeps them is accepted whatever its status, count and payload, and then FILL stays within N. The order of
the three tests and the three refusals' names are the model's choice (log 19). -/
def Obligations.ReadRefusesABrokenContract : Prop :=
  ∀ (s : State) (r : RdRsp), r = s.env.nextRead →
    ((readMaxLen s).toNat < r.count.toNat → exec .read s = .refused .readCountAboveMaxLen) ∧
    (r.count.toNat ≤ (readMaxLen s).toNat → r.count.toNat % s.layout.wordBytes ≠ 0 →
      exec .read s = .refused .readCountNotWholeWords) ∧
    (r.count.toNat ≤ (readMaxLen s).toNat → r.count.toNat % s.layout.wordBytes = 0 →
      r.bytes.length ≠ r.count.toNat → exec .read s = .refused .readPayloadLength) ∧
    (r.count.toNat ≤ (readMaxLen s).toNat → r.count.toNat % s.layout.wordBytes = 0 →
      r.bytes.length = r.count.toNat →
      ∃ t, exec .read s = .next t ∧ (s.fill ≤ s.len → t.fill ≤ s.len))

/-- R168: an Ok response of 0 bytes changes neither FILL nor FRAME nor STAT, emits nothing, and goes back
to WAIT. -/
def Obligations.ReadOfAnEmptyDeliveryKeepsProgress : Prop :=
  ∀ (s : State) (rest : List RdRsp), s.env.reads = ⟨0b00#2, 0#32, []⟩ :: rest →
    exec .read s = .next { s with
      out := s.out ++ [.rdReq (BitVec.ofNat 32 ((s.len - s.fill) * s.layout.wordBytes))]
      ph := if s.fill = s.len then 0b0110#4 else 0b0100#4
      env := { s.env with reads := rest } }

/-- R172: however a sample sequence is cut into responses, empty and non-Ok ones among them, if every
response is accepted then one READ of the Ok payloads joined is accepted too and leaves the same FRAME
and FILL. -/
def Obligations.FrameIsDeterminedByTheSampleSequence : Prop :=
  ∀ (s : State) (rs : List RdRsp) (t : State),
    Safety.execSeq (List.replicate rs.length .read) { s with env := { s.env with reads := rs } } =
      .next t →
    ∃ u, exec .read { s with env := { s.env with
        reads := [⟨0b00#2,
          BitVec.ofNat 32 ((rs.filter (fun r => r.status == 0b00#2)).flatMap RdRsp.bytes).length,
          (rs.filter (fun r => r.status == 0b00#2)).flatMap RdRsp.bytes⟩] } } = .next u ∧
      u.frame = t.frame ∧ u.fill = t.fill

/-- R75, R110, R111, R112: sample word j of a response is its bytes in little-endian order, and the code
and the tag are the fields of the layout that CFG_LAYOUT selects; the other bits do not matter. The byte
order and the field positions are the spec's own choice, "no source document says so" (log 23). -/
def Obligations.SampleWordsAreLittleEndianFields : Prop :=
  (∀ (j : Nat) (bytes rest : List Byte) (b0 b1 : Byte), bytes.length = 2 * j →
    sampleWord (layoutOf 0#1) (bytes ++ b0 :: b1 :: rest) j = (b1 ++ b0).setWidth 32) ∧
  (∀ (j : Nat) (bytes rest : List Byte) (b0 b1 b2 b3 : Byte), bytes.length = 4 * j →
    sampleWord (layoutOf 1#1) (bytes ++ b0 :: b1 :: b2 :: b3 :: rest) j = b3 ++ b2 ++ b1 ++ b0) ∧
  (∀ w : Word, sampleCode (layoutOf 0#1) w = w.extractLsb' 0 12 ∧
    sampleTag (layoutOf 0#1) w = w.extractLsb' 12 4) ∧
  (∀ w : Word, sampleCode (layoutOf 1#1) w = w.extractLsb' 0 12 ∧
    sampleTag (layoutOf 1#1) w = w.extractLsb' 13 4)

/-! ## Windowing and transform -/

/-- R190, R192, R193: WINDOW writes every cell of CBUF, the real part the one rounded product of the exact
code and the coefficient, the imaginary part +0.0; FILL is cleared, FRAME is not; nothing else but PH
changes. -/
def Obligations.WindowFormsTheComplexFrame : Prop :=
  ∀ s : State, ∃ t, exec .window s = .next t ∧
    (∀ i, i < s.len →
      (∃ st, t.cbuf.find (2 * i) = some (fmul st (u2f (s.frameAt i).toNat) (s.winAt i))) ∧
      t.cbuf.find (2 * i + 1) = some 0x00000000#32) ∧
    (∀ q, 2 * s.len ≤ q → t.cbuf.find q = s.cbuf.find q) ∧
    t = { s with cbuf := t.cbuf, fill := 0, ph := 0b0111#4, draws := t.draws }

/-- R205: the four cells of a butterfly of two different elements are computed from the four old values;
every other cell keeps its value. The butterfly is "the spec's choice of an 'or equivalent' radix-2
scheme". The sign of a zero for all-zero input under tables other than the nominal ones, which R204 and
93 U29 leave open, is the model's choice (log 30). -/
def Obligations.ButterflyComputesBothElements : Prop :=
  ∀ (d : Nat → Word) (st : Nat → Site) (c sn : Word) (a b : Nat) (m : Memory 32), a ≠ b →
    ∃ (m' : Memory 32) (reT imT : Word), m' = butterfly d st c sn a b m ∧
      (∃ s0 s1 s2, reT = fadd s2 (fmul s0 c (m.get d (2 * b))) (fmul s1 sn (m.get d (2 * b + 1)))) ∧
      (∃ s3 s4 s5, imT = fsub s5 (fmul s3 c (m.get d (2 * b + 1))) (fmul s4 sn (m.get d (2 * b)))) ∧
      (∃ s6, m'.find (2 * b) = some (fsub s6 (m.get d (2 * a)) reT)) ∧
      (∃ s7, m'.find (2 * b + 1) = some (fsub s7 (m.get d (2 * a + 1)) imT)) ∧
      (∃ s8, m'.find (2 * a) = some (fadd s8 (m.get d (2 * a)) reT)) ∧
      (∃ s9, m'.find (2 * a + 1) = some (fadd s9 (m.get d (2 * a + 1)) imT)) ∧
      ∀ q, q / 2 ≠ a → q / 2 ≠ b → m'.find q = m.find q

/-- R204, R205, R206: FFT is its butterfly network. There are cell values `x stage q`, the buffer before
each stage, from the old buffer to the new one, such that in every stage each butterfly's four cells come
from the four cells of the stage before it, with the rotation pair of the bit-reversed group index; so the
order of the butterflies within a stage does not matter. Nothing but CBUF and PH changes. The butterfly
itself is the spec's own choice (R205). The sign of a zero for all-zero input under tables other than the
nominal ones, which R204 and 93 U29 leave open, is the model's choice (log 30). -/
def Obligations.FftIsItsButterflyNetwork : Prop :=
  ∀ (s : State) (k : Nat), s.len = 2 ^ k → 1 ≤ k →
    ∃ t, exec .fft s = .next t ∧
      (∃ x : Nat → Nat → Word,
        (∀ q, q < 2 * s.len → x 0 q = s.cbufAt q ∧ t.cbuf.find q = some (x k q)) ∧
        ∀ stage, stage < k → ∀ j, j < 2 ^ stage → ∀ i, i < s.len / 2 ^ (stage + 1) →
          ∀ h a b m, h = s.len / 2 ^ (stage + 1) → a = j * 2 * h + i → b = a + h →
            m = brev (k - 1) j →
            ∃ (reT imT : Word),
              (∃ s0 s1 s2, reT = fadd s2 (fmul s0 (s.twAt (2 * m)) (x stage (2 * b)))
                (fmul s1 (s.twAt (2 * m + 1)) (x stage (2 * b + 1)))) ∧
              (∃ s3 s4 s5, imT = fsub s5 (fmul s3 (s.twAt (2 * m)) (x stage (2 * b + 1)))
                (fmul s4 (s.twAt (2 * m + 1)) (x stage (2 * b)))) ∧
              (∃ s6, x (stage + 1) (2 * b) = fsub s6 (x stage (2 * a)) reT) ∧
              (∃ s7, x (stage + 1) (2 * b + 1) = fsub s7 (x stage (2 * a + 1)) imT) ∧
              (∃ s8, x (stage + 1) (2 * a) = fadd s8 (x stage (2 * a)) reT) ∧
              (∃ s9, x (stage + 1) (2 * a + 1) = fadd s9 (x stage (2 * a + 1)) imT)) ∧
      (∀ q, 2 * s.len ≤ q → t.cbuf.find q = s.cbuf.find q) ∧
      t = { s with cbuf := t.cbuf, ph := 0b1000#4, draws := t.draws }

/-- R201, 93 U1: on a length that is not a power of two of at least 2 the three engine operations fault
(the model's choice of stop, log 18). -/
def Obligations.EngineFaultsOnAnUndefinedLength : Prop :=
  ∀ s : State, ¬ (∃ k, 1 ≤ k ∧ s.len = 2 ^ k) →
    exec .fft s = .fault .transformLengthInvalid ∧
    exec .bitrev s = .fault .transformLengthInvalid ∧
    exec .unpack s = .fault .transformLengthInvalid

/-- R210: BITREV moves complex element brev(k) to element k, both lanes together, and changes nothing but
CBUF and PH. -/
def Obligations.BitrevPermutesTheElements : Prop :=
  ∀ (s : State) (k : Nat), s.len = 2 ^ k → 1 ≤ k →
    ∃ t, exec .bitrev s = .next t ∧
      (∀ e, e < s.len → t.cbuf.find (2 * e) = some (s.cbufAt (2 * brev k e)) ∧
        t.cbuf.find (2 * e + 1) = some (s.cbufAt (2 * brev k e + 1))) ∧
      (∀ q, 2 * s.len ≤ q → t.cbuf.find q = s.cbuf.find q) ∧
      t = { s with cbuf := t.cbuf, ph := 0b1001#4 }

/-- R24, R210: "because brev is an involution", BITREV twice gives every cell its old value back. -/
def Obligations.BitrevTwiceRestoresTheBuffer : Prop :=
  ∀ (s : State) (k : Nat), s.len = 2 ^ k → 1 ≤ k →
    ∃ t, Safety.execSeq [.bitrev, .bitrev] s = .next t ∧ ∀ q, t.cbufAt q = s.cbufAt q

/-- R216: UNPACK keeps Re Z[0], forces its imaginary part to +0.0, and forms every other bin as the sum of
the bin and the conjugate of its mirror; it states no value for the upper half (R218) and changes
nothing but CBUF and PH. That the sum is not halved is a convention the source does not give: R216 calls
it the spec's choice (PRESUMED, log 24). The sign of a zero for all-zero input under tables other than
the nominal ones, which 93 U29 leaves open, is the model's choice (log 30). -/
def Obligations.UnpackFormsTheOneSidedSpectrum : Prop :=
  ∀ (s : State) (k : Nat), s.len = 2 ^ k → 1 ≤ k →
    ∃ t, exec .unpack s = .next t ∧
      t.cbuf.find 0 = some (s.cbufAt 0) ∧ t.cbuf.find 1 = some 0x00000000#32 ∧
      (∀ e, 1 ≤ e → e ≤ s.len / 2 - 1 →
        (∃ st, t.cbuf.find (2 * e) =
          some (fadd st (s.cbufAt (2 * e)) (s.cbufAt (2 * (s.len - e))))) ∧
        (∃ st, t.cbuf.find (2 * e + 1) =
          some (fsub st (s.cbufAt (2 * e + 1)) (s.cbufAt (2 * (s.len - e) + 1))))) ∧
      (∀ q, 2 * s.len ≤ q → t.cbuf.find q = s.cbuf.find q) ∧
      t = { s with cbuf := t.cbuf, ph := 0b1010#4, draws := t.draws }

/-- R203, R217, 92 D17: for the spectrum of a real signal (each bin the conjugate of its mirror) UNPACK
gives every bin above 0 the gain 2 exactly, and bin 0 the gain 1, where doubling does not overflow. The
gains are a convention the source does not give (PRESUMED, log 24). -/
def Obligations.UnpackDoublesARealBin : Prop :=
  ∀ (s : State) (k e : Nat), s.len = 2 ^ k → 1 ≤ e → e ≤ s.len / 2 - 1 →
    s.cbufAt (2 * (s.len - e)) = s.cbufAt (2 * e) →
    s.cbufAt (2 * (s.len - e) + 1) = negate (s.cbufAt (2 * e + 1)) →
    |toRat (s.cbufAt (2 * e))| < 2 ^ 127 → |toRat (s.cbufAt (2 * e + 1))| < 2 ^ 127 →
    isFinite (s.cbufAt (2 * e)) = true → isFinite (s.cbufAt (2 * e + 1)) = true →
    ∃ t, exec .unpack s = .next t ∧
      toRat (t.cbufAt (2 * e)) = Config.unpackGain * toRat (s.cbufAt (2 * e)) ∧
      toRat (t.cbufAt (2 * e + 1)) = Config.unpackGain * toRat (s.cbufAt (2 * e + 1)) ∧
      toRat (t.cbufAt 0) = Config.unpackGainZero * toRat (s.cbufAt 0)

/-! ## Reduction and the driver -/

/-- R231: MAG writes every SPEC cell: squares, sum, root, division by N, five roundings; nothing but SPEC
and PH changes. -/
def Obligations.MagComputesTheMagnitudes : Prop :=
  ∀ s : State, ∃ t, exec .mag s = .next t ∧
    (∀ i, i < s.len / 2 → ∃ s0 s1 s2 s3 s4, t.spec.find i =
      some (fdiv s4 (fsqrt s3 (fadd s2 (fmul s0 (s.cbufAt (2 * i)) (s.cbufAt (2 * i)))
        (fmul s1 (s.cbufAt (2 * i + 1)) (s.cbufAt (2 * i + 1))))) (u2f s.len))) ∧
    (∀ q, s.len / 2 ≤ q → t.spec.find q = s.spec.find q) ∧
    t = { s with spec := t.spec, ph := 0b1011#4, draws := t.draws }

/-- R231: "the result is never negative and never -0.0": a magnitude that is not a NaN has sign bit 0. -/
def Obligations.MagnitudesAreNeverNegative : Prop :=
  ∀ s : State, ∃ t, exec .mag s = .next t ∧
    ∀ i, i < s.len / 2 → isNaN (t.specAt i) = false → signBit (t.specAt i) = false

/-- R232: MAG reads the first N cells of CBUF only: two states that agree on those, and differ in nothing
else, get the same SPEC. -/
def Obligations.UpperHalfIsNeverRead : Prop :=
  ∀ (s : State) (m : Memory 32), (∀ q, q < s.len → m.find q = s.cbuf.find q) →
    ∃ t t', exec .mag s = .next t ∧ exec .mag { s with cbuf := m } = .next t' ∧ t.spec = t'.spec

/-- R236, R237: SUPPRESS writes +0.0 to the bins below min(K, N/2) whatever the state holds, leaves every
other bin untouched, and changes nothing but SPEC and PH. -/
def Obligations.SuppressZeroesTheLowBins : Prop :=
  ∀ s : State, ∃ t, exec .suppress s = .next t ∧
    (∀ i, i < s.cfg.k.toNat → i < s.len / 2 → t.spec.find i = some 0x00000000#32) ∧
    (∀ q, min s.cfg.k.toNat (s.len / 2) ≤ q → t.spec.find q = s.spec.find q) ∧
    t = { s with spec := t.spec, ph := 0b1100#4 }

/-- R109, R246, R247: when the renderer accepts, RENDER sends one message with the N/2 values of SPEC in
index order and the five display fields, writes no memory, and goes to YIELD; until then it holds, one
answer of the renderer used up (the model's choice, log 2 and log 4). -/
def Obligations.RenderSendsTheSpectrum : Prop :=
  ∀ s : State,
    (s.env.renders = [] ∨ s.env.renders.head? = some .accepts →
      exec .render s = .next { s with
        ph := 0b1101#4
        env := { s.env with renders := s.env.renders.tail }
        out := s.out ++ [.rndr {
          length := BitVec.ofNat 32 (s.len / 2)
          magnitudes := (List.range (s.len / 2)).map s.specAt
          displayWidth := s.cfg.dw
          displayHeight := s.cfg.dh
          minScale := s.cfg.dmin
          maxScale := s.cfg.dmax
          fillGlyph := s.cfg.glyph }] }) ∧
    (s.env.renders.head? = some .busy →
      exec .render s = .next { s with env := { s.env with renders := s.env.renders.tail } })

/-- R248: YIELD pulses the yield port once and goes to WAIT; nothing else changes. -/
def Obligations.YieldPulsesOnce : Prop :=
  ∀ s : State, exec .yield s = .next { s with ph := 0b0100#4, out := s.out ++ [.yieldEvt] }

/-- R251: the successor table, row by row. A consumer step that is answered leaves PH as the table says; the
two rows whose condition is "never (no step)" leave PH as it is. -/
def Obligations.SuccessorTable : Prop :=
  ∀ s t : State, s.env.nextMove = .consumer → step s = .next t →
    (s.ph = P_CFGCHK → t.ph = if s.cfg.lengthLegal = true then P_TWINIT else P_HALT) ∧
    (s.ph = P_TWINIT → t.ph = P_GENWIN) ∧
    (s.ph = P_GENWIN → t.ph = P_START) ∧
    (s.ph = P_START → s.env.starts.head? = some 0#1 → t.ph = P_WAIT) ∧
    (s.ph = P_START → s.env.starts.head? = some 1#1 → t.ph = P_HALT) ∧
    (s.ph = P_WAIT → s.nf = true → t.ph = P_READ) ∧
    (s.ph = P_READ → t.ph = if t.fill = t.len then P_WINDOW else P_WAIT) ∧
    (s.ph = P_WINDOW → t.ph = P_FFT) ∧
    (s.ph = P_FFT → t.ph = P_BITREV) ∧
    (s.ph = P_BITREV → t.ph = P_UNPACK) ∧
    (s.ph = P_UNPACK → t.ph = P_MAG) ∧
    (s.ph = P_MAG → t.ph = P_SUPPRESS) ∧
    (s.ph = P_SUPPRESS → t.ph = P_RENDER) ∧
    (s.ph = P_RENDER → s.env.rendererAccepts = true → t.ph = P_YIELD) ∧
    (s.ph = P_YIELD → t.ph = P_WAIT) ∧
    (s.ph = P_HALT → t.ph = P_HALT) ∧
    (s.ph = P_RSVD14 → t.ph = P_RSVD14)

/-- R246, R248, R254, R255: from a complete frame, while no other agent moves (the empty schedule, log 1) and
when the renderer accepts (R247's premise on the environment; with no answer queued it does, log 4),
eight consumer steps reach the iteration boundary, the eighth being the YIELD step it stands just after,
with exactly one renderer message (N/2 values, zero below min(K, N/2)) and one yield pulse sent, and NF,
STAT, FRAME, WIN, TW and the configuration as they were. -/
def Obligations.IterationReachesItsBoundary : Prop :=
  ∀ s : State, s.ph = P_WINDOW → s.cfg.lengthLegal = true → s.cause = 0#2 →
    s.env.sched = [] → s.env.rendererAccepts = true →
    ∃ u t msg, Host.Core.run core 7 s = .next u ∧ Safety.iterationBoundary u t ∧
      Host.Core.run core 8 s = .next t ∧ Safety.boundaryRegisters t = true ∧
      t.out = s.out ++ [.rndr msg, .yieldEvt] ∧
      msg.length.toNat = s.len / 2 ∧ msg.magnitudes.length = s.len / 2 ∧
      (∀ i, i < s.cfg.k.toNat → i < s.len / 2 → msg.magnitudes[i]? = some 0x00000000#32) ∧
      (∀ i, i < s.len / 2 → msg.magnitudes[i]? = t.spec.find i) ∧
      t = { s with
        ph := P_WAIT, fill := 0, cbuf := t.cbuf, spec := t.spec, out := t.out, draws := t.draws
        env := { s.env with renders := s.env.renders.tail } }

/-- R190, R194, R238: a silent frame and finite tables give +0.0 in every magnitude, after MAG and after
SUPPRESS. WINDOW leaves a zero of the coefficient's sign in every real part and +0.0 in every imaginary
part, so +0.0 in every cell when the window is non-negative; after FFT and UNPACK a cell is a zero, of a
sign that this statement leaves open (93 U29, log 30). -/
def Obligations.SilentFrameGivesAZeroSpectrum : Prop :=
  ∀ (s : State) (k : Nat), s.len = 2 ^ k → 1 ≤ k →
    (∀ i, i < s.len → s.frameAt i = 0#12) → (∀ i, i < s.len → isFinite (s.winAt i) = true) →
    (∀ q, q < s.len → isFinite (s.twAt q) = true) →
    ∃ t1 t2 t3 t4 t5 t6,
      exec .window s = .next t1 ∧ exec .fft t1 = .next t2 ∧ exec .bitrev t2 = .next t3 ∧
      exec .unpack t3 = .next t4 ∧ exec .mag t4 = .next t5 ∧ exec .suppress t5 = .next t6 ∧
      (∀ i, i < s.len → t1.cbufAt (2 * i) = zeroWord (signBit (s.winAt i)) ∧
        t1.cbufAt (2 * i + 1) = 0x00000000#32) ∧
      ((∀ i, i < s.len → signBit (s.winAt i) = false) →
        ∀ q, q < 2 * s.len → t1.cbufAt q = 0x00000000#32) ∧
      (∀ q, q < 2 * s.len → isZero (t1.cbufAt q) = true ∧ isZero (t2.cbufAt q) = true) ∧
      (∀ q, q < s.len → isZero (t4.cbufAt q) = true) ∧
      ∀ i, i < s.len / 2 → t5.specAt i = 0x00000000#32 ∧ t6.specAt i = 0x00000000#32

/-- R22, R23: for MAX_N below 2^24 (R231; R22 itself reaches to 2^30) and a legal length, under the table
premise no operation of an iteration produces an infinity or a NaN, whatever the frame holds. -/
def Obligations.FiniteTablesGiveFiniteResults : Prop :=
  ∀ s : State, s.cfg.lengthLegal = true → s.cfg.maxNWf = true →
    (∀ i, i < s.len → unitWord (s.winAt i) = true) →
    (∀ q, q < s.len → absUnitWord (s.twAt q) = true) →
    ∃ t1 t2 t3 t4 t5,
      exec .window s = .next t1 ∧ exec .fft t1 = .next t2 ∧ exec .bitrev t2 = .next t3 ∧
      exec .unpack t3 = .next t4 ∧ exec .mag t4 = .next t5 ∧
      (∀ q, q < 2 * s.len → isFinite (t1.cbufAt q) = true ∧ isFinite (t2.cbufAt q) = true ∧
        isFinite (t3.cbufAt q) = true) ∧
      (∀ q, q < s.len → isFinite (t4.cbufAt q) = true) ∧
      ∀ i, i < s.len / 2 → isFinite (t5.specAt i) = true

/-! ## Whole-machine rules -/

/-- R61, R73: each memory space is written by its own operations alone, whatever operation runs. -/
def Obligations.OperationsReachOnlyTheirSpaces : Prop :=
  ∀ (i : Instr) (s t : State), exec i s = .next t →
    (i ≠ .twinit → t.tw = s.tw) ∧ (i ≠ .genwin → t.win = s.win) ∧ (i ≠ .read → t.frame = s.frame) ∧
    (i ∉ [.window, .fft, .bitrev, .unpack] → t.cbuf = s.cbuf) ∧
    (i ∉ [.mag, .suppress] → t.spec = s.spec) ∧
    (i ∉ [.read, .window] → t.fill = s.fill)

/-- R36: STAT is written by READ alone and no operation clears a bit of it; reset clears it. -/
def Obligations.StatusBitsAreSticky : Prop :=
  ∀ s t : State, step s = .next t →
    (s.env.nextMove ≠ .reset → t.stat &&& s.stat = s.stat) ∧
    (t.stat ≠ s.stat → (s.env.nextMove = .consumer ∧ s.ph = P_READ) ∨
      (s.env.nextMove = .reset ∧ t.stat = 0#4))

/-- R36: "nothing inside the block reads STAT: it changes no behaviour": with another STAT every operation
ends the same way, in a state that differs at most in STAT. -/
def Obligations.StatusIsReadByNoOperation : Prop :=
  ∀ (i : Instr) (s : State) (v : BitVec 4),
    Safety.mapNext (fun t => { t with stat := 0#4 }) (exec i { s with stat := v }) =
      Safety.mapNext (fun t => { t with stat := 0#4 }) (exec i s)

/-- R37: CAUSE is written by CFGCHK and START alone, together with PH <- P_HALT and EV_FATAL, with the
value 1 or 2 (3 is never written). -/
def Obligations.CauseIsWrittenByInitialisationAlone : Prop :=
  ∀ (i : Instr) (s t : State), exec i s = .next t → t.cause ≠ s.cause →
    t.ph = P_HALT ∧
    ((i = .cfgchk ∧ t.cause = 1#2 ∧ t.out = s.out ++ [.event 5#4 1#32]) ∨
      (i = .start ∧ t.cause = 2#2 ∧ t.out.getLast? = some (.event 5#4 2#32)))

/-- R39, R147, R331: no step changes a configuration register or a table argument, nor does any operation
write WIN or TW once the run loop is reached. -/
def Obligations.ConfigurationNeverChanges : Prop :=
  ∀ s t : State, step s = .next t →
    t.cfg = s.cfg ∧
    (s.env.nextMove ≠ .reset → s.ph ≠ P_TWINIT → t.tw = s.tw) ∧
    (s.env.nextMove ≠ .reset → s.ph ≠ P_GENWIN → t.win = s.win)

/-- The invariant (Safety.Inv) holds right after every reset, for every configuration and environment. -/
def Obligations.InvHoldsAfterEveryReset : Prop :=
  ∀ (c : Cfg) (e : Env) (out : List PortMsg) (launch : Nat),
    Safety.Inv (State.launched c e out launch)

/-- R32, R70, R87, R175, R237, R250, R280, R320: every step keeps the invariant (Safety.Inv): memories
stay canonical and within their spaces, FILL within N and full exactly when WINDOW runs, PH and CAUSE
legal, P_HALT exactly with a cause, and no table or buffer is read before every cell of it is
written. -/
def Obligations.StepKeepsTheInvariant : Prop :=
  ∀ s t : State, Safety.Inv s → step s = .next t → Safety.Inv t

/-- R253, R271: in every state that meets the invariant each move is answered, but for a READ whose
response breaks the channel contract: no fault is reachable. In a blocked, awaiting or halted phase the
spec gives the consumer no step; that its move is then answered by a step which holds the state is the
model's choice (log 2). -/
def Obligations.OnlyABrokenContractStopsAReachableState : Prop :=
  ∀ s : State, Safety.Inv s →
    (∃ t, step s = .next t) ∨
      (s.env.nextMove = .consumer ∧ s.ph = P_READ ∧
        ∃ r, readContract s.layout (readMaxLen s) s.env.nextRead = some r ∧ step s = .refused r)

/-- R38, R50, R52: the CSR numbers name the configuration registers, the reserved numbers that read zero
and ignore writes, and the five views. The model's choices: that a write to a configuration register of
a running block is refused and that a write to a view or to a number above 20 is ignored (log 25; R331
and 93 U33 only put such a write outside the spec), and that a narrower register reads zero-extended to
32 bits (log 29). -/
def Obligations.CsrViewsShowTheRegisters : Prop :=
  ∀ (s : State) (v : Word),
    (List.range 21).map s.csrRead =
      [some s.cfg.n, some s.cfg.rate, some (s.cfg.ch.setWidth 32), some s.cfg.atten,
        some s.cfg.bits, some s.cfg.k, some s.cfg.dw, some s.cfg.dh, some s.cfg.dmin,
        some s.cfg.dmax, some (s.cfg.layout.setWidth 32), some (s.cfg.glyph.setWidth 32),
        some 0#32, some 0#32, some 0#32, some 0#32,
        some (s.stat.setWidth 32), some (s.cause.setWidth 32), some (BitVec.ofNat 32 s.fill),
        some (s.ph.setWidth 32), some (if s.nf = true then 1#32 else 0#32)] ∧
    (∀ n, 12 ≤ n → s.csrWrite n v = .next s) ∧
    (∀ n, n < 12 → s.csrWrite n v = .refused .configWriteAfterReset)

/-! ## Numerics -/

/-- R21: fadd and fsub return the exact sum or difference of finite operands, rounded once. -/
def Obligations.SumsAreRoundedOnce : Prop :=
  ∀ (st : Site) (a b : Word), isFinite a = true → isFinite b = true →
    RoundedOnce (((toRat a + toRat b : ℚ)) : ℝ) (fadd st a b) ∧
    RoundedOnce (((toRat a - toRat b : ℚ)) : ℝ) (fsub st a b)

/-- R21: fmul returns the exact product of finite operands, rounded once. -/
def Obligations.ProductsAreRoundedOnce : Prop :=
  ∀ (st : Site) (a b : Word), isFinite a = true → isFinite b = true →
    RoundedOnce (((toRat a * toRat b : ℚ)) : ℝ) (fmul st a b)

/-- R21: fdiv returns the exact quotient of finite operands, the divisor not zero, rounded once. -/
def Obligations.QuotientsAreRoundedOnce : Prop :=
  ∀ (st : Site) (a b : Word), isFinite a = true → isFinite b = true → isZero b = false →
    RoundedOnce (((toRat a / toRat b : ℚ)) : ℝ) (fdiv st a b)

/-- R21: fsqrt returns the exact square root of a finite operand that is not negative, rounded once. -/
def Obligations.SquareRootsAreRoundedOnce : Prop :=
  ∀ (st : Site) (a : Word), isFinite a = true → 0 ≤ toRat a →
    RoundedOnce (Real.sqrt ((toRat a : ℚ) : ℝ)) (fsqrt st a)

/-- R21: u2f converts every integer below 2^24 exactly. -/
def Obligations.SmallIntegersConvertExactly : Prop :=
  ∀ n : Nat, n < 2 ^ 24 → isFinite (u2f n) = true ∧ signBit (u2f n) = false ∧ toRat (u2f n) = n

/-- R21, R23: IEEE 754's default results where the exact result is zero, an operand is not finite, or there
is no real result. A zero sum is -0 only of two negative addends; a product or quotient that is a number
has the exclusive or of the signs, zero or not (R190: a zero code times a negative coefficient is -0);
an infinity is carried through; a result is a NaN, of whatever sign and payload, exactly for a NaN
operand, for inf - inf, 0 * inf, inf / inf and 0 / 0, and for the root of a negative number. -/
def Obligations.ZeroSignsAndNaNsFollowTheDefaults : Prop :=
  (∀ (st : Site) (x : Word), isFinite x = true → fsub st x x = 0x00000000#32) ∧
  (∀ st : Site, fadd st 0x00000000#32 0x80000000#32 = 0x00000000#32 ∧
    fadd st 0x80000000#32 0x00000000#32 = 0x00000000#32 ∧
    fsqrt st 0x80000000#32 = 0x80000000#32 ∧ fsqrt st 0x00000000#32 = 0x00000000#32) ∧
  (∀ (st : Site) (a b : Word), isNaN a = true ∨ isNaN b = true →
    isNaN (fadd st a b) = true ∧ isNaN (fsub st a b) = true ∧ isNaN (fmul st a b) = true ∧
    isNaN (fdiv st a b) = true) ∧
  (∀ (st : Site) (a : Word), isNaN a = true → isNaN (fsqrt st a) = true) ∧
  (∀ (st : Site) (a b : Word), isFinite a = true → isFinite b = true →
    (toRat a + toRat b = 0 → fadd st a b = zeroWord (signBit a && signBit b)) ∧
    (toRat a = toRat b → fsub st a b = zeroWord (signBit a && !signBit b))) ∧
  (∀ (st : Site) (a b : Word),
    (isNaN (fmul st a b) = false → signBit (fmul st a b) = xor (signBit a) (signBit b)) ∧
    (isNaN (fdiv st a b) = false → signBit (fdiv st a b) = xor (signBit a) (signBit b))) ∧
  (∀ (st : Site) (a b : Word),
    (isInf a = true → isFinite b = true →
      fadd st a b = a ∧ fadd st b a = a ∧ fsub st a b = a ∧ fsub st b a = infWord (!signBit a)) ∧
    (isInf a = true → isInf b = true →
      (signBit a = signBit b → fadd st a b = a) ∧ (signBit a ≠ signBit b → fsub st a b = a)) ∧
    (isInf a = true → isNaN b = false → isZero b = false →
      fmul st a b = infWord (xor (signBit a) (signBit b)) ∧
      fmul st b a = infWord (xor (signBit a) (signBit b))) ∧
    (isInf a = true → isFinite b = true →
      fdiv st a b = infWord (xor (signBit a) (signBit b)) ∧
      fdiv st b a = zeroWord (xor (signBit a) (signBit b))) ∧
    (isFinite a = true → isZero a = false → isZero b = true →
      fdiv st a b = infWord (xor (signBit a) (signBit b)))) ∧
  (∀ st : Site, fsqrt st (infWord false) = infWord false) ∧
  (∀ (st : Site) (a b : Word), isNaN a = false → isNaN b = false →
    (isNaN (fadd st a b) = true ↔ isInf a = true ∧ isInf b = true ∧ signBit a ≠ signBit b) ∧
    (isNaN (fsub st a b) = true ↔ isInf a = true ∧ isInf b = true ∧ signBit a = signBit b) ∧
    (isNaN (fmul st a b) = true ↔
      (isInf a = true ∧ isZero b = true) ∨ (isZero a = true ∧ isInf b = true)) ∧
    (isNaN (fdiv st a b) = true ↔
      (isInf a = true ∧ isInf b = true) ∨ (isZero a = true ∧ isZero b = true)) ∧
    (isNaN (fsqrt st a) = true ↔ signBit a = true ∧ isZero a = false))
end

