-- ==== Sys2Proof/Laws/Memory.lean ====
section
/-! SUPPORT. The laws of a memory space: read after write, the canonical form kept by every write, and what
a counted loop of writes leaves. -/

namespace Sys2Proof.Machine

variable {w : Nat}

/-! ## One write -/

@[simp] theorem Memory.find_nil (i : Nat) : Memory.find ([] : Memory w) i = none := rfl

theorem Memory.find_write (m : Memory w) (i j : Nat) (v : BitVec w) :
    (m.write i v).find j = if j = i then some v else m.find j := by
  induction m with
  | nil =>
    by_cases h : j = i <;> simp [Memory.write, Memory.find, h]
  | cons p m ih =>
    obtain ⟨a, x⟩ := p
    simp only [Memory.write]
    by_cases hia : i < a
    · simp only [hia, if_true, Memory.find]
      by_cases hji : j = i
      · simp [hji]
      · by_cases hlt : j < i
        · have h1 : ¬ j = a := by omega
          have h2 : j < a := by omega
          simp [hji, h1, h2]
        · simp [hji, hlt]
    · by_cases hia' : i = a
      · subst hia'
        by_cases hji : j = i <;> simp [Memory.find, hji]
      · simp only [hia, hia', if_false, Memory.find, ih]
        by_cases hja : j = a
        · have : ¬ j = i := by omega
          simp [hja, Ne.symm hia']
        · by_cases hlt : j < a
          · have : ¬ j = i := by omega
            simp [hja, hlt, this]
          · simp [hja, hlt]

@[simp] theorem Memory.find_write_same (m : Memory w) (i : Nat) (v : BitVec w) :
    (m.write i v).find i = some v := by simp [Memory.find_write]

theorem Memory.find_write_other (m : Memory w) {i j : Nat} (v : BitVec w) (h : j ≠ i) :
    (m.write i v).find j = m.find j := by simp [Memory.find_write, h]

theorem Memory.get_write (m : Memory w) (d : Nat → BitVec w) (i j : Nat) (v : BitVec w) :
    (m.write i v).get d j = if j = i then v else m.get d j := by
  unfold Memory.get
  rw [Memory.find_write]
  split <;> rfl

theorem Memory.wfFrom_write (m : Memory w) {lo i : Nat} (v : BitVec w) (h : lo ≤ i)
    (hm : Memory.wfFrom lo m = true) : Memory.wfFrom lo (m.write i v) = true := by
  induction m generalizing lo with
  | nil => simp [Memory.write, Memory.wfFrom, h]
  | cons p m ih =>
    obtain ⟨a, x⟩ := p
    simp only [Memory.wfFrom, Bool.and_eq_true, decide_eq_true_eq] at hm
    simp only [Memory.write]
    split
    · simp only [Memory.wfFrom, Bool.and_eq_true, decide_eq_true_eq]
      exact ⟨h, by omega, hm.2⟩
    · split
      · simp only [Memory.wfFrom, Bool.and_eq_true, decide_eq_true_eq]
        subst i
        exact hm
      · simp only [Memory.wfFrom, Bool.and_eq_true, decide_eq_true_eq]
        exact ⟨hm.1, ih (by omega) hm.2⟩

/-- Every write keeps the canonical form. -/
theorem Memory.wf_write (m : Memory w) (i : Nat) (v : BitVec w) (hm : m.wf = true) :
    (m.write i v).wf = true := Memory.wfFrom_write m v (Nat.zero_le i) hm

@[simp] theorem Memory.wf_nil : Memory.wf ([] : Memory w) = true := rfl

theorem Memory.within_nil (n : Nat) : Memory.within ([] : Memory w) n := by
  intro i x h
  simp at h

theorem Memory.within_write {m : Memory w} {n i : Nat} (v : BitVec w) (hi : i < n)
    (hm : m.within n) : (m.write i v).within n := by
  intro j x h
  rw [Memory.find_write] at h
  split at h
  · omega
  · exact hm j x h

theorem Memory.full_write {m : Memory w} {n i : Nat} (v : BitVec w)
    (hm : m.full n) : (m.write i v).full n := by
  intro j hj
  rw [Memory.find_write]
  split
  · exact ⟨v, rfl⟩
  · exact hm j hj

/-- A read of a written cell gives the written value. -/
theorem Memory.get_of_find {m : Memory w} {d : Nat → BitVec w} {i : Nat} {x : BitVec w}
    (h : m.find i = some x) : m.get d i = x := by simp [Memory.get, h]

/-- Reads agree where the listed values agree. -/
theorem Memory.get_congr {m m' : Memory w} {d : Nat → BitVec w} {i : Nat}
    (h : m.find i = m'.find i) : m.get d i = m'.get d i := by simp [Memory.get, h]

/-! ## Counted loops -/

/-- The induction principle of `forUp`: a property of the loop index and the value. -/
theorem forUp_induct {σ : Type} (P : Nat → σ → Prop) {n : Nat} {body : Nat → σ → σ} {x : σ}
    (h0 : P 0 x) (hs : ∀ i y, i < n → P i y → P (i + 1) (body i y)) : P n (forUp n body x) := by
  induction n with
  | zero => exact h0
  | succ n ih => exact hs n _ (by omega) (ih fun i y hi => hs i y (by omega))

/-- A property that every pass keeps holds after the loop. -/
theorem forUp_keeps {σ : Type} (P : σ → Prop) {n : Nat} {body : Nat → σ → σ} {x : σ}
    (h0 : P x) (hs : ∀ i y, i < n → P y → P (body i y)) : P (forUp n body x) :=
  forUp_induct (fun _ y => P y) h0 hs

/-- A loop that writes cell `b + i` in pass `i`. -/
theorem find_forUp_write (b : Nat) (f : Nat → BitVec w) (m : Memory w) (n j : Nat) :
    (forUp n (fun i m => Memory.write m (b + i) (f i)) m).find j =
      if b ≤ j ∧ j < b + n then some (f (j - b)) else m.find j := by
  induction n with
  | zero =>
    have : ¬ (b ≤ j ∧ j < b + 0) := by omega
    rw [if_neg this]
    rfl
  | succ n ih =>
    simp only [forUp, Memory.find_write, ih]
    by_cases h : j = b + n
    · subst h
      simp
    · have h1 : (b ≤ j ∧ j < b + (n + 1)) ↔ (b ≤ j ∧ j < b + n) := by omega
      simp only [h, if_false, h1]

/-- A loop that writes cell `i` in pass `i`. -/
theorem find_forUp_write_zero (f : Nat → BitVec w) (m : Memory w) (n j : Nat) :
    (forUp n (fun i m => Memory.write m i (f i)) m).find j =
      if j < n then some (f j) else m.find j := by
  have := find_forUp_write 0 f m n j
  simpa using this

/-- A loop that writes the pair of cells `2 * (i + b)` and `2 * (i + b) + 1` in pass `i`. -/
theorem find_forUp_pair (b : Nat) (f g : Nat → BitVec w) (m : Memory w) (n j : Nat) :
    (forUp n (fun i m => (Memory.write m (2 * (i + b)) (f i)).write (2 * (i + b) + 1) (g i)) m).find j =
      if 2 * b ≤ j ∧ j < 2 * (n + b) then
        some (if j % 2 = 0 then f (j / 2 - b) else g (j / 2 - b))
      else m.find j := by
  induction n with
  | zero =>
    have : ¬ (2 * b ≤ j ∧ j < 2 * (0 + b)) := by omega
    rw [if_neg this]
    rfl
  | succ n ih =>
    simp only [forUp, Memory.find_write, ih]
    by_cases h1 : j = 2 * (n + b) + 1
    · have h2 : 2 * b ≤ j ∧ j < 2 * (n + 1 + b) := by omega
      have h3 : ¬ j % 2 = 0 := by omega
      have h4 : j / 2 - b = n := by omega
      rw [if_pos h1, if_pos h2, if_neg h3, h4]
    · by_cases h0 : j = 2 * (n + b)
      · have h2 : 2 * b ≤ j ∧ j < 2 * (n + 1 + b) := by omega
        have h3 : j % 2 = 0 := by omega
        have h4 : j / 2 - b = n := by omega
        rw [if_neg h1, if_pos h0, if_pos h2, if_pos h3, h4]
      · have h2 : (2 * b ≤ j ∧ j < 2 * (n + 1 + b)) ↔ (2 * b ≤ j ∧ j < 2 * (n + b)) := by omega
        simp only [h1, h0, if_false, h2]

/-- A loop that writes the pair of cells `2 * i` and `2 * i + 1` in pass `i`. -/
theorem find_forUp_pair_zero (f g : Nat → BitVec w) (m : Memory w) (n j : Nat) :
    (forUp n (fun i m => (Memory.write m (2 * i) (f i)).write (2 * i + 1) (g i)) m).find j =
      if j < 2 * n then some (if j % 2 = 0 then f (j / 2) else g (j / 2)) else m.find j := by
  have := find_forUp_pair 0 f g m n j
  simpa using this

end Sys2Proof.Machine
end

