-- ==== Sys2Proof/Laws/State.lean ====
section
/-! SUPPORT. One lemma per field per update of State, true by rfl and tagged simp, so that no later proof
unfolds a record update; and the fields after a fatal condition and after reset. -/

namespace Sys2Proof.Machine

/-! ## Phase codes as literals, so that simp decides them -/

@[simp] theorem P_CFGCHK_eq : P_CFGCHK = 0x0#4 := rfl
@[simp] theorem P_TWINIT_eq : P_TWINIT = 0x1#4 := rfl
@[simp] theorem P_GENWIN_eq : P_GENWIN = 0x2#4 := rfl
@[simp] theorem P_START_eq : P_START = 0x3#4 := rfl
@[simp] theorem P_WAIT_eq : P_WAIT = 0x4#4 := rfl
@[simp] theorem P_READ_eq : P_READ = 0x5#4 := rfl
@[simp] theorem P_WINDOW_eq : P_WINDOW = 0x6#4 := rfl
@[simp] theorem P_FFT_eq : P_FFT = 0x7#4 := rfl
@[simp] theorem P_BITREV_eq : P_BITREV = 0x8#4 := rfl
@[simp] theorem P_UNPACK_eq : P_UNPACK = 0x9#4 := rfl
@[simp] theorem P_MAG_eq : P_MAG = 0xA#4 := rfl
@[simp] theorem P_SUPPRESS_eq : P_SUPPRESS = 0xB#4 := rfl
@[simp] theorem P_RENDER_eq : P_RENDER = 0xC#4 := rfl
@[simp] theorem P_YIELD_eq : P_YIELD = 0xD#4 := rfl
@[simp] theorem P_RSVD14_eq : P_RSVD14 = 0xE#4 := rfl
@[simp] theorem P_HALT_eq : P_HALT = 0xF#4 := rfl

variable (s : State)

@[simp] theorem State.setNf_nf (v : Bool) : (s.setNf v).nf = v := rfl
@[simp] theorem State.setNf_fill (v : Bool) : (s.setNf v).fill = s.fill := rfl
@[simp] theorem State.setNf_ph (v : Bool) : (s.setNf v).ph = s.ph := rfl
@[simp] theorem State.setNf_stat (v : Bool) : (s.setNf v).stat = s.stat := rfl
@[simp] theorem State.setNf_cause (v : Bool) : (s.setNf v).cause = s.cause := rfl
@[simp] theorem State.setNf_cfg (v : Bool) : (s.setNf v).cfg = s.cfg := rfl
@[simp] theorem State.setNf_frame (v : Bool) : (s.setNf v).frame = s.frame := rfl
@[simp] theorem State.setNf_win (v : Bool) : (s.setNf v).win = s.win := rfl
@[simp] theorem State.setNf_tw (v : Bool) : (s.setNf v).tw = s.tw := rfl
@[simp] theorem State.setNf_cbuf (v : Bool) : (s.setNf v).cbuf = s.cbuf := rfl
@[simp] theorem State.setNf_spec (v : Bool) : (s.setNf v).spec = s.spec := rfl
@[simp] theorem State.setNf_env (v : Bool) : (s.setNf v).env = s.env := rfl
@[simp] theorem State.setNf_out (v : Bool) : (s.setNf v).out = s.out := rfl
@[simp] theorem State.setNf_draws (v : Bool) : (s.setNf v).draws = s.draws := rfl
@[simp] theorem State.setNf_launch (v : Bool) : (s.setNf v).launch = s.launch := rfl
@[simp] theorem State.setNf_frameAt (v : Bool) (i : Nat) : (s.setNf v).frameAt i = s.frameAt i := rfl
@[simp] theorem State.setNf_winAt (v : Bool) (i : Nat) : (s.setNf v).winAt i = s.winAt i := rfl
@[simp] theorem State.setNf_twAt (v : Bool) (i : Nat) : (s.setNf v).twAt i = s.twAt i := rfl
@[simp] theorem State.setNf_cbufAt (v : Bool) (i : Nat) : (s.setNf v).cbufAt i = s.cbufAt i := rfl
@[simp] theorem State.setNf_specAt (v : Bool) (i : Nat) : (s.setNf v).specAt i = s.specAt i := rfl
@[simp] theorem State.setNf_layout (v : Bool) : (s.setNf v).layout = s.layout := rfl
@[simp] theorem State.setNf_len (v : Bool) : (s.setNf v).len = s.len := rfl
@[simp] theorem State.setNf_logn (v : Bool) : (s.setNf v).logn = s.logn := rfl

@[simp] theorem State.setFill_nf (v : Nat) : (s.setFill v).nf = s.nf := rfl
@[simp] theorem State.setFill_fill (v : Nat) : (s.setFill v).fill = v := rfl
@[simp] theorem State.setFill_ph (v : Nat) : (s.setFill v).ph = s.ph := rfl
@[simp] theorem State.setFill_stat (v : Nat) : (s.setFill v).stat = s.stat := rfl
@[simp] theorem State.setFill_cause (v : Nat) : (s.setFill v).cause = s.cause := rfl
@[simp] theorem State.setFill_cfg (v : Nat) : (s.setFill v).cfg = s.cfg := rfl
@[simp] theorem State.setFill_frame (v : Nat) : (s.setFill v).frame = s.frame := rfl
@[simp] theorem State.setFill_win (v : Nat) : (s.setFill v).win = s.win := rfl
@[simp] theorem State.setFill_tw (v : Nat) : (s.setFill v).tw = s.tw := rfl
@[simp] theorem State.setFill_cbuf (v : Nat) : (s.setFill v).cbuf = s.cbuf := rfl
@[simp] theorem State.setFill_spec (v : Nat) : (s.setFill v).spec = s.spec := rfl
@[simp] theorem State.setFill_env (v : Nat) : (s.setFill v).env = s.env := rfl
@[simp] theorem State.setFill_out (v : Nat) : (s.setFill v).out = s.out := rfl
@[simp] theorem State.setFill_draws (v : Nat) : (s.setFill v).draws = s.draws := rfl
@[simp] theorem State.setFill_launch (v : Nat) : (s.setFill v).launch = s.launch := rfl
@[simp] theorem State.setFill_frameAt (v : Nat) (i : Nat) : (s.setFill v).frameAt i = s.frameAt i := rfl
@[simp] theorem State.setFill_winAt (v : Nat) (i : Nat) : (s.setFill v).winAt i = s.winAt i := rfl
@[simp] theorem State.setFill_twAt (v : Nat) (i : Nat) : (s.setFill v).twAt i = s.twAt i := rfl
@[simp] theorem State.setFill_cbufAt (v : Nat) (i : Nat) : (s.setFill v).cbufAt i = s.cbufAt i := rfl
@[simp] theorem State.setFill_specAt (v : Nat) (i : Nat) : (s.setFill v).specAt i = s.specAt i := rfl
@[simp] theorem State.setFill_layout (v : Nat) : (s.setFill v).layout = s.layout := rfl
@[simp] theorem State.setFill_len (v : Nat) : (s.setFill v).len = s.len := rfl
@[simp] theorem State.setFill_logn (v : Nat) : (s.setFill v).logn = s.logn := rfl

@[simp] theorem State.setPh_nf (v : Phase) : (s.setPh v).nf = s.nf := rfl
@[simp] theorem State.setPh_fill (v : Phase) : (s.setPh v).fill = s.fill := rfl
@[simp] theorem State.setPh_ph (v : Phase) : (s.setPh v).ph = v := rfl
@[simp] theorem State.setPh_stat (v : Phase) : (s.setPh v).stat = s.stat := rfl
@[simp] theorem State.setPh_cause (v : Phase) : (s.setPh v).cause = s.cause := rfl
@[simp] theorem State.setPh_cfg (v : Phase) : (s.setPh v).cfg = s.cfg := rfl
@[simp] theorem State.setPh_frame (v : Phase) : (s.setPh v).frame = s.frame := rfl
@[simp] theorem State.setPh_win (v : Phase) : (s.setPh v).win = s.win := rfl
@[simp] theorem State.setPh_tw (v : Phase) : (s.setPh v).tw = s.tw := rfl
@[simp] theorem State.setPh_cbuf (v : Phase) : (s.setPh v).cbuf = s.cbuf := rfl
@[simp] theorem State.setPh_spec (v : Phase) : (s.setPh v).spec = s.spec := rfl
@[simp] theorem State.setPh_env (v : Phase) : (s.setPh v).env = s.env := rfl
@[simp] theorem State.setPh_out (v : Phase) : (s.setPh v).out = s.out := rfl
@[simp] theorem State.setPh_draws (v : Phase) : (s.setPh v).draws = s.draws := rfl
@[simp] theorem State.setPh_launch (v : Phase) : (s.setPh v).launch = s.launch := rfl
@[simp] theorem State.setPh_frameAt (v : Phase) (i : Nat) : (s.setPh v).frameAt i = s.frameAt i := rfl
@[simp] theorem State.setPh_winAt (v : Phase) (i : Nat) : (s.setPh v).winAt i = s.winAt i := rfl
@[simp] theorem State.setPh_twAt (v : Phase) (i : Nat) : (s.setPh v).twAt i = s.twAt i := rfl
@[simp] theorem State.setPh_cbufAt (v : Phase) (i : Nat) : (s.setPh v).cbufAt i = s.cbufAt i := rfl
@[simp] theorem State.setPh_specAt (v : Phase) (i : Nat) : (s.setPh v).specAt i = s.specAt i := rfl
@[simp] theorem State.setPh_layout (v : Phase) : (s.setPh v).layout = s.layout := rfl
@[simp] theorem State.setPh_len (v : Phase) : (s.setPh v).len = s.len := rfl
@[simp] theorem State.setPh_logn (v : Phase) : (s.setPh v).logn = s.logn := rfl

@[simp] theorem State.setStatBit_nf (v : BitVec 4) : (s.setStatBit v).nf = s.nf := rfl
@[simp] theorem State.setStatBit_fill (v : BitVec 4) : (s.setStatBit v).fill = s.fill := rfl
@[simp] theorem State.setStatBit_ph (v : BitVec 4) : (s.setStatBit v).ph = s.ph := rfl
@[simp] theorem State.setStatBit_stat (v : BitVec 4) : (s.setStatBit v).stat = setSticky s.stat v := rfl
@[simp] theorem State.setStatBit_cause (v : BitVec 4) : (s.setStatBit v).cause = s.cause := rfl
@[simp] theorem State.setStatBit_cfg (v : BitVec 4) : (s.setStatBit v).cfg = s.cfg := rfl
@[simp] theorem State.setStatBit_frame (v : BitVec 4) : (s.setStatBit v).frame = s.frame := rfl
@[simp] theorem State.setStatBit_win (v : BitVec 4) : (s.setStatBit v).win = s.win := rfl
@[simp] theorem State.setStatBit_tw (v : BitVec 4) : (s.setStatBit v).tw = s.tw := rfl
@[simp] theorem State.setStatBit_cbuf (v : BitVec 4) : (s.setStatBit v).cbuf = s.cbuf := rfl
@[simp] theorem State.setStatBit_spec (v : BitVec 4) : (s.setStatBit v).spec = s.spec := rfl
@[simp] theorem State.setStatBit_env (v : BitVec 4) : (s.setStatBit v).env = s.env := rfl
@[simp] theorem State.setStatBit_out (v : BitVec 4) : (s.setStatBit v).out = s.out := rfl
@[simp] theorem State.setStatBit_draws (v : BitVec 4) : (s.setStatBit v).draws = s.draws := rfl
@[simp] theorem State.setStatBit_launch (v : BitVec 4) : (s.setStatBit v).launch = s.launch := rfl
@[simp] theorem State.setStatBit_frameAt (v : BitVec 4) (i : Nat) : (s.setStatBit v).frameAt i = s.frameAt i := rfl
@[simp] theorem State.setStatBit_winAt (v : BitVec 4) (i : Nat) : (s.setStatBit v).winAt i = s.winAt i := rfl
@[simp] theorem State.setStatBit_twAt (v : BitVec 4) (i : Nat) : (s.setStatBit v).twAt i = s.twAt i := rfl
@[simp] theorem State.setStatBit_cbufAt (v : BitVec 4) (i : Nat) : (s.setStatBit v).cbufAt i = s.cbufAt i := rfl
@[simp] theorem State.setStatBit_specAt (v : BitVec 4) (i : Nat) : (s.setStatBit v).specAt i = s.specAt i := rfl
@[simp] theorem State.setStatBit_layout (v : BitVec 4) : (s.setStatBit v).layout = s.layout := rfl
@[simp] theorem State.setStatBit_len (v : BitVec 4) : (s.setStatBit v).len = s.len := rfl
@[simp] theorem State.setStatBit_logn (v : BitVec 4) : (s.setStatBit v).logn = s.logn := rfl

@[simp] theorem State.setCause_nf (v : BitVec 2) : (s.setCause v).nf = s.nf := rfl
@[simp] theorem State.setCause_fill (v : BitVec 2) : (s.setCause v).fill = s.fill := rfl
@[simp] theorem State.setCause_ph (v : BitVec 2) : (s.setCause v).ph = s.ph := rfl
@[simp] theorem State.setCause_stat (v : BitVec 2) : (s.setCause v).stat = s.stat := rfl
@[simp] theorem State.setCause_cause (v : BitVec 2) : (s.setCause v).cause = v := rfl
@[simp] theorem State.setCause_cfg (v : BitVec 2) : (s.setCause v).cfg = s.cfg := rfl
@[simp] theorem State.setCause_frame (v : BitVec 2) : (s.setCause v).frame = s.frame := rfl
@[simp] theorem State.setCause_win (v : BitVec 2) : (s.setCause v).win = s.win := rfl
@[simp] theorem State.setCause_tw (v : BitVec 2) : (s.setCause v).tw = s.tw := rfl
@[simp] theorem State.setCause_cbuf (v : BitVec 2) : (s.setCause v).cbuf = s.cbuf := rfl
@[simp] theorem State.setCause_spec (v : BitVec 2) : (s.setCause v).spec = s.spec := rfl
@[simp] theorem State.setCause_env (v : BitVec 2) : (s.setCause v).env = s.env := rfl
@[simp] theorem State.setCause_out (v : BitVec 2) : (s.setCause v).out = s.out := rfl
@[simp] theorem State.setCause_draws (v : BitVec 2) : (s.setCause v).draws = s.draws := rfl
@[simp] theorem State.setCause_launch (v : BitVec 2) : (s.setCause v).launch = s.launch := rfl
@[simp] theorem State.setCause_frameAt (v : BitVec 2) (i : Nat) : (s.setCause v).frameAt i = s.frameAt i := rfl
@[simp] theorem State.setCause_winAt (v : BitVec 2) (i : Nat) : (s.setCause v).winAt i = s.winAt i := rfl
@[simp] theorem State.setCause_twAt (v : BitVec 2) (i : Nat) : (s.setCause v).twAt i = s.twAt i := rfl
@[simp] theorem State.setCause_cbufAt (v : BitVec 2) (i : Nat) : (s.setCause v).cbufAt i = s.cbufAt i := rfl
@[simp] theorem State.setCause_specAt (v : BitVec 2) (i : Nat) : (s.setCause v).specAt i = s.specAt i := rfl
@[simp] theorem State.setCause_layout (v : BitVec 2) : (s.setCause v).layout = s.layout := rfl
@[simp] theorem State.setCause_len (v : BitVec 2) : (s.setCause v).len = s.len := rfl
@[simp] theorem State.setCause_logn (v : BitVec 2) : (s.setCause v).logn = s.logn := rfl

@[simp] theorem State.setFrame_nf (v : Memory 12) : (s.setFrame v).nf = s.nf := rfl
@[simp] theorem State.setFrame_fill (v : Memory 12) : (s.setFrame v).fill = s.fill := rfl
@[simp] theorem State.setFrame_ph (v : Memory 12) : (s.setFrame v).ph = s.ph := rfl
@[simp] theorem State.setFrame_stat (v : Memory 12) : (s.setFrame v).stat = s.stat := rfl
@[simp] theorem State.setFrame_cause (v : Memory 12) : (s.setFrame v).cause = s.cause := rfl
@[simp] theorem State.setFrame_cfg (v : Memory 12) : (s.setFrame v).cfg = s.cfg := rfl
@[simp] theorem State.setFrame_frame (v : Memory 12) : (s.setFrame v).frame = v := rfl
@[simp] theorem State.setFrame_win (v : Memory 12) : (s.setFrame v).win = s.win := rfl
@[simp] theorem State.setFrame_tw (v : Memory 12) : (s.setFrame v).tw = s.tw := rfl
@[simp] theorem State.setFrame_cbuf (v : Memory 12) : (s.setFrame v).cbuf = s.cbuf := rfl
@[simp] theorem State.setFrame_spec (v : Memory 12) : (s.setFrame v).spec = s.spec := rfl
@[simp] theorem State.setFrame_env (v : Memory 12) : (s.setFrame v).env = s.env := rfl
@[simp] theorem State.setFrame_out (v : Memory 12) : (s.setFrame v).out = s.out := rfl
@[simp] theorem State.setFrame_draws (v : Memory 12) : (s.setFrame v).draws = s.draws := rfl
@[simp] theorem State.setFrame_launch (v : Memory 12) : (s.setFrame v).launch = s.launch := rfl
@[simp] theorem State.setFrame_winAt (v : Memory 12) (i : Nat) : (s.setFrame v).winAt i = s.winAt i := rfl
@[simp] theorem State.setFrame_twAt (v : Memory 12) (i : Nat) : (s.setFrame v).twAt i = s.twAt i := rfl
@[simp] theorem State.setFrame_cbufAt (v : Memory 12) (i : Nat) : (s.setFrame v).cbufAt i = s.cbufAt i := rfl
@[simp] theorem State.setFrame_specAt (v : Memory 12) (i : Nat) : (s.setFrame v).specAt i = s.specAt i := rfl
@[simp] theorem State.setFrame_layout (v : Memory 12) : (s.setFrame v).layout = s.layout := rfl
@[simp] theorem State.setFrame_len (v : Memory 12) : (s.setFrame v).len = s.len := rfl
@[simp] theorem State.setFrame_logn (v : Memory 12) : (s.setFrame v).logn = s.logn := rfl

@[simp] theorem State.setWin_nf (v : Memory 32) : (s.setWin v).nf = s.nf := rfl
@[simp] theorem State.setWin_fill (v : Memory 32) : (s.setWin v).fill = s.fill := rfl
@[simp] theorem State.setWin_ph (v : Memory 32) : (s.setWin v).ph = s.ph := rfl
@[simp] theorem State.setWin_stat (v : Memory 32) : (s.setWin v).stat = s.stat := rfl
@[simp] theorem State.setWin_cause (v : Memory 32) : (s.setWin v).cause = s.cause := rfl
@[simp] theorem State.setWin_cfg (v : Memory 32) : (s.setWin v).cfg = s.cfg := rfl
@[simp] theorem State.setWin_frame (v : Memory 32) : (s.setWin v).frame = s.frame := rfl
@[simp] theorem State.setWin_win (v : Memory 32) : (s.setWin v).win = v := rfl
@[simp] theorem State.setWin_tw (v : Memory 32) : (s.setWin v).tw = s.tw := rfl
@[simp] theorem State.setWin_cbuf (v : Memory 32) : (s.setWin v).cbuf = s.cbuf := rfl
@[simp] theorem State.setWin_spec (v : Memory 32) : (s.setWin v).spec = s.spec := rfl
@[simp] theorem State.setWin_env (v : Memory 32) : (s.setWin v).env = s.env := rfl
@[simp] theorem State.setWin_out (v : Memory 32) : (s.setWin v).out = s.out := rfl
@[simp] theorem State.setWin_draws (v : Memory 32) : (s.setWin v).draws = s.draws := rfl
@[simp] theorem State.setWin_launch (v : Memory 32) : (s.setWin v).launch = s.launch := rfl
@[simp] theorem State.setWin_frameAt (v : Memory 32) (i : Nat) : (s.setWin v).frameAt i = s.frameAt i := rfl
@[simp] theorem State.setWin_twAt (v : Memory 32) (i : Nat) : (s.setWin v).twAt i = s.twAt i := rfl
@[simp] theorem State.setWin_cbufAt (v : Memory 32) (i : Nat) : (s.setWin v).cbufAt i = s.cbufAt i := rfl
@[simp] theorem State.setWin_specAt (v : Memory 32) (i : Nat) : (s.setWin v).specAt i = s.specAt i := rfl
@[simp] theorem State.setWin_layout (v : Memory 32) : (s.setWin v).layout = s.layout := rfl
@[simp] theorem State.setWin_len (v : Memory 32) : (s.setWin v).len = s.len := rfl
@[simp] theorem State.setWin_logn (v : Memory 32) : (s.setWin v).logn = s.logn := rfl

@[simp] theorem State.setTw_nf (v : Memory 32) : (s.setTw v).nf = s.nf := rfl
@[simp] theorem State.setTw_fill (v : Memory 32) : (s.setTw v).fill = s.fill := rfl
@[simp] theorem State.setTw_ph (v : Memory 32) : (s.setTw v).ph = s.ph := rfl
@[simp] theorem State.setTw_stat (v : Memory 32) : (s.setTw v).stat = s.stat := rfl
@[simp] theorem State.setTw_cause (v : Memory 32) : (s.setTw v).cause = s.cause := rfl
@[simp] theorem State.setTw_cfg (v : Memory 32) : (s.setTw v).cfg = s.cfg := rfl
@[simp] theorem State.setTw_frame (v : Memory 32) : (s.setTw v).frame = s.frame := rfl
@[simp] theorem State.setTw_win (v : Memory 32) : (s.setTw v).win = s.win := rfl
@[simp] theorem State.setTw_tw (v : Memory 32) : (s.setTw v).tw = v := rfl
@[simp] theorem State.setTw_cbuf (v : Memory 32) : (s.setTw v).cbuf = s.cbuf := rfl
@[simp] theorem State.setTw_spec (v : Memory 32) : (s.setTw v).spec = s.spec := rfl
@[simp] theorem State.setTw_env (v : Memory 32) : (s.setTw v).env = s.env := rfl
@[simp] theorem State.setTw_out (v : Memory 32) : (s.setTw v).out = s.out := rfl
@[simp] theorem State.setTw_draws (v : Memory 32) : (s.setTw v).draws = s.draws := rfl
@[simp] theorem State.setTw_launch (v : Memory 32) : (s.setTw v).launch = s.launch := rfl
@[simp] theorem State.setTw_frameAt (v : Memory 32) (i : Nat) : (s.setTw v).frameAt i = s.frameAt i := rfl
@[simp] theorem State.setTw_winAt (v : Memory 32) (i : Nat) : (s.setTw v).winAt i = s.winAt i := rfl
@[simp] theorem State.setTw_cbufAt (v : Memory 32) (i : Nat) : (s.setTw v).cbufAt i = s.cbufAt i := rfl
@[simp] theorem State.setTw_specAt (v : Memory 32) (i : Nat) : (s.setTw v).specAt i = s.specAt i := rfl
@[simp] theorem State.setTw_layout (v : Memory 32) : (s.setTw v).layout = s.layout := rfl
@[simp] theorem State.setTw_len (v : Memory 32) : (s.setTw v).len = s.len := rfl
@[simp] theorem State.setTw_logn (v : Memory 32) : (s.setTw v).logn = s.logn := rfl

@[simp] theorem State.setCbuf_nf (v : Memory 32) : (s.setCbuf v).nf = s.nf := rfl
@[simp] theorem State.setCbuf_fill (v : Memory 32) : (s.setCbuf v).fill = s.fill := rfl
@[simp] theorem State.setCbuf_ph (v : Memory 32) : (s.setCbuf v).ph = s.ph := rfl
@[simp] theorem State.setCbuf_stat (v : Memory 32) : (s.setCbuf v).stat = s.stat := rfl
@[simp] theorem State.setCbuf_cause (v : Memory 32) : (s.setCbuf v).cause = s.cause := rfl
@[simp] theorem State.setCbuf_cfg (v : Memory 32) : (s.setCbuf v).cfg = s.cfg := rfl
@[simp] theorem State.setCbuf_frame (v : Memory 32) : (s.setCbuf v).frame = s.frame := rfl
@[simp] theorem State.setCbuf_win (v : Memory 32) : (s.setCbuf v).win = s.win := rfl
@[simp] theorem State.setCbuf_tw (v : Memory 32) : (s.setCbuf v).tw = s.tw := rfl
@[simp] theorem State.setCbuf_cbuf (v : Memory 32) : (s.setCbuf v).cbuf = v := rfl
@[simp] theorem State.setCbuf_spec (v : Memory 32) : (s.setCbuf v).spec = s.spec := rfl
@[simp] theorem State.setCbuf_env (v : Memory 32) : (s.setCbuf v).env = s.env := rfl
@[simp] theorem State.setCbuf_out (v : Memory 32) : (s.setCbuf v).out = s.out := rfl
@[simp] theorem State.setCbuf_draws (v : Memory 32) : (s.setCbuf v).draws = s.draws := rfl
@[simp] theorem State.setCbuf_launch (v : Memory 32) : (s.setCbuf v).launch = s.launch := rfl
@[simp] theorem State.setCbuf_frameAt (v : Memory 32) (i : Nat) : (s.setCbuf v).frameAt i = s.frameAt i := rfl
@[simp] theorem State.setCbuf_winAt (v : Memory 32) (i : Nat) : (s.setCbuf v).winAt i = s.winAt i := rfl
@[simp] theorem State.setCbuf_twAt (v : Memory 32) (i : Nat) : (s.setCbuf v).twAt i = s.twAt i := rfl
@[simp] theorem State.setCbuf_specAt (v : Memory 32) (i : Nat) : (s.setCbuf v).specAt i = s.specAt i := rfl
@[simp] theorem State.setCbuf_layout (v : Memory 32) : (s.setCbuf v).layout = s.layout := rfl
@[simp] theorem State.setCbuf_len (v : Memory 32) : (s.setCbuf v).len = s.len := rfl
@[simp] theorem State.setCbuf_logn (v : Memory 32) : (s.setCbuf v).logn = s.logn := rfl

@[simp] theorem State.setSpec_nf (v : Memory 32) : (s.setSpec v).nf = s.nf := rfl
@[simp] theorem State.setSpec_fill (v : Memory 32) : (s.setSpec v).fill = s.fill := rfl
@[simp] theorem State.setSpec_ph (v : Memory 32) : (s.setSpec v).ph = s.ph := rfl
@[simp] theorem State.setSpec_stat (v : Memory 32) : (s.setSpec v).stat = s.stat := rfl
@[simp] theorem State.setSpec_cause (v : Memory 32) : (s.setSpec v).cause = s.cause := rfl
@[simp] theorem State.setSpec_cfg (v : Memory 32) : (s.setSpec v).cfg = s.cfg := rfl
@[simp] theorem State.setSpec_frame (v : Memory 32) : (s.setSpec v).frame = s.frame := rfl
@[simp] theorem State.setSpec_win (v : Memory 32) : (s.setSpec v).win = s.win := rfl
@[simp] theorem State.setSpec_tw (v : Memory 32) : (s.setSpec v).tw = s.tw := rfl
@[simp] theorem State.setSpec_cbuf (v : Memory 32) : (s.setSpec v).cbuf = s.cbuf := rfl
@[simp] theorem State.setSpec_spec (v : Memory 32) : (s.setSpec v).spec = v := rfl
@[simp] theorem State.setSpec_env (v : Memory 32) : (s.setSpec v).env = s.env := rfl
@[simp] theorem State.setSpec_out (v : Memory 32) : (s.setSpec v).out = s.out := rfl
@[simp] theorem State.setSpec_draws (v : Memory 32) : (s.setSpec v).draws = s.draws := rfl
@[simp] theorem State.setSpec_launch (v : Memory 32) : (s.setSpec v).launch = s.launch := rfl
@[simp] theorem State.setSpec_frameAt (v : Memory 32) (i : Nat) : (s.setSpec v).frameAt i = s.frameAt i := rfl
@[simp] theorem State.setSpec_winAt (v : Memory 32) (i : Nat) : (s.setSpec v).winAt i = s.winAt i := rfl
@[simp] theorem State.setSpec_twAt (v : Memory 32) (i : Nat) : (s.setSpec v).twAt i = s.twAt i := rfl
@[simp] theorem State.setSpec_cbufAt (v : Memory 32) (i : Nat) : (s.setSpec v).cbufAt i = s.cbufAt i := rfl
@[simp] theorem State.setSpec_layout (v : Memory 32) : (s.setSpec v).layout = s.layout := rfl
@[simp] theorem State.setSpec_len (v : Memory 32) : (s.setSpec v).len = s.len := rfl
@[simp] theorem State.setSpec_logn (v : Memory 32) : (s.setSpec v).logn = s.logn := rfl

@[simp] theorem State.setEnv_nf (v : Env) : (s.setEnv v).nf = s.nf := rfl
@[simp] theorem State.setEnv_fill (v : Env) : (s.setEnv v).fill = s.fill := rfl
@[simp] theorem State.setEnv_ph (v : Env) : (s.setEnv v).ph = s.ph := rfl
@[simp] theorem State.setEnv_stat (v : Env) : (s.setEnv v).stat = s.stat := rfl
@[simp] theorem State.setEnv_cause (v : Env) : (s.setEnv v).cause = s.cause := rfl
@[simp] theorem State.setEnv_cfg (v : Env) : (s.setEnv v).cfg = s.cfg := rfl
@[simp] theorem State.setEnv_frame (v : Env) : (s.setEnv v).frame = s.frame := rfl
@[simp] theorem State.setEnv_win (v : Env) : (s.setEnv v).win = s.win := rfl
@[simp] theorem State.setEnv_tw (v : Env) : (s.setEnv v).tw = s.tw := rfl
@[simp] theorem State.setEnv_cbuf (v : Env) : (s.setEnv v).cbuf = s.cbuf := rfl
@[simp] theorem State.setEnv_spec (v : Env) : (s.setEnv v).spec = s.spec := rfl
@[simp] theorem State.setEnv_env (v : Env) : (s.setEnv v).env = v := rfl
@[simp] theorem State.setEnv_out (v : Env) : (s.setEnv v).out = s.out := rfl
@[simp] theorem State.setEnv_draws (v : Env) : (s.setEnv v).draws = s.draws := rfl
@[simp] theorem State.setEnv_launch (v : Env) : (s.setEnv v).launch = s.launch := rfl
@[simp] theorem State.setEnv_frameAt (v : Env) (i : Nat) : (s.setEnv v).frameAt i = s.frameAt i := rfl
@[simp] theorem State.setEnv_winAt (v : Env) (i : Nat) : (s.setEnv v).winAt i = s.winAt i := rfl
@[simp] theorem State.setEnv_twAt (v : Env) (i : Nat) : (s.setEnv v).twAt i = s.twAt i := rfl
@[simp] theorem State.setEnv_cbufAt (v : Env) (i : Nat) : (s.setEnv v).cbufAt i = s.cbufAt i := rfl
@[simp] theorem State.setEnv_specAt (v : Env) (i : Nat) : (s.setEnv v).specAt i = s.specAt i := rfl
@[simp] theorem State.setEnv_layout (v : Env) : (s.setEnv v).layout = s.layout := rfl
@[simp] theorem State.setEnv_len (v : Env) : (s.setEnv v).len = s.len := rfl
@[simp] theorem State.setEnv_logn (v : Env) : (s.setEnv v).logn = s.logn := rfl

@[simp] theorem State.bump_nf : s.bump.nf = s.nf := rfl
@[simp] theorem State.bump_fill : s.bump.fill = s.fill := rfl
@[simp] theorem State.bump_ph : s.bump.ph = s.ph := rfl
@[simp] theorem State.bump_stat : s.bump.stat = s.stat := rfl
@[simp] theorem State.bump_cause : s.bump.cause = s.cause := rfl
@[simp] theorem State.bump_cfg : s.bump.cfg = s.cfg := rfl
@[simp] theorem State.bump_frame : s.bump.frame = s.frame := rfl
@[simp] theorem State.bump_win : s.bump.win = s.win := rfl
@[simp] theorem State.bump_tw : s.bump.tw = s.tw := rfl
@[simp] theorem State.bump_cbuf : s.bump.cbuf = s.cbuf := rfl
@[simp] theorem State.bump_spec : s.bump.spec = s.spec := rfl
@[simp] theorem State.bump_env : s.bump.env = s.env := rfl
@[simp] theorem State.bump_out : s.bump.out = s.out := rfl
@[simp] theorem State.bump_draws : s.bump.draws = s.draws + 1 := rfl
@[simp] theorem State.bump_launch : s.bump.launch = s.launch := rfl
@[simp] theorem State.bump_frameAt (i : Nat) : s.bump.frameAt i = s.frameAt i := rfl
@[simp] theorem State.bump_winAt (i : Nat) : s.bump.winAt i = s.winAt i := rfl
@[simp] theorem State.bump_twAt (i : Nat) : s.bump.twAt i = s.twAt i := rfl
@[simp] theorem State.bump_cbufAt (i : Nat) : s.bump.cbufAt i = s.cbufAt i := rfl
@[simp] theorem State.bump_specAt (i : Nat) : s.bump.specAt i = s.specAt i := rfl
@[simp] theorem State.bump_layout : s.bump.layout = s.layout := rfl
@[simp] theorem State.bump_len : s.bump.len = s.len := rfl
@[simp] theorem State.bump_logn : s.bump.logn = s.logn := rfl

@[simp] theorem State.send_nf (v : PortMsg) : (s.send v).nf = s.nf := rfl
@[simp] theorem State.send_fill (v : PortMsg) : (s.send v).fill = s.fill := rfl
@[simp] theorem State.send_ph (v : PortMsg) : (s.send v).ph = s.ph := rfl
@[simp] theorem State.send_stat (v : PortMsg) : (s.send v).stat = s.stat := rfl
@[simp] theorem State.send_cause (v : PortMsg) : (s.send v).cause = s.cause := rfl
@[simp] theorem State.send_cfg (v : PortMsg) : (s.send v).cfg = s.cfg := rfl
@[simp] theorem State.send_frame (v : PortMsg) : (s.send v).frame = s.frame := rfl
@[simp] theorem State.send_win (v : PortMsg) : (s.send v).win = s.win := rfl
@[simp] theorem State.send_tw (v : PortMsg) : (s.send v).tw = s.tw := rfl
@[simp] theorem State.send_cbuf (v : PortMsg) : (s.send v).cbuf = s.cbuf := rfl
@[simp] theorem State.send_spec (v : PortMsg) : (s.send v).spec = s.spec := rfl
@[simp] theorem State.send_env (v : PortMsg) : (s.send v).env = s.env := rfl
@[simp] theorem State.send_out (v : PortMsg) : (s.send v).out = s.out ++ [v] := rfl
@[simp] theorem State.send_draws (v : PortMsg) : (s.send v).draws = s.draws := rfl
@[simp] theorem State.send_launch (v : PortMsg) : (s.send v).launch = s.launch := rfl
@[simp] theorem State.send_frameAt (v : PortMsg) (i : Nat) : (s.send v).frameAt i = s.frameAt i := rfl
@[simp] theorem State.send_winAt (v : PortMsg) (i : Nat) : (s.send v).winAt i = s.winAt i := rfl
@[simp] theorem State.send_twAt (v : PortMsg) (i : Nat) : (s.send v).twAt i = s.twAt i := rfl
@[simp] theorem State.send_cbufAt (v : PortMsg) (i : Nat) : (s.send v).cbufAt i = s.cbufAt i := rfl
@[simp] theorem State.send_specAt (v : PortMsg) (i : Nat) : (s.send v).specAt i = s.specAt i := rfl
@[simp] theorem State.send_layout (v : PortMsg) : (s.send v).layout = s.layout := rfl
@[simp] theorem State.send_len (v : PortMsg) : (s.send v).len = s.len := rfl
@[simp] theorem State.send_logn (v : PortMsg) : (s.send v).logn = s.logn := rfl

@[simp] theorem State.emit_nf (c : BitVec 4) (a : Word) : (s.emit c a).nf = s.nf := rfl
@[simp] theorem State.emit_fill (c : BitVec 4) (a : Word) : (s.emit c a).fill = s.fill := rfl
@[simp] theorem State.emit_ph (c : BitVec 4) (a : Word) : (s.emit c a).ph = s.ph := rfl
@[simp] theorem State.emit_stat (c : BitVec 4) (a : Word) : (s.emit c a).stat = s.stat := rfl
@[simp] theorem State.emit_cause (c : BitVec 4) (a : Word) : (s.emit c a).cause = s.cause := rfl
@[simp] theorem State.emit_cfg (c : BitVec 4) (a : Word) : (s.emit c a).cfg = s.cfg := rfl
@[simp] theorem State.emit_frame (c : BitVec 4) (a : Word) : (s.emit c a).frame = s.frame := rfl
@[simp] theorem State.emit_win (c : BitVec 4) (a : Word) : (s.emit c a).win = s.win := rfl
@[simp] theorem State.emit_tw (c : BitVec 4) (a : Word) : (s.emit c a).tw = s.tw := rfl
@[simp] theorem State.emit_cbuf (c : BitVec 4) (a : Word) : (s.emit c a).cbuf = s.cbuf := rfl
@[simp] theorem State.emit_spec (c : BitVec 4) (a : Word) : (s.emit c a).spec = s.spec := rfl
@[simp] theorem State.emit_env (c : BitVec 4) (a : Word) : (s.emit c a).env = s.env := rfl
@[simp] theorem State.emit_out (c : BitVec 4) (a : Word) : (s.emit c a).out = s.out ++ [.event c a] := rfl
@[simp] theorem State.emit_draws (c : BitVec 4) (a : Word) : (s.emit c a).draws = s.draws := rfl
@[simp] theorem State.emit_launch (c : BitVec 4) (a : Word) : (s.emit c a).launch = s.launch := rfl
@[simp] theorem State.emit_frameAt (c : BitVec 4) (a : Word) (i : Nat) : (s.emit c a).frameAt i = s.frameAt i := rfl
@[simp] theorem State.emit_winAt (c : BitVec 4) (a : Word) (i : Nat) : (s.emit c a).winAt i = s.winAt i := rfl
@[simp] theorem State.emit_twAt (c : BitVec 4) (a : Word) (i : Nat) : (s.emit c a).twAt i = s.twAt i := rfl
@[simp] theorem State.emit_cbufAt (c : BitVec 4) (a : Word) (i : Nat) : (s.emit c a).cbufAt i = s.cbufAt i := rfl
@[simp] theorem State.emit_specAt (c : BitVec 4) (a : Word) (i : Nat) : (s.emit c a).specAt i = s.specAt i := rfl
@[simp] theorem State.emit_layout (c : BitVec 4) (a : Word) : (s.emit c a).layout = s.layout := rfl
@[simp] theorem State.emit_len (c : BitVec 4) (a : Word) : (s.emit c a).len = s.len := rfl
@[simp] theorem State.emit_logn (c : BitVec 4) (a : Word) : (s.emit c a).logn = s.logn := rfl

/-! ## After `raise X` (R280): three fields written, nothing else -/

@[simp] theorem raiseFatal_nf (x : Fatal) : (raiseFatal x s).nf = s.nf := rfl
@[simp] theorem raiseFatal_fill (x : Fatal) : (raiseFatal x s).fill = s.fill := rfl
@[simp] theorem raiseFatal_ph (x : Fatal) : (raiseFatal x s).ph = P_HALT := rfl
@[simp] theorem raiseFatal_stat (x : Fatal) : (raiseFatal x s).stat = s.stat := rfl
@[simp] theorem raiseFatal_cause (x : Fatal) : (raiseFatal x s).cause = fatalCode x := rfl
@[simp] theorem raiseFatal_cfg (x : Fatal) : (raiseFatal x s).cfg = s.cfg := rfl
@[simp] theorem raiseFatal_frame (x : Fatal) : (raiseFatal x s).frame = s.frame := rfl
@[simp] theorem raiseFatal_win (x : Fatal) : (raiseFatal x s).win = s.win := rfl
@[simp] theorem raiseFatal_tw (x : Fatal) : (raiseFatal x s).tw = s.tw := rfl
@[simp] theorem raiseFatal_cbuf (x : Fatal) : (raiseFatal x s).cbuf = s.cbuf := rfl
@[simp] theorem raiseFatal_spec (x : Fatal) : (raiseFatal x s).spec = s.spec := rfl
@[simp] theorem raiseFatal_env (x : Fatal) : (raiseFatal x s).env = s.env := rfl
@[simp] theorem raiseFatal_out (x : Fatal) : (raiseFatal x s).out = s.out ++ [.event evFatal ((fatalCode x).setWidth 32)] := rfl
@[simp] theorem raiseFatal_draws (x : Fatal) : (raiseFatal x s).draws = s.draws := rfl
@[simp] theorem raiseFatal_launch (x : Fatal) : (raiseFatal x s).launch = s.launch := rfl

/-! ## After reset (R310) -/

@[simp] theorem takeReset_nf : (takeReset s).nf = false := rfl
@[simp] theorem takeReset_fill : (takeReset s).fill = 0 := rfl
@[simp] theorem takeReset_ph : (takeReset s).ph = P_CFGCHK := rfl
@[simp] theorem takeReset_stat : (takeReset s).stat = 0#4 := rfl
@[simp] theorem takeReset_cause : (takeReset s).cause = 0#2 := rfl
@[simp] theorem takeReset_cfg : (takeReset s).cfg = s.cfg := rfl
@[simp] theorem takeReset_frame : (takeReset s).frame = [] := rfl
@[simp] theorem takeReset_win : (takeReset s).win = [] := rfl
@[simp] theorem takeReset_tw : (takeReset s).tw = [] := rfl
@[simp] theorem takeReset_cbuf : (takeReset s).cbuf = [] := rfl
@[simp] theorem takeReset_spec : (takeReset s).spec = [] := rfl
@[simp] theorem takeReset_env : (takeReset s).env = s.env := rfl
@[simp] theorem takeReset_out : (takeReset s).out = s.out := rfl
@[simp] theorem takeReset_draws : (takeReset s).draws = s.draws + 1 := rfl
@[simp] theorem takeReset_launch : (takeReset s).launch = s.draws := rfl

end Sys2Proof.Machine
end

