-- ==== Sys2Proof/Laws/Read.lean ====
section
/-! SUPPORT. What the Frame Assembler's shared operations do, said once: one sample word, a list of sample
words, the words of a response, the contract, and READ's successor. -/

namespace Sys2Proof.Machine

/-! ## One sample word (R166, R170) -/

variable (s : State) (w : Word)

/-- The sample word's tag matches the configured channel (R112). -/
abbrev tagMatches (s : State) (w : Word) : Prop := sampleTag s.layout w = s.cfg.ch

/-- A matching word is written; nothing else but FILL changes. -/
theorem appendWord_match (h : tagMatches s w) :
    appendWord s w =
      { s with frame := s.frame.write s.fill (sampleCode s.layout w), fill := s.fill + 1 } := by
  unfold appendWord
  simp only [if_pos h]
  rfl

/-- A word of another channel leaves FRAME as it is, sets `STAT.TM` and reports the position. -/
theorem appendWord_mismatch (h : ¬ tagMatches s w) :
    appendWord s w =
      { s with
        stat := setSticky s.stat statTM
        out := s.out ++ [.event evTagMismatch (tagMismatchArg (sampleTag s.layout w) s.fill)]
        fill := s.fill + 1 } := by
  unfold appendWord
  simp only [if_neg h]
  rfl

/-- The only fields a sample word touches. -/
theorem appendWord_frame :
    appendWord s w =
      { s with frame := (appendWord s w).frame, stat := (appendWord s w).stat,
               out := (appendWord s w).out, fill := s.fill + 1 } := by
  by_cases h : tagMatches s w
  · rw [appendWord_match s w h]
  · rw [appendWord_mismatch s w h]

@[simp] theorem appendWord_cfg : (appendWord s w).cfg = s.cfg := by rw [appendWord_frame]

@[simp] theorem appendWord_layout : (appendWord s w).layout = s.layout := by
  unfold State.layout
  rw [appendWord_cfg]

@[simp] theorem appendWord_fill : (appendWord s w).fill = s.fill + 1 := by rw [appendWord_frame]

/-! ## A list of sample words -/

@[simp] theorem appendWords_nil : appendWords s [] = s := rfl

@[simp] theorem appendWords_cons (ws : List Word) :
    appendWords s (w :: ws) = appendWords (appendWord s w) ws := rfl

/-- Words taken in two lots are words taken in one (R172). -/
theorem appendWords_append (ws ws' : List Word) :
    appendWords s (ws ++ ws') = appendWords (appendWords s ws) ws' := List.foldl_append

/-- The only fields a list of sample words touches. -/
theorem appendWords_frame (ws : List Word) :
    appendWords s ws =
      { s with frame := (appendWords s ws).frame, stat := (appendWords s ws).stat,
               out := (appendWords s ws).out, fill := s.fill + ws.length } := by
  induction ws generalizing s with
  | nil => rfl
  | cons w ws ih =>
    rw [appendWords_cons, ih, appendWord_frame]
    simp [Nat.add_assoc, Nat.add_comm 1]

@[simp] theorem appendWords_cfg (ws : List Word) : (appendWords s ws).cfg = s.cfg := by
  rw [appendWords_frame]

@[simp] theorem appendWords_fill (ws : List Word) :
    (appendWords s ws).fill = s.fill + ws.length := by rw [appendWords_frame]

@[simp] theorem appendWords_layout (ws : List Word) : (appendWords s ws).layout = s.layout := by
  unfold State.layout
  rw [appendWords_cfg]

/-- FRAME after a list of sample words: position `FILL + j` takes the code of word `j` if its tag
matches, and every other position keeps its value (R166, R170). -/
theorem appendWords_find (ws : List Word) (p : Nat) :
    (appendWords s ws).frame.find p =
      match (if s.fill ≤ p then ws[p - s.fill]? else none) with
      | some w => if tagMatches s w then some (sampleCode s.layout w) else s.frame.find p
      | none => s.frame.find p := by
  induction ws generalizing s with
  | nil => simp
  | cons w ws ih =>
    rw [appendWords_cons, ih]
    have hl : (appendWord s w).layout = s.layout := appendWord_layout s w
    have hc : (appendWord s w).cfg = s.cfg := appendWord_cfg s w
    have hf : (appendWord s w).frame.find p =
        if p = s.fill ∧ tagMatches s w then some (sampleCode s.layout w) else s.frame.find p := by
      by_cases h : tagMatches s w
      · rw [appendWord_match s w h]
        by_cases hp : p = s.fill <;> simp [Memory.find_write, hp, h]
      · rw [appendWord_mismatch s w h]
        simp only [h, and_false, if_false]
    simp only [tagMatches, hl, hc, hf, appendWord_fill]
    by_cases hp : p = s.fill
    · subst hp
      simp
    · by_cases hle : s.fill ≤ p
      · have h1 : s.fill + 1 ≤ p := by omega
        have h2 : p - s.fill = (p - (s.fill + 1)) + 1 := by omega
        simp only [hp, false_and, if_false, h1, hle, if_true, h2, List.getElem?_cons_succ]
      · have h1 : ¬ s.fill + 1 ≤ p := by omega
        simp only [hp, false_and, if_false, h1, hle]

/-- The canonical form of FRAME is kept. -/
theorem appendWords_wf (ws : List Word) (h : s.frame.wf = true) :
    (appendWords s ws).frame.wf = true := by
  induction ws generalizing s with
  | nil => exact h
  | cons w ws ih =>
    rw [appendWords_cons]
    apply ih
    by_cases hm : tagMatches s w
    · rw [appendWord_match s w hm]
      exact Memory.wf_write _ _ _ h
    · rw [appendWord_mismatch s w hm]
      exact h

/-! ## The words of a response (R112) -/

@[simp] theorem sampleWords_length (l : Layout) (bytes : List Byte) (k : Nat) :
    (sampleWords l bytes k).length = k := by
  induction k with
  | zero => rfl
  | succ k ih => simp [sampleWords, ih]

theorem sampleWords_getElem? (l : Layout) (bytes : List Byte) (k j : Nat) :
    (sampleWords l bytes k)[j]? = if j < k then some (sampleWord l bytes j) else none := by
  induction k with
  | zero => simp [sampleWords]
  | succ k ih =>
    rw [sampleWords, List.getElem?_append]
    simp only [sampleWords_length, ih]
    by_cases h : j < k
    · have : j < k + 1 := by omega
      simp [h, this]
    · by_cases h' : j = k
      · subst h'
        simp
      · have h1 : ¬ j < k + 1 := by omega
        have h2 : j - k ≠ 0 := by omega
        simp [h, h1, h2]

/-- Whole words of a first payload are those of the two payloads joined. -/
theorem sampleWord_append_left (l : Layout) (b b' : List Byte) {j k : Nat}
    (hb : b.length = l.wordBytes * k) (h : j < k) :
    sampleWord l (b ++ b') j = sampleWord l b j := by
  unfold sampleWord
  have h1 : l.wordBytes * j + l.wordBytes ≤ b.length := by
    rw [hb, ← Nat.mul_succ]
    exact Nat.mul_le_mul_left _ h
  rw [List.drop_append_of_le_length (by omega), List.take_append_of_le_length]
  rw [List.length_drop]
  omega

/-- Words past the first payload are those of the second. -/
theorem sampleWord_append_right (l : Layout) (b b' : List Byte) {k : Nat}
    (hb : b.length = l.wordBytes * k) (j : Nat) :
    sampleWord l (b ++ b') (k + j) = sampleWord l b' j := by
  unfold sampleWord
  have h1 : l.wordBytes * (k + j) = b.length + l.wordBytes * j := by rw [hb, Nat.mul_add]
  rw [h1, List.drop_append, List.drop_eq_nil_of_le (by omega)]
  simp

theorem sampleWords_append (l : Layout) (b b' : List Byte) {k : Nat} (k' : Nat)
    (hb : b.length = l.wordBytes * k) :
    sampleWords l (b ++ b') (k + k') = sampleWords l b k ++ sampleWords l b' k' := by
  apply List.ext_getElem?
  intro j
  rw [sampleWords_getElem?, List.getElem?_append, sampleWords_length]
  by_cases h : j < k
  · have h' : j < k + k' := by omega
    rw [if_pos h', if_pos h, sampleWords_getElem?, if_pos h, sampleWord_append_left l b b' hb h]
  · rw [if_neg h, sampleWords_getElem?]
    by_cases h' : j < k + k'
    · have h2 : j - k < k' := by omega
      have h3 : j = k + (j - k) := by omega
      rw [if_pos h', if_pos h2, h3, sampleWord_append_right l b b' hb]
      simp
    · have h2 : ¬ j - k < k' := by omega
      rw [if_neg h', if_neg h2]

/-! ## The contract and the successor (R167, R250) -/

/-- A response keeps the channel contract exactly when (a), (b) and (c) of R167 hold. -/
theorem readContract_none_iff (l : Layout) (maxLen : Word) (r : RdRsp) :
    readContract l maxLen r = none ↔
      r.count.toNat ≤ maxLen.toNat ∧ r.count.toNat % l.wordBytes = 0 ∧
        r.bytes.length = r.count.toNat := by
  unfold readContract
  by_cases h1 : maxLen.toNat < r.count.toNat
  · simp only [h1, if_true]
    constructor
    · intro h
      cases h
    · rintro ⟨h, -⟩
      omega
  · by_cases h2 : r.count.toNat % l.wordBytes = 0
    · by_cases h3 : r.bytes.length = r.count.toNat
      · simp [h1, h2, h3, Nat.le_of_not_lt h1]
      · simp [h1, h2, h3]
    · simp [h1, h2]

/-- Both layouts have words of at least one byte. -/
theorem layout_wordBytes_pos : 0 < s.layout.wordBytes := by
  unfold State.layout layoutOf
  split <;> decide

/-- All that a response can do: it takes a list of words, no more than it has whole words, into the
frame, and touches FRAME, FILL, STAT and `out` alone. -/
theorem readBody_frame (r : RdRsp) : ∃ ws : List Word,
    (readBody s r).frame = (appendWords s ws).frame ∧
      (readBody s r).fill = s.fill + ws.length ∧
        ws.length ≤ r.count.toNat / s.layout.wordBytes ∧
          readBody s r =
            { s with frame := (readBody s r).frame, fill := (readBody s r).fill,
                     stat := (readBody s r).stat, out := (readBody s r).out } := by
  unfold readBody
  cases statusRecord (statusOfCode r.status) with
  | none =>
    refine ⟨sampleWords s.layout r.bytes (r.count.toNat / s.layout.wordBytes), rfl, ?_, ?_, ?_⟩
    · simp
    · simp
    · simp only
      conv_lhs => rw [appendWords_frame]
      simp
  | some p => exact ⟨[], rfl, rfl, by simp, rfl⟩

/-- READ with a response that keeps the contract. -/
theorem execRead_eq (h : readContract s.layout (readMaxLen s) s.env.nextRead = none) :
    execRead s =
      .next
        ((readBody ((s.setEnv s.env.afterRead).send (.rdReq (readMaxLen s))) s.env.nextRead).setPh
          (readNext (readBody ((s.setEnv s.env.afterRead).send (.rdReq (readMaxLen s)))
            s.env.nextRead))) := by
  unfold execRead
  simp only [h]

/-- READ answers a next state exactly when the response keeps the contract. -/
theorem execRead_next {t : State} (h : execRead s = .next t) :
    readContract s.layout (readMaxLen s) s.env.nextRead = none ∧
      t = (readBody ((s.setEnv s.env.afterRead).send (.rdReq (readMaxLen s)))
            s.env.nextRead).setPh
          (readNext (readBody ((s.setEnv s.env.afterRead).send (.rdReq (readMaxLen s)))
            s.env.nextRead)) := by
  cases hc : readContract s.layout (readMaxLen s) s.env.nextRead with
  | none =>
    rw [execRead_eq s hc] at h
    cases h
    exact ⟨rfl, rfl⟩
  | some r =>
    unfold execRead at h
    simp only [hc] at h
    cases h

/-- READ asks for no more than the remaining capacity (R173). -/
theorem readMaxLen_le : (readMaxLen s).toNat ≤ (s.len - s.fill) * s.layout.wordBytes := by
  unfold readMaxLen
  rw [BitVec.toNat_ofNat]
  exact Nat.mod_le _ _

/-- The whole words of an accepted response fit in the remaining capacity (R167, R173). -/
theorem fill_add_words_le {r : RdRsp} (hf : s.fill ≤ s.len)
    (h : r.count.toNat ≤ (readMaxLen s).toNat) :
    s.fill + r.count.toNat / s.layout.wordBytes ≤ s.len := by
  have hB := layout_wordBytes_pos s
  have h1 := readMaxLen_le s
  have h2 : r.count.toNat / s.layout.wordBytes ≤ s.len - s.fill :=
    Nat.div_le_of_le_mul (by rw [Nat.mul_comm]; omega)
  omega

end Sys2Proof.Machine
end

