-- ==== Sys2Proof/Laws/Transform.lean ====
section
/-! SUPPORT. What the transform engine's shared operations do, said once: the legal length, bit reversal,
one butterfly, and what every loop over CBUF keeps. -/

namespace Sys2Proof.Machine

/-! ## The length and the bit-reversed index -/

/-- The power-of-two test says what its name says (R25). -/
theorem ispow2_eq_true {n : Nat} : ispow2 n = true ↔ n ≠ 0 ∧ n.isPowerOfTwo := by
  unfold ispow2
  simp only [Bool.and_eq_true, bne_iff_ne, ne_eq, beq_iff_eq]
  constructor
  · rintro ⟨h0, h⟩
    exact ⟨h0, (Nat.and_sub_one_eq_zero_iff_isPowerOfTwo h0).1 h⟩
  · rintro ⟨h0, h⟩
    exact ⟨h0, (Nat.and_sub_one_eq_zero_iff_isPowerOfTwo h0).2 h⟩

/-- With the engine's precondition, `N = 2^LOGN` and `LOGN >= 1` (R9, R201). -/
theorem lenPow2_spec {c : Cfg} (h : c.lenPow2 = true) : c.len = 2 ^ c.logn ∧ 1 ≤ c.logn := by
  unfold Cfg.lenPow2 at h
  simp only [Bool.and_eq_true, decide_eq_true_eq] at h
  obtain ⟨h1, h2⟩ := h
  obtain ⟨-, k, hk⟩ := ispow2_eq_true.1 h1
  have hlog : c.logn = k := by
    show Nat.log2 c.len = k
    rw [hk]
    exact Nat.log2_two_pow
  have hk0 : k ≠ 0 := by
    rintro rfl
    rw [hk] at h2
    omega
  rw [hlog]
  exact ⟨hk, by omega⟩

/-- A legal length is one the engine is defined on (R141, R201). -/
theorem lenPow2_of_lengthLegal {c : Cfg} (h : c.lengthLegal = true) : c.lenPow2 = true := by
  unfold Cfg.lengthLegal at h
  simp only [Bool.and_eq_true] at h
  exact h.1

/-- A length the engine is defined on is even. -/
theorem two_mul_half_len {c : Cfg} (h : c.lenPow2 = true) : 2 * (c.len / 2) = c.len := by
  obtain ⟨h1, h2⟩ := lenPow2_spec h
  obtain ⟨k, hk⟩ : ∃ k, c.logn = k + 1 := ⟨c.logn - 1, by omega⟩
  rw [h1, hk, Nat.pow_succ]
  omega

/-- A bit-reversed index stays in range (R24). -/
theorem brev_lt (k i : Nat) : brev k i < 2 ^ k := by
  induction k generalizing i with
  | zero => simp [brev]
  | succ k ih =>
    have h := ih (i / 2)
    have h2 : i % 2 < 2 := Nat.mod_lt _ (by decide)
    have h3 : i % 2 * 2 ^ k ≤ 1 * 2 ^ k := Nat.mul_le_mul_right _ (by omega)
    simp only [brev, Nat.pow_succ]
    omega

/-! ## One butterfly (R205) -/

section Butterfly

variable (d : Nat → Word) (st : Nat → Site) (c sn : Word) (a b : Nat) (m : Memory 32)

/-- The rotated lower element, real part (R205). -/
def rotRe : Word :=
  fadd (st 2) (fmul (st 0) c (m.get d (2 * b))) (fmul (st 1) sn (m.get d (2 * b + 1)))

/-- The rotated lower element, imaginary part (R205). -/
def rotIm : Word :=
  fsub (st 5) (fmul (st 3) c (m.get d (2 * b + 1))) (fmul (st 4) sn (m.get d (2 * b)))

/-- What a butterfly lists: its four cells, and nothing else changed. -/
theorem find_butterfly (j : Nat) :
    (butterfly d st c sn a b m).find j =
      if j = 2 * a + 1 then some (fadd (st 9) (m.get d (2 * a + 1)) (rotIm d st c sn b m))
      else if j = 2 * a then some (fadd (st 8) (m.get d (2 * a)) (rotRe d st c sn b m))
      else if j = 2 * b + 1 then some (fsub (st 7) (m.get d (2 * a + 1)) (rotIm d st c sn b m))
      else if j = 2 * b then some (fsub (st 6) (m.get d (2 * a)) (rotRe d st c sn b m))
      else m.find j := by
  unfold butterfly
  simp only [Memory.find_write]
  rfl

/-- A property kept by every write below `2 * n` is kept by a butterfly of elements below `n`. -/
theorem butterfly_keeps {P : Memory 32 → Prop} {n : Nat}
    (hw : ∀ m i v, i < 2 * n → P m → P (Memory.write m i v)) (ha : a < n) (hb : b < n) (h : P m) :
    P (butterfly d st c sn a b m) := by
  unfold butterfly
  exact hw _ _ _ (by omega) (hw _ _ _ (by omega) (hw _ _ _ (by omega) (hw _ _ _ (by omega) h)))

end Butterfly

/-! ## The stages (R204, R207) -/

/-- The span of a stage of a power-of-two length. -/
theorem fftSpan_pow {k stage : Nat} (h : stage < k) : fftSpan (2 ^ k) stage = 2 ^ (k - 1 - stage) := by
  unfold fftSpan
  rw [Nat.shiftRight_eq_div_pow, Nat.pow_div (by omega) (by decide)]
  congr 1
  omega

/-- Both elements of every butterfly lie below `N` (R207). -/
theorem fft_index_lt {k stage j i : Nat} (hs : stage < k) (hj : j < 2 ^ stage)
    (hi : i < fftSpan (2 ^ k) stage) :
    j * 2 * fftSpan (2 ^ k) stage + i + fftSpan (2 ^ k) stage < 2 ^ k := by
  rw [fftSpan_pow hs] at hi ⊢
  have h1 : 2 ^ k = 2 ^ stage * (2 * 2 ^ (k - 1 - stage)) := by
    rw [← Nat.pow_succ', ← Nat.pow_add]
    congr 1
    omega
  have h2 : (j + 1) * (2 * 2 ^ (k - 1 - stage)) ≤ 2 ^ k := by
    rw [h1]
    exact Nat.mul_le_mul_right _ hj
  have h3 : (j + 1) * (2 * 2 ^ (k - 1 - stage)) =
      j * 2 * 2 ^ (k - 1 - stage) + 2 * 2 ^ (k - 1 - stage) := by ring
  omega

/-- A property kept by every write below `2N` is kept by the whole transform. -/
theorem fftCbuf_keeps {P : Memory 32 → Prop} (d tw : Nat → Word) (draw k : Nat)
    (hw : ∀ m i v, i < 2 * 2 ^ k → P m → P (Memory.write m i v)) {m : Memory 32} (h : P m) :
    P (fftCbuf d tw draw k (2 ^ k) m) := by
  refine forUp_keeps P h fun stage m hs hm => ?_
  refine forUp_keeps P hm fun j m hj hm => ?_
  refine forUp_keeps P hm fun i m hi hm => ?_
  have hj' : j < 2 ^ stage := by simpa [Nat.one_shiftLeft] using hj
  have := fft_index_lt hs hj' hi
  exact butterfly_keeps d _ _ _ _ _ m hw (by omega) (by omega) hm

/-! ## BITREV and UNPACK -/

/-- What BITREV lists (R210). -/
theorem find_bitrevCbuf (old : Nat → Word) (logn n : Nat) (m : Memory 32) (j : Nat) :
    (bitrevCbuf old logn n m).find j =
      if j < 2 * n then
        some (if j % 2 = 0 then old (2 * brev logn (j / 2)) else old (2 * brev logn (j / 2) + 1))
      else m.find j := by
  unfold bitrevCbuf
  exact find_forUp_pair_zero (fun k => old (2 * brev logn k)) (fun k => old (2 * brev logn k + 1)) m n j

/-- What the bins of UNPACK list: cells `2 .. 2*cnt+1` (R216). -/
theorem find_unpackBins (old : Nat → Word) (draw n cnt : Nat) (m : Memory 32) (j : Nat) :
    (unpackBins old draw n cnt m).find j =
      if 2 ≤ j ∧ j < 2 * (cnt + 1) then
        some (if j % 2 = 0 then fadd ⟨draw, 0, j / 2, 0⟩ (old (2 * (j / 2))) (old (2 * (n - j / 2)))
          else fsub ⟨draw, 0, j / 2, 1⟩ (old (2 * (j / 2) + 1)) (old (2 * (n - j / 2) + 1)))
      else m.find j := by
  unfold unpackBins
  rw [find_forUp_pair 1
    (fun k' => fadd ⟨draw, 0, k' + 1, 0⟩ (old (2 * (k' + 1))) (old (2 * (n - (k' + 1)))))
    (fun k' => fsub ⟨draw, 0, k' + 1, 1⟩ (old (2 * (k' + 1) + 1)) (old (2 * (n - (k' + 1)) + 1)))]
  by_cases h : 2 ≤ j ∧ j < 2 * (cnt + 1)
  · have h1 : j / 2 - 1 + 1 = j / 2 := by omega
    simp only [h1, Nat.mul_one]
  · simp only [Nat.mul_one, if_neg h]

/-- What UNPACK lists in the lower half, and that it lists nothing past the buffer (R216). -/
theorem find_unpackCbuf (old : Nat → Word) (draw n : Nat) (hn : 2 ≤ n) (m : Memory 32) (j : Nat) :
    (unpackCbuf old draw n m).find j =
      if n ≤ j ∧ j < n + n then some (Config.unpackUpper draw j)
      else if 2 ≤ j ∧ j < 2 * (n / 2) then
        some (if j % 2 = 0 then fadd ⟨draw, 0, j / 2, 0⟩ (old (2 * (j / 2))) (old (2 * (n - j / 2)))
          else fsub ⟨draw, 0, j / 2, 1⟩ (old (2 * (j / 2) + 1)) (old (2 * (n - j / 2) + 1)))
      else if j = 1 then some posZero
      else if j = 0 then some (old 0)
      else m.find j := by
  unfold unpackCbuf unpackUpperHalf
  rw [find_forUp_write n (fun i => Config.unpackUpper draw (n + i))]
  by_cases h : n ≤ j ∧ j < n + n
  · have : n + (j - n) = j := by omega
    rw [if_pos h, if_pos h, this]
  · rw [if_neg h, if_neg h, find_unpackBins]
    have : 2 * (n / 2 - 1 + 1) = 2 * (n / 2) := by omega
    rw [this]
    simp only [Memory.find_write]

/-- A property kept by every write below `2N` is kept by UNPACK. -/
theorem unpackCbuf_keeps {P : Memory 32 → Prop} (old : Nat → Word) (draw n : Nat) (hn : 2 ≤ n)
    (hw : ∀ m i v, i < 2 * n → P m → P (Memory.write m i v)) {m : Memory 32} (h : P m) :
    P (unpackCbuf old draw n m) := by
  refine forUp_keeps P ?_ fun i m hi hm => hw _ _ _ (by omega) hm
  refine forUp_keeps P ?_ fun i m hi hm => hw _ _ _ (by omega) (hw _ _ _ (by omega) hm)
  exact hw _ _ _ (by omega) (hw _ _ _ (by omega) h)

/-- A property kept by every write below `2N` is kept by BITREV. -/
theorem bitrevCbuf_keeps {P : Memory 32 → Prop} (old : Nat → Word) (logn n : Nat)
    (hw : ∀ m i v, i < 2 * n → P m → P (Memory.write m i v)) {m : Memory 32} (h : P m) :
    P (bitrevCbuf old logn n m) :=
  forUp_keeps P h fun i m hi hm => hw _ _ _ (by omega) (hw _ _ _ (by omega) hm)

end Sys2Proof.Machine
end

