-- ==== Sys2Proof/Laws/Step.lean ====
section
/-! SUPPORT. What a step and each meaning can do, said once: if it answers a next state, then one of these
cases holds. -/

namespace Sys2Proof.Machine

variable {s t : State}

/-! ## The step (R14, R100) -/

/-- The consumer's move runs the operation of PH. -/
theorem step_consumer (h : s.env.nextMove = .consumer) :
    step s = exec (decodePhase s.ph) (s.setEnv s.env.afterMove) := by
  unfold step
  simp only [h]
  rfl

/-- The channel's event runs NOTIFY. -/
theorem step_irq (h : s.env.nextMove = .irq) :
    step s = exec .notify (s.setEnv s.env.afterMove) := by
  unfold step
  simp only [h]
  rfl

/-- Reset. -/
theorem step_reset (h : s.env.nextMove = .reset) :
    step s = .next (takeReset (s.setEnv s.env.afterMove)) := by
  unfold step
  simp only [h]

/-- A move in which nobody moves. -/
theorem step_idle (h : s.env.nextMove = .idle) : step s = .next (s.setEnv s.env.afterMove) := by
  unfold step
  simp only [h]

/-- What a step can do. -/
theorem step_cases (h : step s = .next t) :
    (s.env.nextMove = .consumer ∧ exec (decodePhase s.ph) (s.setEnv s.env.afterMove) = .next t) ∨
      (s.env.nextMove = .irq ∧ t = (s.setEnv s.env.afterMove).setNf true) ∨
        (s.env.nextMove = .reset ∧ t = takeReset (s.setEnv s.env.afterMove)) ∨
          (s.env.nextMove = .idle ∧ t = s.setEnv s.env.afterMove) := by
  cases hm : s.env.nextMove with
  | consumer =>
    rw [step_consumer hm] at h
    exact .inl ⟨rfl, h⟩
  | irq =>
    rw [step_irq hm] at h
    cases h
    exact .inr (.inl ⟨rfl, rfl⟩)
  | reset =>
    rw [step_reset hm] at h
    cases h
    exact .inr (.inr (.inl ⟨rfl, rfl⟩))
  | idle =>
    rw [step_idle hm] at h
    cases h
    exact .inr (.inr (.inr ⟨rfl, rfl⟩))

/-- A run whose first step answers goes on from there. -/
theorem run_succ {k : Nat} (h : step s = .next t) :
    Host.Core.run core (k + 1) s = Host.Core.run core k t := by
  have h' : core.step s = .next t := h
  simp only [Host.Core.run, h']

/-- The phase code of each phase of the run decodes to its operation (R102). -/
theorem decodePhase_notify (p : Phase) : decodePhase p ≠ .notify := by
  revert p
  decide

/-! ## The meanings: what a next state is -/

theorem execCfgchk_next (h : execCfgchk s = .next t) :
    (s.cfg.lengthLegal = true ∧ t = s.setPh P_TWINIT) ∨
      (s.cfg.lengthLegal = false ∧ t = raiseFatal .invalidLength s) := by
  unfold execCfgchk at h
  split at h
  · cases h
    exact .inl ⟨‹_›, rfl⟩
  · rename_i hc
    cases h
    exact .inr ⟨Bool.eq_false_iff.2 hc, rfl⟩

theorem execStart_next (h : execStart s = .next t) :
    (s.env.starts = [] ∧ t = s) ∨
      (∃ r rs, s.env.starts = r :: rs ∧
        ((r = 0#1 ∧
            t = ((s.setEnv s.env.afterStart).send (startRequest s.cfg)).setPh P_WAIT) ∨
          (r ≠ 0#1 ∧
            t = raiseFatal .configError
              ((s.setEnv s.env.afterStart).send (startRequest s.cfg))))) := by
  unfold execStart at h
  cases hs : s.env.starts with
  | nil =>
    rw [hs] at h
    cases h
    exact .inl ⟨rfl, rfl⟩
  | cons r rs =>
    rw [hs] at h
    refine .inr ⟨r, rs, rfl, ?_⟩
    by_cases hr : r = 0#1
    · simp only [hr, if_true] at h
      cases h
      exact .inl ⟨hr, rfl⟩
    · simp only [hr, if_false] at h
      cases h
      exact .inr ⟨hr, rfl⟩

theorem execWait_next (h : execWait s = .next t) :
    (s.nf = true ∧ t = (s.setNf false).setPh P_READ) ∨ (s.nf = false ∧ t = s) := by
  unfold execWait at h
  split at h
  · cases h
    exact .inl ⟨‹_›, rfl⟩
  · rename_i hc
    cases h
    exact .inr ⟨Bool.eq_false_iff.2 hc, rfl⟩

theorem execFft_next (h : execFft s = .next t) :
    s.cfg.lenPow2 = true ∧
      t = (s.setCbuf (fftCbuf (Config.unwrittenWord s.launch .cbuf) s.twAt s.draws s.logn s.len
        s.cbuf)).bump.setPh P_BITREV := by
  unfold execFft at h
  split at h
  · cases h
    exact ⟨‹_›, rfl⟩
  · cases h

theorem execBitrev_next (h : execBitrev s = .next t) :
    s.cfg.lenPow2 = true ∧
      t = (s.setCbuf (bitrevCbuf s.cbufAt s.logn s.len s.cbuf)).setPh P_UNPACK := by
  unfold execBitrev at h
  split at h
  · cases h
    exact ⟨‹_›, rfl⟩
  · cases h

theorem execUnpack_next (h : execUnpack s = .next t) :
    s.cfg.lenPow2 = true ∧
      t = (s.setCbuf (unpackCbuf s.cbufAt s.draws s.len s.cbuf)).bump.setPh P_MAG := by
  unfold execUnpack at h
  split at h
  · cases h
    exact ⟨‹_›, rfl⟩
  · cases h

theorem execRender_next (h : execRender s = .next t) :
    (s.env.rendererAccepts = true ∧
        t = ((s.setEnv s.env.afterRender).send (.rndr (renderMessage s))).setPh P_YIELD) ∨
      (s.env.rendererAccepts = false ∧ t = s.setEnv s.env.afterRender) := by
  unfold execRender at h
  split at h
  · cases h
    exact .inl ⟨‹_›, rfl⟩
  · rename_i hc
    cases h
    exact .inr ⟨Bool.eq_false_iff.2 hc, rfl⟩

/-! ## What the table and buffer writing operations list -/

/-- What TWINIT lists (R143). -/
theorem find_twTable (c : Cfg) (m : Memory 32) (j : Nat) :
    (twTable c m).find j =
      if j < 2 * (c.len / 2) then
        some (if j % 2 = 0 then (Cfg.twNomAt c (j / 2)).1 else (Cfg.twNomAt c (j / 2)).2)
      else m.find j :=
  find_forUp_pair_zero (fun i => (Cfg.twNomAt c i).1) (fun i => (Cfg.twNomAt c i).2) m _ j

/-- What GENWIN lists (R145). -/
theorem find_winTable (c : Cfg) (m : Memory 32) (j : Nat) :
    (winTable c m).find j = if j < c.len then some (Cfg.winNomAt c j) else m.find j :=
  find_forUp_write_zero (Cfg.winNomAt c) m _ j

/-- What WINDOW lists (R190). -/
theorem find_windowedFrame (s : State) (j : Nat) :
    (windowedFrame s).find j =
      if j < 2 * s.len then some (if j % 2 = 0 then windowedSample s (j / 2) else posZero)
      else s.cbuf.find j :=
  find_forUp_pair_zero (windowedSample s) (fun _ => posZero) s.cbuf _ j

/-- The renderer message lists the cells in index order (R109). -/
theorem specCells_eq_map (s : State) (k : Nat) : specCells s k = (List.range k).map s.specAt := by
  induction k with
  | zero => rfl
  | succ k ih => rw [specCells, ih, List.range_succ, List.map_append]; rfl

end Sys2Proof.Machine
end

