-- ==== Sys2Proof/Laws/Liveness.lean ====
section
/-! SUPPORT. What the fairness premises of R326 and R247 give: a run of the run loop that meets them reaches
an iteration boundary again and again, and one frame follows every frame start. -/

namespace Sys2Proof.Machine

namespace Safety

variable (r : Safety.Run)

/-- The state before a step and the state it runs in differ in the environment alone. -/
theorem Run.state_fields (n : Nat) :
    (r.state n).ph = (r.before n).ph ∧ (r.state n).nf = (r.before n).nf ∧
      (r.state n).fill = (r.before n).fill ∧ (r.state n).cfg = (r.before n).cfg :=
  ⟨rfl, rfl, rfl, rfl⟩

/-- Every step of a run is answered. -/
theorem Run.step_state (n : Nat) : step (r.state n) = .next (r.before (n + 1)) := r.answered n

/-- The consumer's step runs the operation of its phase. -/
theorem Run.exec_of_runs {n : Nat} {p : Phase} (h : r.runs n p) :
    exec (decodePhase p) ((r.state n).setEnv (r.state n).env.afterMove) = .next (r.before (n + 1)) := by
  rw [← h.2, ← step_consumer h.1]
  exact r.step_state n

variable {r}

/-- A step that is not the consumer's leaves phase, progress and configuration, and loses no wake. -/
theorem Run.other_step (hf : Fair r) {n : Nat} (h : (r.state n).env.nextMove ≠ .consumer) :
    (r.state (n + 1)).ph = (r.state n).ph ∧
      ((r.state n).nf = true ∨ (r.state n).env.nextMove = .irq → (r.state (n + 1)).nf = true) ∧
        ((r.state n).env.nextMove ≠ .irq → (r.state (n + 1)).nf = (r.state n).nf) ∧
          (r.state (n + 1)).fill = (r.state n).fill ∧ (r.state (n + 1)).cfg = (r.state n).cfg := by
  rcases step_cases (r.step_state n) with ⟨hm, -⟩ | ⟨hm, ht⟩ | ⟨hm, -⟩ | ⟨hm, ht⟩
  · exact absurd hm h
  · simp only [hm]
    simp [Run.state, ht]
  · exact absurd hm (hf.noReset n)
  · simp only [hm]
    simp [Run.state, ht]

/-- The consumer's next step comes, in the phase, with the progress and with the wake it now has. -/
theorem Run.next_consumer_step (hf : Fair r) (n : Nat) :
    ∃ m, n ≤ m ∧ r.runs m (r.state n).ph ∧ ((r.state n).nf = true → (r.state m).nf = true) ∧
      (r.state m).fill = (r.state n).fill ∧ (r.state m).cfg = (r.state n).cfg := by
  obtain ⟨m, hnm, hm⟩ := hf.consumer n
  obtain ⟨d, rfl⟩ := Nat.exists_eq_add_of_le hnm
  clear hnm
  induction d generalizing n with
  | zero => exact ⟨n, le_rfl, ⟨hm, rfl⟩, id, rfl, rfl⟩
  | succ d ih =>
    by_cases hc : (r.state n).env.nextMove = .consumer
    · exact ⟨n, le_rfl, ⟨hc, rfl⟩, id, rfl, rfl⟩
    · obtain ⟨h1, h2, -, h4, h5⟩ := Run.other_step hf hc
      obtain ⟨m, hnm, hr, hn, hfl, hcf⟩ := ih (n + 1) (by rwa [Nat.add_right_comm, Nat.add_assoc])
      rw [h1] at hr
      exact ⟨m, by omega, hr, fun h => hn (h2 (.inl h)), hfl.trans h4, hcf.trans h5⟩

/-- A phase whose operation always goes on is left for its successor. -/
theorem Run.advance (hf : Fair r) {p q : Phase} {n : Nat}
    (hpq : ∀ s t, exec (decodePhase p) s = .next t → t.ph = q) (hp : (r.state n).ph = p) :
    ∃ m, n ≤ m ∧ (r.state m).ph = q := by
  obtain ⟨m, hnm, hr, -⟩ := Run.next_consumer_step hf n
  rw [hp] at hr
  have h := hpq _ _ (r.exec_of_runs hr)
  exact ⟨m + 1, by omega, h⟩

/-! ## From the complete frame to the boundary -/

/-- A boundary comes at step `n` or later. -/
def Run.boundaryFrom (r : Safety.Run) (n : Nat) : Prop := ∃ m, n ≤ m ∧ r.boundary m

theorem Run.boundaryFrom_mono {n m : Nat} (h : n ≤ m) : r.boundaryFrom m → r.boundaryFrom n :=
  fun ⟨k, hk, hb⟩ => ⟨k, h.trans hk, hb⟩

/-- If some property fails from `n` on at some point, there is a last step at which it holds. -/
theorem exists_last {P : Nat → Prop} {n m : Nat} (hn : P n) (hnm : n ≤ m) (hm : ¬ P m) :
    ∃ k, n ≤ k ∧ P k ∧ ¬ P (k + 1) := by
  by_contra hno
  push Not at hno
  exact hm (Nat.le_induction hn (fun k hk h => hno k hk h) m hnm)

theorem Run.boundary_of_yield (hf : Fair r) {n : Nat} (hp : (r.state n).ph = P_YIELD) :
    r.boundaryFrom n := by
  obtain ⟨m, hnm, hr, -⟩ := Run.next_consumer_step hf n
  rw [hp] at hr
  exact ⟨m, hnm, hr.1, hr.2, r.step_state m⟩

theorem Run.boundary_of_render (hf : Fair r) {n : Nat} (hp : (r.state n).ph = P_RENDER) :
    r.boundaryFrom n := by
  have hex : ∃ m, n ≤ m ∧ ¬ (r.state m).ph = P_RENDER := by
    by_contra hno
    push Not at hno
    obtain ⟨m, hnm, hr, ha⟩ := hf.renderer n hno
    have he : execRender _ = .next _ := r.exec_of_runs hr
    rcases execRender_next he with ⟨-, ht⟩ | ⟨hb, -⟩
    · have h := hno (m + 1) (by omega)
      simp [Run.state, ht] at h
    · have hb' : (r.state m).env.rendererAccepts = false := hb
      rw [ha] at hb'
      cases hb'
  obtain ⟨m, hnm, hm⟩ := hex
  obtain ⟨k, hnk, hk, hk'⟩ := exists_last (P := fun m => (r.state m).ph = P_RENDER) hp hnm hm
  refine Run.boundaryFrom_mono (by omega : n ≤ k + 1) (Run.boundary_of_yield hf ?_)
  by_cases hc : (r.state k).env.nextMove = .consumer
  · have he : execRender _ = .next _ := r.exec_of_runs ⟨hc, hk⟩
    rcases execRender_next he with ⟨-, ht⟩ | ⟨-, ht⟩
    · simp [Run.state, ht]
    · exact absurd (by simpa [Run.state, ht] using hk) hk'
  · exact absurd ((Run.other_step hf hc).1.trans hk) hk'

/-- From a phase that goes on to one with a boundary ahead, there is a boundary ahead. -/
theorem Run.boundary_via (hf : Fair r) {p q : Phase} {n : Nat} (hp : (r.state n).ph = p)
    (hpq : ∀ s t, exec (decodePhase p) s = .next t → t.ph = q)
    (hq : ∀ m, (r.state m).ph = q → r.boundaryFrom m) : r.boundaryFrom n := by
  obtain ⟨m, hnm, hm⟩ := Run.advance hf hpq hp
  exact Run.boundaryFrom_mono hnm (hq m hm)

/-! ## From WAIT to the complete frame -/

/-- The frame is being acquired: phase P_WAIT or P_READ. -/
def Run.acquiring (r : Safety.Run) (n : Nat) : Prop :=
  (r.state n).ph = P_WAIT ∨ (r.state n).ph = P_READ

/-- What READ does to the progress counter (R166, R167): it advances by the whole words of an Ok response,
which fit in the frame, and the successor tells whether the frame is complete. -/
theorem execRead_progress {s t : State} (h : execRead s = .next t) :
    t.cfg = s.cfg ∧ t.env = s.env.afterRead ∧ s.fill ≤ t.fill ∧
      ((t.ph = P_WAIT ∧ t.fill ≠ s.len) ∨ t.ph = P_WINDOW) ∧
      (s.env.nextRead.status = 0b00#2 → 0 < s.env.nextRead.count.toNat →
        s.fill < t.fill ∧ t.fill ≤ s.len) := by
  obtain ⟨hc, rfl⟩ := execRead_next s h
  rw [readContract_none_iff] at hc
  set s' := (s.setEnv s.env.afterRead).send (.rdReq (readMaxLen s)) with hs'
  obtain ⟨ws, -, hfill, -, hfr⟩ := readBody_frame s' s.env.nextRead
  have hcfg : (readBody s' s.env.nextRead).cfg = s.cfg := by rw [hfr]; rfl
  have henv : (readBody s' s.env.nextRead).env = s.env.afterRead := by rw [hfr]; rfl
  refine ⟨hcfg, henv, ?_, ?_, fun hok hpos => ?_⟩
  · rw [State.setPh_fill, hfill]
    exact Nat.le_add_right _ _
  · rw [State.setPh_ph, State.setPh_fill]
    unfold readNext State.len
    rw [hcfg]
    split
    · exact .inr rfl
    · exact .inl ⟨rfl, ‹_›⟩
  · have hB := layout_wordBytes_pos s
    have h1 := readMaxLen_le s
    have hlt : s.fill ≤ s.len := by
      by_contra hgt
      rw [Nat.sub_eq_zero_of_le (by omega), Nat.zero_mul] at h1
      omega
    have hfit := fill_add_words_le s hlt hc.1
    have hw : 0 < s.env.nextRead.count.toNat / s.layout.wordBytes := by
      rw [Nat.div_pos_iff]
      exact ⟨hB, Nat.le_of_dvd hpos (Nat.dvd_of_mod_eq_zero hc.2.1)⟩
    have hok' : (readBody s' s.env.nextRead).fill =
        s.fill + s.env.nextRead.count.toNat / s.layout.wordBytes := by
      unfold readBody
      rw [hok]
      simp [statusOfCode, statusRecord, hs']
    rw [State.setPh_fill, hok']
    omega

/-- While the frame is acquired, progress is kept, and only a complete frame ends it. -/
theorem Run.acquiring_step (hf : Fair r) {n : Nat} (h : r.acquiring n) :
    (r.acquiring (n + 1) ∨ (r.state (n + 1)).ph = P_WINDOW) ∧
      (r.state n).fill ≤ (r.state (n + 1)).fill ∧
        (r.state (n + 1)).cfg = (r.state n).cfg := by
  by_cases hc : (r.state n).env.nextMove = .consumer
  · rcases h with hp | hp
    · have he : execWait _ = .next _ := r.exec_of_runs ⟨hc, hp⟩
      rcases execWait_next he with ⟨-, ht⟩ | ⟨-, ht⟩
      · exact ⟨.inl (.inr (by simp [Run.state, ht])), by simp [Run.state, ht], by simp [Run.state, ht]⟩
      · refine ⟨.inl (.inl ?_), by simp [Run.state, ht], by simp [Run.state, ht]⟩
        simpa [Run.state, ht] using hp
    · have he : execRead _ = .next _ := r.exec_of_runs ⟨hc, hp⟩
      obtain ⟨h1, -, h2, h3, -⟩ := execRead_progress he
      exact ⟨h3.imp (fun h => .inl h.1) id, h2, h1⟩
  · obtain ⟨h1, -, -, h4, h5⟩ := Run.other_step hf hc
    refine ⟨.inl ?_, h4.ge, h5⟩
    unfold Run.acquiring
    rwa [h1]

/-- A blocked consumer is woken: every WAIT comes to a READ (R326 (a), R80 (c)). -/
theorem Run.read_comes (hf : Fair r) {n : Nat} (h : r.acquiring n) :
    ∃ m, n ≤ m ∧ r.runs m P_READ := by
  have hread : ∀ n, (r.state n).ph = P_READ → ∃ m, n ≤ m ∧ r.runs m P_READ := by
    intro n hp
    obtain ⟨m, hnm, hr, -⟩ := Run.next_consumer_step hf n
    rw [hp] at hr
    exact ⟨m, hnm, hr⟩
  have hwake : ∀ n, (r.state n).ph = P_WAIT → (r.state n).nf = true → ∃ m, n ≤ m ∧ r.runs m P_READ := by
    intro n hp hn
    obtain ⟨m, hnm, hr, hnf, -⟩ := Run.next_consumer_step hf n
    rw [hp] at hr
    have he : execWait _ = .next _ := r.exec_of_runs hr
    rcases execWait_next he with ⟨-, ht⟩ | ⟨hb, -⟩
    · obtain ⟨k, hk, hr⟩ := hread (m + 1) (by simp [Run.state, ht])
      exact ⟨k, by omega, hr⟩
    · have hb' : (r.state m).nf = false := hb
      rw [hnf hn] at hb'
      cases hb'
  rcases h with hp | hp
  · cases hn : (r.state n).nf with
    | true => exact hwake n hp hn
    | false =>
      obtain ⟨data, hdata, hev⟩ := hf.events
      obtain ⟨m, hnm, hm⟩ := hev n ⟨hp, hn⟩ (hdata n)
      obtain ⟨d, rfl⟩ := Nat.exists_eq_add_of_le hnm
      clear hnm hdata hev
      induction d generalizing n with
      | zero =>
        have hm0 : (r.state n).env.nextMove = .irq := hm
        obtain ⟨h1, h2, -⟩ := Run.other_step hf (n := n) (by rw [hm0]; decide)
        obtain ⟨k, hk, hr⟩ := hwake (n + 1) (h1.trans hp) (h2 (.inr hm0))
        exact ⟨k, by omega, hr⟩
      | succ d ih =>
        have hm' : (r.state (n + 1 + d)).env.nextMove = .irq := by
          rwa [Nat.add_right_comm, Nat.add_assoc]
        have hnext : (r.state (n + 1)).ph = P_WAIT ∧
            ((r.state (n + 1)).nf = false ∨ (r.state (n + 1)).nf = true) := by
          refine ⟨?_, (Bool.eq_false_or_eq_true _).symm⟩
          by_cases hc : (r.state n).env.nextMove = .consumer
          · have he : execWait _ = .next _ := r.exec_of_runs ⟨hc, hp⟩
            rcases execWait_next he with ⟨hb, -⟩ | ⟨-, ht⟩
            · have hb' : (r.state n).nf = true := hb
              rw [hn] at hb'
              cases hb'
            · simpa [Run.state, ht] using hp
          · exact (Run.other_step hf hc).1.trans hp
        obtain ⟨k, hk, hr⟩ : ∃ k, n + 1 ≤ k ∧ r.runs k P_READ := by
          rcases hnext.2 with hn' | hn'
          · exact ih hnext.1 hn' hm'
          · exact hwake (n + 1) hnext.1 hn'
        exact ⟨k, by omega, hr⟩
  · exact hread n hp

/-- Acquisition ends: events keep coming and reads deliver, so the frame gets complete (R326). -/
theorem Run.window_comes (hf : Fair r) {n : Nat} (h : r.acquiring n) :
    ∃ m, n ≤ m ∧ (r.state m).ph = P_WINDOW := by
  obtain ⟨d, hd⟩ : ∃ d, (r.state n).len - (r.state n).fill ≤ d := ⟨_, le_rfl⟩
  induction d using Nat.strong_induction_on generalizing n with
  | _ d ih =>
    by_contra hno
    push Not at hno
    have hstay : ∀ m, n ≤ m → r.acquiring m ∧ (r.state n).fill ≤ (r.state m).fill ∧
        (r.state m).cfg = (r.state n).cfg := by
      intro m hnm
      induction m, hnm using Nat.le_induction with
      | base => exact ⟨h, le_rfl, rfl⟩
      | succ m hnm ihm =>
        obtain ⟨h1, h2, h3⟩ := Run.acquiring_step hf ihm.1
        exact ⟨h1.resolve_right (hno _ (by omega)), ihm.2.1.trans h2, h3.trans ihm.2.2⟩
    obtain ⟨m, hnm, hrun, hok, hpos⟩ := hf.reads n fun k hk => Run.read_comes hf (hstay k hk).1
    have he : execRead _ = .next _ := r.exec_of_runs hrun
    obtain ⟨-, -, -, -, hdel⟩ := execRead_progress he
    obtain ⟨hlt, hle⟩ := hdel hok hpos
    have hlt' : (r.state m).fill < (r.state (m + 1)).fill := hlt
    have hle' : (r.state (m + 1)).fill ≤ (r.state m).len := hle
    obtain ⟨-, hm2, hm3⟩ := hstay m hnm
    obtain ⟨h1, -, h3⟩ := hstay (m + 1) (by omega)
    have e1 : (r.state m).len = (r.state n).len := congrArg Cfg.len hm3
    have e2 : (r.state (m + 1)).len = (r.state n).len := congrArg Cfg.len h3
    obtain ⟨k, hk, hw⟩ := ih ((r.state (m + 1)).len - (r.state (m + 1)).fill) (by omega) h1 le_rfl
    exact hno k (by omega) hw

/-! ## Boundaries recur -/

/-- The run loop: from P_WAIT to P_YIELD (R251). -/
def inRunLoop (s : State) : Prop := 4 ≤ s.ph.toNat ∧ s.ph.toNat ≤ 13

theorem phase_of_inRunLoop {p : Phase} (h1 : 4 ≤ p.toNat) (h2 : p.toNat ≤ 13) :
    p = P_WAIT ∨ p = P_READ ∨ p = P_WINDOW ∨ p = P_FFT ∨ p = P_BITREV ∨ p = P_UNPACK ∨ p = P_MAG ∨
      p = P_SUPPRESS ∨ p = P_RENDER ∨ p = P_YIELD := by
  revert p
  decide

/-- R326 with its premises stated: a fair run that is in the run loop reaches an iteration boundary. From a
complete frame on, nothing but the renderer is waited for (R251). -/
theorem Fair.boundary_comes (hf : Fair r) {n : Nat} (h : inRunLoop (r.state n)) :
    ∃ m, n ≤ m ∧ r.boundary m := by
  have hRender (n) (hp : (r.state n).ph = P_RENDER) := Run.boundary_of_render hf hp
  have hSuppress (n) (hp : (r.state n).ph = P_SUPPRESS) :=
    Run.boundary_via hf hp (by rintro s t ⟨⟩; rfl) hRender
  have hMag (n) (hp : (r.state n).ph = P_MAG) :=
    Run.boundary_via hf hp (by rintro s t ⟨⟩; rfl) hSuppress
  have hUnpack (n) (hp : (r.state n).ph = P_UNPACK) :=
    Run.boundary_via hf hp (fun s t h => by rw [(execUnpack_next h).2]; rfl) hMag
  have hBitrev (n) (hp : (r.state n).ph = P_BITREV) :=
    Run.boundary_via hf hp (fun s t h => by rw [(execBitrev_next h).2]; rfl) hUnpack
  have hFft (n) (hp : (r.state n).ph = P_FFT) :=
    Run.boundary_via hf hp (fun s t h => by rw [(execFft_next h).2]; rfl) hBitrev
  have hWindow (n) (hp : (r.state n).ph = P_WINDOW) :=
    Run.boundary_via hf hp (by rintro s t ⟨⟩; rfl) hFft
  have hAcquire (n) (hp : r.acquiring n) : r.boundaryFrom n := by
    obtain ⟨m, hnm, hm⟩ := Run.window_comes hf hp
    exact Run.boundaryFrom_mono hnm (hWindow m hm)
  rcases phase_of_inRunLoop h.1 h.2 with hp | hp | hp | hp | hp | hp | hp | hp | hp | hp
  · exact hAcquire n (.inl hp)
  · exact hAcquire n (.inr hp)
  · exact hWindow n hp
  · exact hFft n hp
  · exact hBitrev n hp
  · exact hUnpack n hp
  · exact hMag n hp
  · exact hSuppress n hp
  · exact hRender n hp
  · exact Run.boundary_of_yield hf hp

/-- A frame starts in P_WAIT (R254, R255). -/
theorem frameStart_ph {s t : State} (h : frameStart s t) : t.ph = P_WAIT := by
  rcases h with ⟨hm, hp, ht⟩ | ⟨-, -, -, ht⟩
  · rw [step_consumer hm, hp] at ht
    cases ht
    rfl
  · exact ht

/-- After a frame start the run is in the run loop. -/
theorem inRunLoop_of_frameStart {a : Nat} (h : frameStart (r.state a) (r.before (a + 1))) :
    inRunLoop (r.state (a + 1)) := by
  have hb := frameStart_ph h
  have hp : (r.state (a + 1)).ph = P_WAIT := hb
  unfold inRunLoop
  rw [hp]
  decide

/-- A fair run that is in the run loop reaches boundaries for ever: "runs until process termination"
(R253). -/
theorem Fair.boundaries_recur (hf : Fair r) {n : Nat} (h : inRunLoop (r.state n)) (k : Nat) :
    ∃ m, k ≤ m ∧ r.boundary m := by
  induction k with
  | zero =>
    obtain ⟨m, -, hb⟩ := hf.boundary_comes h
    exact ⟨m, Nat.zero_le m, hb⟩
  | succ k ih =>
    obtain ⟨m, hkm, hb⟩ := ih
    obtain ⟨m', hm', hb'⟩ := hf.boundary_comes (inRunLoop_of_frameStart (.inl hb))
    exact ⟨m', by omega, hb'⟩

/-- One frame follows every frame start of a fair run (R254). -/
theorem Fair.frame_completes (hf : Fair r) {a : Nat} (h : frameStart (r.state a) (r.before (a + 1))) :
    ∃ b, r.oneFrame a b := by
  classical
  have hex : ∃ b, a < b ∧ r.boundary b := hf.boundary_comes (inRunLoop_of_frameStart h)
  obtain ⟨hab, hb⟩ := Nat.find_spec hex
  exact ⟨Nat.find hex, h, hab, hb, fun n han hnb =>
    ⟨fun hn => Nat.find_min hex hnb ⟨han, hn⟩, hf.noReset n⟩⟩

/-- In a state that meets the invariant a boundary has the register values of R254 and R255. -/
theorem iterationBoundary_registers {s t : State} (hi : Inv s) (h : iterationBoundary s t) :
    boundaryRegisters t = true ∧
      t = { s with ph := P_WAIT, out := s.out ++ [.yieldEvt], env := s.env.afterMove } := by
  obtain ⟨hm, hp, ht⟩ := h
  have hz : s.fill = 0 := hi.fillZero (by rw [hp]; decide) (by rw [hp]; decide) (by rw [hp]; decide)
  have hc : s.cause = 0#2 := by
    by_contra hne
    have := hi.haltCause.2 hne
    rw [hp] at this
    exact absurd this (by decide)
  rw [step_consumer hm, hp] at ht
  cases ht
  refine ⟨?_, rfl⟩
  simp [boundaryRegisters, hz, hc, State.setEnv, State.send, State.setPh]

end Safety

end Sys2Proof.Machine
end

