-- ==== Sys2Proof/Laws/FairRun.lean ====
section
/-! SUPPORT. The fairness premises of R326 and R247 can be met together: an endless run of length 2 whose
environment wakes a blocked consumer and answers each READ with one sample. -/

namespace Sys2Proof.Machine.Safety

/-- The reset configuration with length 2, blocked in WAIT. -/
def obligingStart : State :=
  (State.launched { Config.launchCfg with n := 2#32 } Env.empty [] 0).setPh P_WAIT

/-- What this environment adds before a step in state `s`. -/
def obligingEnv (s : State) : Env :=
  { Env.empty with
    sched := if s.ph = P_WAIT ∧ s.nf = false then [.irq] else []
    reads := if s.ph = P_READ then [⟨0b00#2, 2#32, [0x64#8, 0x30#8]⟩] else [] }

/-- The states such a run goes through, N = 2. -/
structure Obliging (s : State) : Prop where
  cfg : s.cfg = obligingStart.cfg
  env : s.env = Env.empty
  loop : inRunLoop s
  fill : s.ph = P_WAIT ∨ s.ph = P_READ → s.fill < 2
  zero : s.ph ≠ P_WAIT → s.ph ≠ P_READ → s.ph ≠ P_WINDOW → s.fill = 0

/-- The response this environment gives is accepted while the frame is open. -/
theorem Obliging.accepted {s : State} (h : Obliging s) (hp : s.ph = P_READ) (hf : s.fill < 2) :
    readContract s.layout (readMaxLen s) (obligingEnv s).nextRead = none := by
  have hB : s.layout.wordBytes = 2 := by
    unfold State.layout
    rw [h.cfg]
    rfl
  have hl : s.len = 2 := by
    unfold State.len
    rw [h.cfg]
    rfl
  have hm : (readMaxLen s).toNat = (2 - s.fill) * 2 := by
    unfold readMaxLen
    rw [hB, hl, BitVec.toNat_ofNat]
    omega
  have hr : (obligingEnv s).nextRead = ⟨0b00#2, 2#32, [0x64#8, 0x30#8]⟩ := by
    unfold obligingEnv
    rw [if_pos hp]
    rfl
  rw [readContract_none_iff, hr, hB, hm]
  refine ⟨?_, rfl, rfl⟩
  change 2 ≤ _
  omega

theorem Obliging.of_fill_zero {t : State} (q : Phase) (hc : t.cfg = obligingStart.cfg)
    (he : t.env = Env.empty) (ht : t.ph = q) (hq : 4 ≤ q.toNat ∧ q.toNat ≤ 13) (hf : t.fill = 0) : Obliging t :=
  ⟨hc, he, by unfold inRunLoop; rw [ht]; exact hq, fun _ => by omega, fun _ _ _ => hf⟩

theorem Obliging.exec_next {s : State} (h : Obliging s) (hw : s.ph ≠ P_WAIT) (hr : s.ph ≠ P_READ) :
    ∃ t, exec (decodePhase s.ph) s = .next t ∧ Obliging t := by
  obtain ⟨hc, he, hl, -, hz⟩ := id h
  have hcl : s.cfg.lenPow2 = true := by
    rw [hc]
    decide
  have ha : s.env.rendererAccepts = true := by
    rw [he]
    rfl
  rcases phase_of_inRunLoop hl.1 hl.2 with hp | hp | hp | hp | hp | hp | hp | hp | hp | hp
  · exact absurd hp hw
  · exact absurd hp hr
  · have hx : exec .window s = .next _ := rfl
    rw [hp]
    exact ⟨_, hx, .of_fill_zero P_FFT hc he rfl (by decide) rfl⟩
  all_goals have hf := hz hw hr (by rw [hp]; decide)
  all_goals rw [hp]
  · have hx : exec .fft s = .next _ := if_pos hcl
    exact ⟨_, hx, .of_fill_zero P_BITREV hc he rfl (by decide) hf⟩
  · have hx : exec .bitrev s = .next _ := if_pos hcl
    exact ⟨_, hx, .of_fill_zero P_UNPACK hc he rfl (by decide) hf⟩
  · have hx : exec .unpack s = .next _ := if_pos hcl
    exact ⟨_, hx, .of_fill_zero P_MAG hc he rfl (by decide) hf⟩
  · have hx : exec .mag s = .next _ := rfl
    exact ⟨_, hx, .of_fill_zero P_SUPPRESS hc he rfl (by decide) hf⟩
  · have hx : exec .suppress s = .next _ := rfl
    exact ⟨_, hx, .of_fill_zero P_RENDER hc he rfl (by decide) hf⟩
  · have hx : exec .render s = .next _ := if_pos ha
    refine ⟨_, hx, .of_fill_zero P_YIELD hc ?_ rfl (by decide) hf⟩
    change s.env.afterRender = _
    rw [he]
    rfl
  · have hx : exec .yield s = .next _ := rfl
    exact ⟨_, hx, .of_fill_zero P_WAIT hc he rfl (by decide) hf⟩

/-- Every step with that environment is answered, and the run goes on. -/
theorem Obliging.next {s : State} (h : Obliging s) :
    ∃ t, step (s.setEnv (obligingEnv s)) = .next t ∧ Obliging t := by
  obtain ⟨hc, he, hl, hf, hz⟩ := id h
  by_cases hb : s.ph = P_WAIT ∧ s.nf = false
  · refine ⟨_, step_irq ?_, hc, ?_, hl, hf, hz⟩
    · simp [obligingEnv, hb, Env.nextMove]
    · simp [obligingEnv, hb, Env.afterMove, Env.empty]
  have hm : (obligingEnv s).nextMove = .consumer := by
    simp [obligingEnv, hb, Env.nextMove, Env.empty]
  have hstep : Machine.step (s.setEnv (obligingEnv s)) =
      exec (decodePhase s.ph) ((s.setEnv (obligingEnv s)).setEnv (obligingEnv s).afterMove) :=
    step_consumer hm
  rw [hstep]
  by_cases hp : s.ph = P_READ
  · have hr : (obligingEnv s).afterMove.nextRead = ⟨0b00#2, 2#32, [0x64#8, 0x30#8]⟩ := by
      unfold obligingEnv
      rw [if_pos hp]
      rfl
    have hacc := h.accepted hp (hf (.inr hp))
    have ht := execRead_eq ((s.setEnv (obligingEnv s)).setEnv (obligingEnv s).afterMove) hacc
    obtain ⟨h1, h2, -, h3, h4⟩ := execRead_progress ht
    have hlen : s.len = 2 := by
      unfold State.len
      rw [hc]
      rfl
    have hd := (h4 (by rw [State.setEnv_env, hr]) (by rw [State.setEnv_env, hr]; decide)).2
    rw [hp]
    refine ⟨_, ht, ?_⟩
    generalize State.setPh _ _ = t at h1 h2 h3 hd
    have he' : t.env = Env.empty := by
      rw [h2]
      simp [obligingEnv, hp, Env.afterRead, Env.afterMove, Env.empty]
    simp only [State.setEnv_len, hlen] at hd h3
    rcases h3 with ⟨h3, h5⟩ | h3
    · refine ⟨h1.trans hc, he', ?_, fun _ => by omega, fun h => absurd h3 h⟩
      unfold inRunLoop
      rw [h3]
      decide
    · refine ⟨h1.trans hc, he', ?_, fun h => ?_, fun _ _ h => absurd h3 h⟩
      · unfold inRunLoop
        rw [h3]
        decide
      · rw [h3] at h
        exact absurd h (by decide)
  have hs : (s.setEnv (obligingEnv s)).setEnv (obligingEnv s).afterMove = s := by
    have h1 : (obligingEnv s).afterMove = s.env := by
      rw [he]
      simp [obligingEnv, hb, hp, Env.afterMove, Env.empty]
    rw [h1]
    rfl
  rw [hs]
  by_cases hw : s.ph = P_WAIT
  · have hnf : s.nf = true := by
      cases hn : s.nf
      · exact absurd ⟨hw, hn⟩ hb
      · rfl
    have hx : exec .wait s = .next _ := if_pos hnf
    rw [hw]
    exact ⟨_, hx, hc, he, ⟨(by decide : 4 ≤ P_READ.toNat), (by decide : P_READ.toNat ≤ 13)⟩,
      fun _ => hf (.inl hw), fun _ h => absurd rfl h⟩
  · exact h.exec_next hw hp

theorem obliging_start : Obliging obligingStart :=
  ⟨rfl, rfl, ⟨by decide, by decide⟩, fun _ => by decide, fun h => absurd rfl h⟩

/-- The states of the run, each before the environment's additions. -/
def obligingStates : Nat → State
  | 0 => obligingStart
  | n + 1 =>
    match step ((obligingStates n).setEnv (obligingEnv (obligingStates n))) with
    | .next t => t
    | .fault _ => obligingStates n
    | .refused _ => obligingStates n

theorem obligingStates_step {n : Nat} (h : Obliging (obligingStates n)) :
    step ((obligingStates n).setEnv (obligingEnv (obligingStates n))) =
        .next (obligingStates (n + 1)) ∧ Obliging (obligingStates (n + 1)) := by
  obtain ⟨t, ht, hO⟩ := h.next
  have he : obligingStates (n + 1) = t := by
    rw [obligingStates]
    simp only [ht]
  rw [he]
  exact ⟨ht, hO⟩

theorem obliging_states (n : Nat) : Obliging (obligingStates n) := by
  induction n with
  | zero => exact obliging_start
  | succ n ih => exact (obligingStates_step ih).2

/-- The run. -/
def obligingRun : Run where
  before n := obligingStates n
  env n := obligingEnv (obligingStates n)
  fed n := by
    rw [(obliging_states n).env]
    exact ⟨_, [], _, [], rfl⟩
  answered n := (obligingStates_step (obliging_states n)).1

/-- The premises of the liveness laws hold together, of a run that starts blocked in WAIT. -/
theorem witness_fair_run : Fair obligingRun ∧ obligingRun.blocked 0 ∧
    inRunLoop (obligingRun.state 0) := by
  have hcons (n) (h : ¬ ((obligingStates n).ph = P_WAIT ∧ (obligingStates n).nf = false)) :
      (obligingRun.state n).env.nextMove = .consumer := by
    change (obligingEnv (obligingStates n)).nextMove = _
    simp [obligingEnv, h, Env.nextMove, Env.empty]
  have hirq (n) (h : (obligingStates n).ph = P_WAIT ∧ (obligingStates n).nf = false) :
      (obligingRun.state n).env.nextMove = .irq := by
    change (obligingEnv (obligingStates n)).nextMove = _
    simp [obligingEnv, h, Env.nextMove]
  refine ⟨⟨⟨fun _ => True, fun n => ⟨n, le_rfl, trivial⟩, fun n hb _ => ⟨n, le_rfl, hirq n hb⟩⟩,
    fun n hr => ?_, fun n hr => ?_, fun n => ?_, fun n => ?_⟩, ⟨rfl, rfl⟩, by
      constructor <;> decide⟩
  · obtain ⟨m, hnm, hm⟩ := hr n le_rfl
    have hp : (obligingStates m).ph = P_READ := hm.2
    have hq : (obligingRun.state m).env.nextRead = ⟨0b00#2, 2#32, [0x64#8, 0x30#8]⟩ := by
      change (obligingEnv (obligingStates m)).nextRead = _
      unfold obligingEnv
      rw [if_pos hp]
      rfl
    exact ⟨m, hnm, hm, by rw [hq], by rw [hq]; decide⟩
  · have hp : (obligingStates n).ph = P_RENDER := hr n le_rfl
    exact ⟨n, le_rfl, ⟨hcons n fun h => by rw [hp] at h; exact absurd h.1 (by decide), hp⟩, rfl⟩
  · by_cases h : (obligingStates n).ph = P_WAIT ∧ (obligingStates n).nf = false
    · have hs := obligingRun.step_state n
      rw [step_irq (hirq n h)] at hs
      have hnf : (obligingStates (n + 1)).nf = true := by
        change (obligingRun.before (n + 1)).nf = true
        rw [← Host.Outcome.next.inj hs]
        rfl
      exact ⟨n + 1, by omega, hcons (n + 1) fun h => by rw [hnf] at h; cases h.2⟩
    · exact ⟨n, le_rfl, hcons n h⟩
  · by_cases h : (obligingStates n).ph = P_WAIT ∧ (obligingStates n).nf = false
    · rw [hirq n h]
      decide
    · rw [hcons n h]
      decide

/-- That run reaches an iteration boundary again and again. -/
theorem obligingRun_boundaries_recur (k : Nat) : ∃ m, k ≤ m ∧ obligingRun.boundary m :=
  witness_fair_run.1.boundaries_recur witness_fair_run.2.2 k

end Sys2Proof.Machine.Safety
end

