-- ==== Sys2Proof/Laws/Numerics.lean ====
section
/-! SUPPORT. Rounding, said once: a pattern's value in units of 2^(-149), which pattern is nearest, and
that `roundWord` rounds its exact value once (00_scope.md R21). -/

namespace Sys2Proof.Machine

/-- The value of the low 31 bits of a pattern, in units of 2^(-149); the infinity counts as 2^128. -/
def magUnits (p : Nat) : Nat :=
  (if p / 2 ^ 23 = 0 then p % 2 ^ 23 else 2 ^ 23 + p % 2 ^ 23) * 2 ^ (p / 2 ^ 23 - 1)

theorem magUnits_eq (j g : Nat) (hg : g ≤ 2 ^ 24) (h : j = 0 ∨ 2 ^ 23 ≤ g) :
    magUnits (j * 2 ^ 23 + g) = g * 2 ^ j := by
  unfold magUnits
  by_cases h1 : g < 2 ^ 23
  · have hj : j = 0 := by omega
    subst hj
    have h2 : (0 * 2 ^ 23 + g) / 2 ^ 23 = 0 := by omega
    have h3 : (0 * 2 ^ 23 + g) % 2 ^ 23 = g := by omega
    rw [h2, h3]; simp
  · by_cases h4 : g = 2 ^ 24
    · subst h4
      have h2 : (j * 2 ^ 23 + 2 ^ 24) / 2 ^ 23 = j + 2 := by omega
      have h3 : (j * 2 ^ 23 + 2 ^ 24) % 2 ^ 23 = 0 := by omega
      rw [h2, h3, if_neg (by omega)]
      have : j + 2 - 1 = j + 1 := by omega
      rw [this, pow_succ]; ring
    · have h2 : (j * 2 ^ 23 + g) / 2 ^ 23 = j + 1 := by omega
      have h3 : (j * 2 ^ 23 + g) % 2 ^ 23 = g - 2 ^ 23 := by omega
      rw [h2, h3, if_neg (by omega)]
      have h5 : 2 ^ 23 + (g - 2 ^ 23) = g := by omega
      rw [h5]; simp

/-- Every pattern is of that form. -/
theorem mag_split (p : Nat) : ∃ j g, p = j * 2 ^ 23 + g ∧ g < 2 ^ 24 ∧ (j = 0 ∨ 2 ^ 23 ≤ g) := by
  by_cases h : p < 2 ^ 23
  · exact ⟨0, p, by omega, by omega, .inl rfl⟩
  · refine ⟨p / 2 ^ 23 - 1, p - (p / 2 ^ 23 - 1) * 2 ^ 23, ?_, ?_, .inr ?_⟩ <;> omega

theorem magUnits_succ (j g : Nat) (hg : g < 2 ^ 24) (h : j = 0 ∨ 2 ^ 23 ≤ g) :
    magUnits (j * 2 ^ 23 + g + 1) = magUnits (j * 2 ^ 23 + g) + 2 ^ j := by
  rw [Nat.add_assoc, magUnits_eq j (g + 1) (by omega) (by omega), magUnits_eq j g (by omega) h]
  ring

theorem magUnits_lt_succ (p : Nat) : magUnits p < magUnits (p + 1) := by
  obtain ⟨j, g, rfl, hg, h⟩ := mag_split p
  rw [magUnits_succ j g hg h]
  have : 0 < 2 ^ j := by positivity
  omega

theorem magUnits_strictMono : StrictMono magUnits := strictMono_nat_of_lt_succ magUnits_lt_succ

/-- Nearest from the two neighbours. -/
theorem nearest_of_neighbours {p : Nat} {X : ℝ}
    (hlo : ∀ p', p' + 1 = p → (magUnits p' : ℝ) + magUnits p ≤ 2 * X ∧
      ((magUnits p' : ℝ) + magUnits p = 2 * X → p % 2 = 0))
    (hhi : 2 * X ≤ (magUnits p : ℝ) + magUnits (p + 1) ∧
      (2 * X = (magUnits p : ℝ) + magUnits (p + 1) → p % 2 = 0)) (v : Nat) :
    |(magUnits p : ℝ) - X| ≤ |(magUnits v : ℝ) - X| ∧
      (|(magUnits p : ℝ) - X| = |(magUnits v : ℝ) - X| → v = p ∨ p % 2 = 0) := by
  rcases lt_trichotomy v p with h | h | h
  · obtain ⟨p', rfl⟩ : ∃ p', p = p' + 1 := ⟨p - 1, by omega⟩
    obtain ⟨h1, h2⟩ := hlo p' rfl
    have hv : (magUnits v : ℝ) ≤ magUnits p' := by exact_mod_cast magUnits_strictMono.monotone (by omega)
    have hp : (magUnits p' : ℝ) < magUnits (p' + 1) := by exact_mod_cast magUnits_lt_succ p'
    have e1 : |(magUnits v : ℝ) - X| = X - magUnits v := by rw [abs_of_nonpos]; ring; linarith
    rw [e1]
    refine ⟨abs_le.2 ⟨by linarith, by linarith⟩, fun he => .inr (h2 ?_)⟩
    rcases le_total X (magUnits (p' + 1)) with h3 | h3
    · rw [abs_of_nonneg (by linarith)] at he; linarith
    · rw [abs_of_nonpos (by linarith)] at he; linarith
  · subst h; exact ⟨le_refl _, fun _ => .inl rfl⟩
  · have hv : (magUnits (p + 1) : ℝ) ≤ magUnits v := by exact_mod_cast magUnits_strictMono.monotone h
    have hp : (magUnits p : ℝ) < magUnits (p + 1) := by exact_mod_cast magUnits_lt_succ p
    obtain ⟨h1, h2⟩ := hhi
    have e1 : |(magUnits v : ℝ) - X| = magUnits v - X := by rw [abs_of_nonneg]; linarith
    rw [e1]
    refine ⟨abs_le.2 ⟨by linarith, by linarith⟩, fun he => .inr (h2 ?_)⟩
    rcases le_total X (magUnits p) with h3 | h3
    · rw [abs_of_nonneg (by linarith)] at he; linarith
    · rw [abs_of_nonpos (by linarith)] at he; linarith

/-- The rounded significand of `z = X / 2^j` is nearest, ties to even. -/
theorem nearest_of_sig {j g : Nat} {z : ℝ} (hg : g ≤ 2 ^ 24) (hz : z ≤ 2 ^ 24)
    (hz' : j = 0 ∨ 2 ^ 23 ≤ z) (hj : j = 0 ∨ 2 ^ 23 ≤ g) (h1 : (g : ℝ) - 1 / 2 ≤ z) (h2 : z ≤ g + 1 / 2)
    (ht : z = g - 1 / 2 ∨ z = g + 1 / 2 → g % 2 = 0) (v : Nat) :
    |(magUnits (j * 2 ^ 23 + g) : ℝ) - z * 2 ^ j| ≤ |(magUnits v : ℝ) - z * 2 ^ j| ∧
      (|(magUnits (j * 2 ^ 23 + g) : ℝ) - z * 2 ^ j| = |(magUnits v : ℝ) - z * 2 ^ j| →
        v = j * 2 ^ 23 + g ∨ (j * 2 ^ 23 + g) % 2 = 0) := by
  have hp : (0 : ℝ) < 2 ^ j := by positivity
  have e0 : (magUnits (j * 2 ^ 23 + g) : ℝ) = g * 2 ^ j := by
    rw [magUnits_eq j g hg hj]; push_cast; ring
  have hpar : g % 2 = 0 → (j * 2 ^ 23 + g) % 2 = 0 := by omega
  refine nearest_of_neighbours ?_ ?_ v
  · intro p' hp'
    by_cases hlow : g = 2 ^ 23 ∧ j ≠ 0
    · have hz2 : (g : ℝ) ≤ z := by
        rw [hlow.1]; push_cast
        rcases hz' with h | h
        · exact absurd h hlow.2
        · norm_num at h ⊢; exact h
      have hlt : (magUnits p' : ℝ) < magUnits (j * 2 ^ 23 + g) := by
        rw [← hp']; exact_mod_cast magUnits_lt_succ p'
      have hzz : (g : ℝ) * 2 ^ j ≤ z * 2 ^ j := by gcongr
      constructor
      · linarith
      · intro he; linarith
    · by_cases hg0 : g = 0
      · subst hg0; rcases hj with h | h
        · subst h; omega
        · omega
      · obtain ⟨g', rfl⟩ : ∃ g', g = g' + 1 := ⟨g - 1, by omega⟩
        have hp2 : p' = j * 2 ^ 23 + g' := by omega
        have e1 : (magUnits p' : ℝ) = g' * 2 ^ j := by
          rw [hp2, magUnits_eq j g' (by omega) (by omega)]; push_cast; ring
        rw [e0, e1]
        push_cast at h1 ⊢
        have : (g' : ℝ) + (g' + 1) ≤ 2 * z := by linarith
        constructor
        · nlinarith
        · intro he
          apply hpar; apply ht; left
          have : (g' : ℝ) + (g' + 1) = 2 * z := by
            have := mul_right_cancel₀ hp.ne' (show ((g' : ℝ) + (g' + 1)) * 2 ^ j = (2 * z) * 2 ^ j by linarith)
            exact this
          push_cast; linarith
  · by_cases htop : g = 2 ^ 24
    · have hlt : (magUnits (j * 2 ^ 23 + g) : ℝ) < magUnits (j * 2 ^ 23 + g + 1) := by
        exact_mod_cast magUnits_lt_succ _
      have hzz : z * 2 ^ j ≤ (g : ℝ) * 2 ^ j := by
        have : z ≤ g := by rw [htop]; norm_num at hz ⊢; exact hz
        gcongr
      constructor
      · linarith
      · intro he; linarith
    · have e1 : (magUnits (j * 2 ^ 23 + g + 1) : ℝ) = (g + 1) * 2 ^ j := by
        rw [Nat.add_assoc, magUnits_eq j (g + 1) (by omega) (by omega)]; push_cast; ring
      rw [e0, e1]
      constructor
      · nlinarith
      · intro he
        apply hpar; apply ht; right
        have := mul_right_cancel₀ hp.ne' (show (2 * z) * 2 ^ j = ((g : ℝ) + (g + 1)) * 2 ^ j by linarith)
        linarith


/-- What `roundShift` does: with the exact value `y` in units of `2^(-k)`, nearest and ties to even. -/
theorem roundShift_spec {m k : Nat} {sticky : Bool} {y : ℝ} (hk : 1 ≤ k) (hy : (m : ℝ) ≤ y)
    (hy' : y < m + 1) (hs : sticky = false → y = m) (hs' : sticky = true → (m : ℝ) < y) :
    ((roundShift m k sticky : ℝ) - 1 / 2 ≤ y / 2 ^ k ∧ y / 2 ^ k ≤ roundShift m k sticky + 1 / 2) ∧
      (y / 2 ^ k = roundShift m k sticky - 1 / 2 ∨ y / 2 ^ k = roundShift m k sticky + 1 / 2 →
        roundShift m k sticky % 2 = 0) := by
  obtain ⟨k', rfl⟩ : ∃ k', k = k' + 1 := ⟨k - 1, by omega⟩
  have hdm := Nat.div_add_mod m (2 ^ (k' + 1))
  have hlt := Nat.mod_lt m (show 0 < 2 ^ (k' + 1) by positivity)
  unfold roundShift
  simp only [Nat.add_sub_cancel]
  generalize m / 2 ^ (k' + 1) = t at *
  generalize m % 2 ^ (k' + 1) = r at *
  have hp : (0 : ℝ) < 2 ^ (k' + 1) := by positivity
  have hmc : (m : ℝ) = 2 ^ (k' + 1) * t + r := by rw [← hdm]; push_cast; ring
  have hpow : (2 : ℝ) ^ (k' + 1) = 2 * 2 ^ k' := by rw [pow_succ]; ring
  have hpown : 2 ^ (k' + 1) = 2 * 2 ^ k' := by rw [pow_succ]; ring
  have hup : 2 ^ k' < r ∨ r = 2 ^ k' ∨ r + 1 ≤ 2 ^ k' := by omega
  -- y = t * 2^(k'+1) + w with 0 ≤ w < 2^(k'+1)
  obtain ⟨w, hw⟩ : ∃ w, y = 2 ^ (k' + 1) * t + w := ⟨y - 2 ^ (k' + 1) * t, by ring⟩
  have hwr : (r : ℝ) ≤ w := by linarith
  have hwr' : w < r + 1 := by linarith
  have hr1 : (r : ℝ) + 1 ≤ 2 * 2 ^ k' := by rw [hpown] at hlt; exact_mod_cast hlt
  have key : ∀ c : ℝ, y / 2 ^ (k' + 1) = c ↔ w = (c - t) * (2 * 2 ^ k') := by
    intro c
    rw [div_eq_iff hp.ne', hw, hpow]
    constructor <;> intro h <;> linarith
  have kle : ∀ c : ℝ, y / 2 ^ (k' + 1) ≤ c ↔ w ≤ (c - t) * (2 * 2 ^ k') := by
    intro c
    rw [div_le_iff₀ hp, hw, hpow]
    constructor <;> intro h <;> linarith
  have kge : ∀ c : ℝ, c ≤ y / 2 ^ (k' + 1) ↔ (c - t) * (2 * 2 ^ k') ≤ w := by
    intro c
    rw [le_div_iff₀ hp, hw, hpow]
    constructor <;> intro h <;> linarith
  have hh : (0 : ℝ) < 2 ^ k' := by positivity
  by_cases hc : 2 ^ k' < r ∨ r = 2 ^ k' ∧ (sticky = true ∨ t % 2 = 1)
  · simp only [if_pos hc]
    rw [kge, kle, key, key]
    push_cast
    have h1 : (2 : ℝ) ^ k' ≤ r := by
      rcases hc with h | ⟨h, _⟩
      · exact_mod_cast h.le
      · rw [h]; push_cast; exact le_refl _
    refine ⟨⟨by nlinarith, by nlinarith⟩, ?_⟩
    rintro (h | h)
    · have hw2 : w = 2 ^ k' := by rw [h]; ring
      rcases hc with h3 | ⟨h3, h4 | h4⟩
      · have : (2 : ℝ) ^ k' < r := by exact_mod_cast h3
        linarith
      · have := hs' h4
        have h5 : (r : ℝ) = 2 ^ k' := by rw [h3]; push_cast; ring
        linarith
      · omega
    · exfalso; nlinarith
  · simp only [if_neg hc]
    rw [kge, kle, key, key]
    have h1 : w ≤ 2 ^ k' := by
      rcases hup with h | h | h
      · exact absurd (.inl h) hc
      · have h2 : sticky = false := by
          by_contra h3; exact hc (.inr ⟨h, .inl (by simpa using h3)⟩)
        have := hs h2
        have h5 : (r : ℝ) = 2 ^ k' := by rw [h]; push_cast; ring
        linarith
      · have : (r : ℝ) + 1 ≤ 2 ^ k' := by exact_mod_cast h
        linarith
    have h0 : (0 : ℝ) ≤ r := by positivity
    refine ⟨⟨by nlinarith, by nlinarith⟩, ?_⟩
    rintro (h | h)
    · exfalso; nlinarith
    · have hw2 : w = 2 ^ k' := by rw [h]; ring
      rcases hup with h3 | h3 | h3
      · exact absurd (.inl h3) hc
      · by_contra h4
        exact hc (.inr ⟨h3, .inr (by omega)⟩)
      · have : (r : ℝ) + 1 ≤ 2 ^ k' := by exact_mod_cast h3
        linarith


/-- The rounded significand and the exponent of its last place, before the cut at infinity. -/
def roundSig (m e : Nat) (sticky : Bool) : Nat :=
  if ulpExp m e ≤ e then m * 2 ^ (e - ulpExp m e) else roundShift m (ulpExp m e - e) sticky

theorem roundMag_eq (m e : Nat) (sticky : Bool) :
    roundMag m e sticky = min ((ulpExp m e - 451) * 2 ^ 23 + roundSig m e sticky) infMag := rfl

/-- What the rounded significand is of the exact value `z`, in units of its last place. -/
theorem roundSig_spec {m e : Nat} {sticky : Bool} {y z : ℝ} (hm : m ≠ 0) (hy : (m : ℝ) ≤ y)
    (hy' : y < m + 1) (hs : sticky = false → y = m) (hs' : sticky = true → (m : ℝ) < y)
    (hb : sticky = true → 2 ^ 24 ≤ m) (hz : z * 2 ^ ulpExp m e = y * 2 ^ e) :
    (z ≤ 2 ^ 24 ∧ (ulpExp m e - 451 = 0 ∨ 2 ^ 23 ≤ z)) ∧
      roundSig m e sticky ≤ 2 ^ 24 ∧ (ulpExp m e - 451 = 0 ∨ 2 ^ 23 ≤ roundSig m e sticky) ∧
        ((roundSig m e sticky : ℝ) - 1 / 2 ≤ z ∧ z ≤ roundSig m e sticky + 1 / 2) ∧
          (z = roundSig m e sticky - 1 / 2 ∨ z = roundSig m e sticky + 1 / 2 →
            roundSig m e sticky % 2 = 0) := by
  have hL1 := Nat.log2_self_le hm
  have hL2 : m < 2 ^ (Nat.log2 m + 1) := Nat.lt_log2_self
  have hq : ulpExp m e = max (e + (Nat.log2 m + 1) - 24) 451 := rfl
  have hbL : sticky = true → 24 ≤ Nat.log2 m := by
    intro h
    exact (Nat.le_log2 hm).2 (hb h)
  generalize hL : Nat.log2 m = L at *
  have hy2 : y < 2 ^ (L + 1) := by
    have : (m : ℝ) + 1 ≤ 2 ^ (L + 1) := by exact_mod_cast hL2
    linarith
  have hy1 : (2 : ℝ) ^ L ≤ y := by
    have : (2 : ℝ) ^ L ≤ m := by exact_mod_cast hL1
    linarith
  generalize hqq : ulpExp m e = q at *
  have hq0 : (0 : ℝ) < 2 ^ q := by positivity
  have he0 : (0 : ℝ) < 2 ^ e := by positivity
  have hz1 : z ≤ 2 ^ 24 := by
    have h1 : y * 2 ^ e ≤ 2 ^ (L + 1) * 2 ^ e := by gcongr
    have h2 : (2 : ℝ) ^ (L + 1) * 2 ^ e ≤ 2 ^ 24 * 2 ^ q := by
      rw [← pow_add, ← pow_add]
      exact pow_le_pow_right₀ (by norm_num) (by omega)
    have h3 : z * 2 ^ q ≤ 2 ^ 24 * 2 ^ q := by linarith
    exact le_of_mul_le_mul_right h3 hq0
  have hz2 : q - 451 = 0 ∨ 2 ^ 23 ≤ z := by
    by_cases h : q - 451 = 0
    · exact .inl h
    · right
      have h1 : (2 : ℝ) ^ L * 2 ^ e ≤ y * 2 ^ e := by gcongr
      have h2 : (2 : ℝ) ^ 23 * 2 ^ q ≤ 2 ^ L * 2 ^ e := by
        rw [← pow_add, ← pow_add]
        exact pow_le_pow_right₀ (by norm_num) (by omega)
      have h3 : (2 : ℝ) ^ 23 * 2 ^ q ≤ z * 2 ^ q := by linarith
      exact le_of_mul_le_mul_right h3 hq0
  -- nearest, ties to even
  have hnear : ((roundSig m e sticky : ℝ) - 1 / 2 ≤ z ∧ z ≤ roundSig m e sticky + 1 / 2) ∧
      (z = roundSig m e sticky - 1 / 2 ∨ z = roundSig m e sticky + 1 / 2 →
        roundSig m e sticky % 2 = 0) := by
    unfold roundSig
    rw [hqq]
    by_cases hle : q ≤ e
    · rw [if_pos hle]
      have hns : sticky = false := by
        by_contra h
        have := hbL (by simpa using h)
        omega
      have hz3 : z = ((m * 2 ^ (e - q) : Nat) : ℝ) := by
        have h1 : (2 : ℝ) ^ e = 2 ^ (e - q) * 2 ^ q := by rw [← pow_add]; congr 1; omega
        rw [hs hns, h1] at hz
        have := mul_right_cancel₀ hq0.ne' (show z * 2 ^ q = ((m : ℝ) * 2 ^ (e - q)) * 2 ^ q by linarith)
        rw [this]; push_cast; ring
      rw [← hz3]
      refine ⟨⟨by linarith, by linarith⟩, ?_⟩
      rintro (h | h) <;> exfalso <;> linarith
    · rw [if_neg hle]
      have hz3 : z = y / 2 ^ (q - e) := by
        have h1 : (2 : ℝ) ^ q = 2 ^ (q - e) * 2 ^ e := by rw [← pow_add]; congr 1; omega
        rw [h1] at hz
        have hk0 : (0 : ℝ) < 2 ^ (q - e) := by positivity
        rw [eq_div_iff hk0.ne']
        exact mul_right_cancel₀ he0.ne' (by linarith)
      rw [hz3]
      exact roundShift_spec (by omega) hy hy' hs hs'
  refine ⟨⟨hz1, hz2⟩, ?_, ?_, hnear⟩
  · by_contra h
    have h1 : (2 : ℝ) ^ 24 + 1 ≤ roundSig m e sticky := by
      have : 2 ^ 24 + 1 ≤ roundSig m e sticky := by omega
      exact_mod_cast this
    linarith [hnear.1.1]
  · rcases hz2 with h | h
    · exact .inl h
    · right
      by_contra h2
      have h1 : (roundSig m e sticky : ℝ) + 1 ≤ 2 ^ 23 := by
        have : roundSig m e sticky + 1 ≤ 2 ^ 23 := by omega
        exact_mod_cast this
      linarith [hnear.1.2]

/-- What `roundMag` does to the exact value `X`, in units of 2^(-149): the nearest magnitude, ties to
even, and the infinity from half a unit above the largest finite one on. -/
theorem roundMag_spec {m e : Nat} {sticky : Bool} {y X : ℝ} (hm : m ≠ 0) (hy : (m : ℝ) ≤ y)
    (hy' : y < m + 1) (hs : sticky = false → y = m) (hs' : sticky = true → (m : ℝ) < y)
    (hb : sticky = true → 2 ^ 24 ≤ m) (hX : X * 2 ^ 451 = y * 2 ^ e) :
    (X < (2 ^ 24 - 1 / 2) * 2 ^ 253 → roundMag m e sticky < infMag ∧
      ∀ v, |(magUnits (roundMag m e sticky) : ℝ) - X| ≤ |(magUnits v : ℝ) - X| ∧
        (|(magUnits (roundMag m e sticky) : ℝ) - X| = |(magUnits v : ℝ) - X| →
          v = roundMag m e sticky ∨ roundMag m e sticky % 2 = 0)) ∧
      ((2 ^ 24 - 1 / 2) * 2 ^ 253 ≤ X → roundMag m e sticky = infMag) := by
  have hq451 : 451 ≤ ulpExp m e := Nat.le_max_right _ _
  obtain ⟨j, hj⟩ : ∃ j, ulpExp m e = 451 + j := ⟨ulpExp m e - 451, by omega⟩
  obtain ⟨z, hz⟩ : ∃ z : ℝ, X = z * 2 ^ j := ⟨X / 2 ^ j, by field_simp⟩
  have hz2 : z * 2 ^ ulpExp m e = y * 2 ^ e := by
    rw [hj, pow_add, ← hX, hz, mul_assoc, mul_comm ((2 : ℝ) ^ j)]
  have h := roundSig_spec hm hy hy' hs hs' hb hz2
  rw [roundMag_eq]
  have hj' : ulpExp m e - 451 = j := by omega
  rw [hj'] at h ⊢
  generalize roundSig m e sticky = g at *
  obtain ⟨⟨hz24, hz23⟩, hg24, hg23, ⟨hn1, hn2⟩, ht⟩ := h
  have hj0 : (0 : ℝ) < 2 ^ j := by positivity
  have hinf : infMag = 253 * 2 ^ 23 + 2 ^ 24 := by decide
  constructor
  · intro hlt
    have hfin : j * 2 ^ 23 + g < infMag := by
      by_contra hge
      rcases Nat.lt_or_ge j 254 with h1 | h1
      · have hj253 : j = 253 ∧ g = 2 ^ 24 := by omega
        obtain ⟨rfl, rfl⟩ := hj253
        have : (2 : ℝ) ^ 24 - 1 / 2 ≤ z := by
          have h9 : ((2 ^ 24 : Nat) : ℝ) = 2 ^ 24 := by norm_num
          rw [h9] at hn1; exact hn1
        have : ((2 : ℝ) ^ 24 - 1 / 2) * 2 ^ 253 ≤ z * 2 ^ 253 := by gcongr
        linarith
      · have h3 : (2 : ℝ) ^ 23 ≤ z := by
          rcases hz23 with h2 | h2
          · omega
          · exact h2
        have h4 : (2 : ℝ) ^ 254 ≤ 2 ^ j := pow_le_pow_right₀ (by norm_num) h1
        have h5 : (2 : ℝ) ^ 23 * 2 ^ 254 ≤ z * 2 ^ j := by gcongr
        have h6 : (2 : ℝ) ^ 23 * 2 ^ 254 = 2 ^ 24 * 2 ^ 253 := by norm_num
        have h7 : (0 : ℝ) < 2 ^ 253 := by positivity
        linarith
    rw [Nat.min_eq_left hfin.le]
    refine ⟨hfin, fun v => ?_⟩
    rw [hz]
    exact nearest_of_sig hg24 hz24 hz23 hg23 hn1 hn2 ht v
  · intro hge
    apply Nat.min_eq_right
    by_contra hlt
    have hlt : j * 2 ^ 23 + g < infMag := by omega
    have hjle : j ≤ 253 := by
      by_contra h1
      rcases hg23 with h2 | h2 <;> omega
    rcases Nat.lt_or_ge j 253 with h1 | h1
    · have h4 : (2 : ℝ) ^ j ≤ 2 ^ 252 := pow_le_pow_right₀ (by norm_num) (by omega)
      have h5 : z * 2 ^ j ≤ 2 ^ 24 * 2 ^ 252 := by
        calc z * 2 ^ j ≤ 2 ^ 24 * 2 ^ j := by gcongr
          _ ≤ 2 ^ 24 * 2 ^ 252 := by gcongr
      have h6 : (2 : ℝ) ^ 24 * 2 ^ 252 < (2 ^ 24 - 1 / 2) * 2 ^ 253 := by norm_num
      linarith
    · obtain rfl : j = 253 := by omega
      have hgl : g ≤ 2 ^ 24 - 1 := by omega
      have hglr : (g : ℝ) ≤ 2 ^ 24 - 1 := by
        have : g + 1 ≤ 2 ^ 24 := by omega
        have : (g : ℝ) + 1 ≤ 2 ^ 24 := by exact_mod_cast this
        linarith
      have hzge : (2 : ℝ) ^ 24 - 1 / 2 ≤ z := by
        have : ((2 : ℝ) ^ 24 - 1 / 2) * 2 ^ 253 ≤ z * 2 ^ 253 := by linarith
        exact le_of_mul_le_mul_right this hj0
      have hzeq : z = g + 1 / 2 := by linarith
      have hgeq : (g : ℝ) = 2 ^ 24 - 1 := by linarith
      have hgn : g = 2 ^ 24 - 1 := by
        have : (g : ℝ) + 1 = 2 ^ 24 := by linarith
        have : g + 1 = 2 ^ 24 := by exact_mod_cast this
        omega
      have := ht (.inr hzeq)
      omega


/-! ## Patterns -/

theorem signBit_eq (w : Word) : signBit w = decide (2 ^ 31 ≤ w.toNat) := by
  unfold signBit
  exact (BitVec.msb_eq_decide w)

/-- The exact value of a pattern from its sign and its low 31 bits. -/
theorem toRat_eq (w : Word) :
    toRat w = (if signBit w then -1 else 1) * (magUnits (w.toNat % 2 ^ 31) : ℚ) / 2 ^ 149 := by
  unfold toRat signif expo expField fracField magUnits
  have h1 : w.toNat / 2 ^ 23 % 2 ^ 8 = w.toNat % 2 ^ 31 / 2 ^ 23 := by omega
  have h2 : w.toNat % 2 ^ 23 = w.toNat % 2 ^ 31 % 2 ^ 23 := by omega
  rw [← h1, ← h2]
  by_cases h : w.toNat / 2 ^ 23 % 2 ^ 8 = 0
  · simp only [h, if_true]
    push_cast
    ring
  · simp only [h, if_false]
    push_cast
    ring

theorem isFinite_iff (w : Word) : isFinite w = true ↔ w.toNat % 2 ^ 31 < infMag := by
  unfold isFinite expField infMag
  simp only [bne_iff_ne, ne_eq]
  have := w.isLt
  omega

theorem ofSignMag_toNat (s : Bool) {p : Nat} (h : p < 2 ^ 31) :
    (ofSignMag s p).toNat = (if s then 2 ^ 31 else 0) + p := by
  unfold ofSignMag
  rw [BitVec.toNat_ofNat]
  cases s <;> simp <;> omega

theorem signBit_ofSignMag (s : Bool) {p : Nat} (h : p < 2 ^ 31) : signBit (ofSignMag s p) = s := by
  rw [signBit_eq, ofSignMag_toNat s h]
  cases s <;> simp <;> omega

theorem ofSignMag_mod (s : Bool) {p : Nat} (h : p < 2 ^ 31) : (ofSignMag s p).toNat % 2 ^ 31 = p := by
  rw [ofSignMag_toNat s h]
  cases s <;> simp <;> omega

theorem toRat_ofSignMag (s : Bool) {p : Nat} (h : p < 2 ^ 31) :
    toRat (ofSignMag s p) = (if s then -1 else 1) * (magUnits p : ℚ) / 2 ^ 149 := by
  rw [toRat_eq, signBit_ofSignMag s h, ofSignMag_mod s h]

theorem magUnits_zero : magUnits 0 = 0 := by decide

/-- A magnitude nearest to `X` gives, with the sign, the pattern nearest to `(-1)^s * X / 2^149`. -/
theorem roundsTo_of_nearest {s : Bool} {p : Nat} {X : ℝ} (hp : p < infMag) (hX : 0 ≤ X)
    (h : ∀ v, |(magUnits p : ℝ) - X| ≤ |(magUnits v : ℝ) - X| ∧
      (|(magUnits p : ℝ) - X| = |(magUnits v : ℝ) - X| → v = p ∨ p % 2 = 0)) :
    RoundsTo ((if s then -1 else 1) * (X / 2 ^ 149)) (ofSignMag s p) := by
  have hp31 : p < 2 ^ 31 := by unfold infMag at hp; omega
  refine ⟨(isFinite_iff _).2 (by rw [ofSignMag_mod s hp31]; exact hp), fun v _ => ?_⟩
  have hu : (0 : ℝ) < 2 ^ 149 := by positivity
  have hw : ((toRat (ofSignMag s p) : ℚ) : ℝ) = (if s then -1 else 1) * ((magUnits p : ℝ) / 2 ^ 149) := by
    rw [toRat_ofSignMag s hp31]; push_cast; split <;> ring
  have hv : ((toRat v : ℚ) : ℝ) =
      (if signBit v then -1 else 1) * ((magUnits (v.toNat % 2 ^ 31) : ℝ) / 2 ^ 149) := by
    rw [toRat_eq]; push_cast; split <;> ring
  have hdist : |((toRat (ofSignMag s p) : ℚ) : ℝ) - (if s then -1 else 1) * (X / 2 ^ 149)| =
      |(magUnits p : ℝ) - X| / 2 ^ 149 := by
    rw [hw, ← mul_sub, abs_mul, ← sub_div, abs_div, abs_of_pos hu]
    cases s <;> simp
  rw [hdist]
  have hpar : p % 2 = 0 → (ofSignMag s p).toNat % 2 = 0 := by
    intro h2
    rw [ofSignMag_toNat s hp31]
    cases s <;> simp <;> omega
  by_cases hs : signBit v = s
  · have hdv : |((toRat v : ℚ) : ℝ) - (if s then -1 else 1) * (X / 2 ^ 149)| =
        |(magUnits (v.toNat % 2 ^ 31) : ℝ) - X| / 2 ^ 149 := by
      rw [hv, hs, ← mul_sub, abs_mul, ← sub_div, abs_div, abs_of_pos hu]
      cases s <;> simp
    rw [hdv]
    obtain ⟨h1, h2⟩ := h (v.toNat % 2 ^ 31)
    refine ⟨by gcongr, fun he => ?_⟩
    rcases h2 (by rwa [div_left_inj' hu.ne'] at he) with h3 | h3
    · left
      rw [toRat_ofSignMag s hp31, toRat_eq, hs, h3]
    · exact .inr (hpar h3)
  · have hdv : |((toRat v : ℚ) : ℝ) - (if s then -1 else 1) * (X / 2 ^ 149)| =
        ((magUnits (v.toNat % 2 ^ 31) : ℝ) + X) / 2 ^ 149 := by
      have hM : (0 : ℝ) ≤ magUnits (v.toNat % 2 ^ 31) := by positivity
      have e1 : ((toRat v : ℚ) : ℝ) - (if s then -1 else 1) * (X / 2 ^ 149) =
          (if signBit v then -1 else 1) * (((magUnits (v.toNat % 2 ^ 31) : ℝ) + X) / 2 ^ 149) := by
        rw [hv]
        cases s <;> cases hsv : signBit v <;> simp_all <;> ring
      rw [e1, abs_mul, abs_of_nonneg (show (0 : ℝ) ≤ ((magUnits (v.toNat % 2 ^ 31) : ℝ) + X) / 2 ^ 149 by positivity)]
      cases signBit v <;> simp
    rw [hdv]
    obtain ⟨h1, h2⟩ := h 0
    have hM : (0 : ℝ) ≤ magUnits (v.toNat % 2 ^ 31) := by positivity
    rw [magUnits_zero] at h1 h2
    have e0 : |((0 : Nat) : ℝ) - X| = X := by rw [Nat.cast_zero, zero_sub, abs_neg, abs_of_nonneg hX]
    rw [e0] at h1 h2
    refine ⟨by gcongr; linarith, fun he => ?_⟩
    rw [div_left_inj' hu.ne'] at he
    have hM0 : (magUnits (v.toNat % 2 ^ 31) : ℝ) = 0 := by linarith
    rcases h2 (by linarith) with h3 | h3
    · left
      have hvM : magUnits (v.toNat % 2 ^ 31) = 0 := by exact_mod_cast hM0
      rw [toRat_ofSignMag s hp31, toRat_eq, hvM, ← h3, magUnits_zero]
      simp
    · exact .inr (hpar h3)

/-- Rounding once: `roundWord` of `m * 2^(e - 600)`, or of an exact value less than one unit above when
`sticky`, is that value rounded once to binary32 (R21). -/
theorem roundWord_roundedOnce {s : Bool} {m e : Nat} {sticky : Bool} {y : ℝ} (hm : m ≠ 0)
    (hy : (m : ℝ) ≤ y) (hy' : y < m + 1) (hs : sticky = false → y = m)
    (hs' : sticky = true → (m : ℝ) < y) (hb : sticky = true → 2 ^ 24 ≤ m) :
    RoundedOnce ((if s then -1 else 1) * (y * 2 ^ e / 2 ^ 600)) (roundWord s m e sticky) := by
  have hy0 : 0 ≤ y := le_trans (by positivity) hy
  obtain ⟨X, hXd⟩ : ∃ X : ℝ, X = y * 2 ^ e / 2 ^ 451 := ⟨_, rfl⟩
  have h451 : (0 : ℝ) < 2 ^ 451 := by positivity
  have hX : X * 2 ^ 451 = y * 2 ^ e := by rw [hXd, div_mul_cancel₀ _ h451.ne']
  have hX0 : 0 ≤ X := by rw [hXd]; positivity
  have hx : y * 2 ^ e / 2 ^ 600 = X / 2 ^ 149 := by
    have e1 : (2 : ℝ) ^ 600 = 2 ^ 451 * 2 ^ 149 := by rw [← pow_add]
    rw [hXd, e1, div_div]
  obtain ⟨h1, h2⟩ := roundMag_spec hm hy hy' hs hs' hb hX
  have hw : roundWord s m e sticky = ofSignMag s (roundMag m e sticky) := by
    unfold roundWord; rw [if_neg hm]
  have hu : (0 : ℝ) < 2 ^ 149 := by positivity
  have hbound : ((2 : ℝ) ^ 128 - 2 ^ 103) * 2 ^ 149 = (2 ^ 24 - 1 / 2) * 2 ^ 253 := by
    have e1 : (2 : ℝ) ^ 128 = 2 ^ 24 * 2 ^ 104 := by rw [← pow_add]
    have e2 : (2 : ℝ) ^ 103 = 1 / 2 * 2 ^ 104 := by norm_num
    have e3 : (2 : ℝ) ^ 253 = 2 ^ 104 * 2 ^ 149 := by rw [← pow_add]
    rw [e1, e2, e3, ← sub_mul, mul_assoc]
  rw [hw, hx]
  have habs : |(if s then (-1 : ℝ) else 1) * (X / 2 ^ 149)| = X / 2 ^ 149 := by
    rw [abs_mul, abs_of_nonneg (show (0 : ℝ) ≤ X / 2 ^ 149 by positivity)]
    cases s <;> simp
  refine ⟨fun h => ?_, fun h => ?_, fun h => ?_⟩
  · rw [habs, div_lt_iff₀ hu, hbound] at h
    obtain ⟨h3, h4⟩ := h1 h
    exact roundsTo_of_nearest h3 hX0 h4
  · have hpos : (0 : ℝ) < 2 ^ 128 - 2 ^ 103 := by norm_num
    cases s with
    | true =>
      have : (0 : ℝ) ≤ X / 2 ^ 149 := by positivity
      simp only [if_true] at h
      linarith
    | false =>
      simp only [Bool.false_eq_true, if_false, one_mul] at h
      rw [le_div_iff₀ hu, hbound] at h
      rw [h2 h]
      rfl
  · have hpos : (0 : ℝ) < 2 ^ 128 - 2 ^ 103 := by norm_num
    cases s with
    | false =>
      have : (0 : ℝ) ≤ X / 2 ^ 149 := by positivity
      simp only [Bool.false_eq_true, if_false, one_mul] at h
      linarith
    | true =>
      simp only [if_true] at h
      have h5 : (2 : ℝ) ^ 128 - 2 ^ 103 ≤ X / 2 ^ 149 := by linarith
      rw [le_div_iff₀ hu, hbound] at h5
      rw [h2 h5]
      rfl

/-- A zero of either sign is zero rounded once. -/
theorem zeroWord_roundedOnce (s : Bool) : RoundedOnce 0 (zeroWord s) := by
  have hpos : (0 : ℝ) < 2 ^ 128 - 2 ^ 103 := by norm_num
  refine ⟨fun _ => ?_, fun h => ?_, fun h => ?_⟩
  · have := roundsTo_of_nearest (s := s) (p := 0) (X := 0) (by decide) (le_refl _) (fun v => by
      rw [magUnits_zero]; simp)
    simpa [zeroWord] using this
  · linarith
  · linarith


/-! ## Operands -/

theorem isNaN_of_isFinite {w : Word} (h : isFinite w = true) : isNaN w = false := by
  unfold isFinite at h
  unfold isNaN
  simp_all

theorem isInf_of_isFinite {w : Word} (h : isFinite w = true) : isInf w = false := by
  unfold isFinite at h
  unfold isInf
  simp_all

/-- The value in the reals, as significand and exponent. -/
theorem toRat_real (w : Word) :
    ((toRat w : ℚ) : ℝ) = (if signBit w then -1 else 1) * (signif w : ℝ) * 2 ^ expo w / 2 ^ 149 := by
  unfold toRat
  push_cast
  split <;> ring

theorem signif_lt (w : Word) : signif w < 2 ^ 24 := by
  unfold signif fracField
  split <;> omega

theorem expo_lt (w : Word) : expo w < 255 := by
  unfold expo expField
  split <;> omega

theorem signif_pos {w : Word} (h : isZero w = false) : 0 < signif w := by
  unfold isZero at h
  simp only [beq_eq_false_iff_ne, ne_eq] at h
  unfold signif expField fracField
  split <;> omega

theorem negate_mod (w : Word) : (negate w).toNat % 2 ^ 31 = w.toNat % 2 ^ 31 := by
  have h : (negate w).setWidth 31 = w.setWidth 31 := by
    unfold negate
    ext i hi
    simp
  simpa using congrArg BitVec.toNat h

@[simp] theorem signBit_negate (w : Word) : signBit (negate w) = !signBit w := by
  unfold signBit negate
  simp

theorem toRat_negate (w : Word) : toRat (negate w) = -toRat w := by
  rw [toRat_eq, toRat_eq, signBit_negate, negate_mod]
  cases signBit w <;> simp <;> ring

@[simp] theorem isFinite_negate (w : Word) : isFinite (negate w) = isFinite w := by
  rw [Bool.eq_iff_iff, isFinite_iff, isFinite_iff, negate_mod]

/-! ## Kinds of values (R20) -/

theorem isInf_iff (w : Word) : isInf w = true ↔ w.toNat % 2 ^ 31 = infMag := by
  unfold isInf expField fracField infMag
  simp only [Bool.and_eq_true, beq_iff_eq]
  have := w.isLt
  omega

theorem isNaN_iff (w : Word) : isNaN w = true ↔ infMag < w.toNat % 2 ^ 31 := by
  unfold isNaN expField fracField infMag
  simp only [Bool.and_eq_true, beq_iff_eq, bne_iff_ne, ne_eq]
  have := w.isLt
  omega

theorem isZero_iff (w : Word) : isZero w = true ↔ w.toNat % 2 ^ 31 = 0 := by
  unfold isZero
  simp

@[simp] theorem isNaN_negate (w : Word) : isNaN (negate w) = isNaN w := by
  rw [Bool.eq_iff_iff, isNaN_iff, isNaN_iff, negate_mod]

@[simp] theorem isInf_negate (w : Word) : isInf (negate w) = isInf w := by
  rw [Bool.eq_iff_iff, isInf_iff, isInf_iff, negate_mod]

@[simp] theorem isZero_negate (w : Word) : isZero (negate w) = isZero w := by
  rw [Bool.eq_iff_iff, isZero_iff, isZero_iff, negate_mod]

/-- A pattern is its sign and its low 31 bits. -/
theorem eq_ofSignMag (w : Word) : w = ofSignMag (signBit w) (w.toNat % 2 ^ 31) := by
  apply BitVec.eq_of_toNat_eq
  rw [ofSignMag_toNat _ (Nat.mod_lt _ (by decide)), signBit_eq]
  simp only [decide_eq_true_eq]
  have := w.isLt
  split <;> omega

theorem eq_infWord {w : Word} (h : isInf w = true) : w = infWord (signBit w) := by
  have hw := eq_ofSignMag w
  rwa [(isInf_iff w).1 h] at hw

theorem eq_zeroWord {w : Word} (h : isZero w = true) : w = zeroWord (signBit w) := by
  have hw := eq_ofSignMag w
  rwa [(isZero_iff w).1 h] at hw

@[simp] theorem signBit_zeroWord (s : Bool) : signBit (zeroWord s) = s :=
  signBit_ofSignMag s (by decide)

@[simp] theorem signBit_infWord (s : Bool) : signBit (infWord s) = s :=
  signBit_ofSignMag s (by decide)

@[simp] theorem isNaN_zeroWord (s : Bool) : isNaN (zeroWord s) = false := by cases s <;> decide

@[simp] theorem isNaN_infWord (s : Bool) : isNaN (infWord s) = false := by cases s <;> decide

/-- A produced NaN is a NaN, whatever its free bits are (R23). -/
@[simp] theorem isNaN_nanWord (st : Site) : isNaN (nanWord st) = true := by
  have hlt : (Config.nanBits st).toNat % 2 ^ 23 < 2 ^ 23 := Nat.mod_lt _ (by decide)
  rw [isNaN_iff]
  unfold nanWord
  rw [ofSignMag_mod]
  · split <;> omega
  · unfold infMag
    split <;> omega

theorem roundMag_le (m e : Nat) (sticky : Bool) : roundMag m e sticky ≤ infMag := Nat.min_le_right _ _

/-- Rounding keeps the sign, of a zero too. -/
@[simp] theorem signBit_roundWord (s : Bool) (m e : Nat) (sticky : Bool) :
    signBit (roundWord s m e sticky) = s := by
  unfold roundWord
  split
  · exact signBit_zeroWord s
  · exact signBit_ofSignMag s (lt_of_le_of_lt (roundMag_le m e sticky) (by decide))

/-- Rounding produces no NaN. -/
@[simp] theorem isNaN_roundWord (s : Bool) (m e : Nat) (sticky : Bool) :
    isNaN (roundWord s m e sticky) = false := by
  unfold roundWord
  split
  · exact isNaN_zeroWord s
  · have h := roundMag_le m e sticky
    rw [Bool.eq_false_iff, ne_eq, isNaN_iff, ofSignMag_mod s (lt_of_le_of_lt h (by decide))]
    omega

/-- The three kinds exclude each other and leave the finite values. -/
theorem isFinite_eq (w : Word) : isFinite w = (!isNaN w && !isInf w) := by
  have h1 := isFinite_iff w
  have h2 := isNaN_iff w
  have h3 := isInf_iff w
  cases hf : isFinite w <;> cases hn : isNaN w <;> cases hi : isInf w <;> simp_all <;> omega

theorem isZero_of_isInf {w : Word} (h : isInf w = true) : isZero w = false := by
  rw [Bool.eq_false_iff, ne_eq, isZero_iff, (isInf_iff w).1 h]
  decide

/-- The exact sum, in units of the smaller exponent, is the sum of the exact values (R21). -/
theorem toRat_add (a b : Word) :
    toRat a + toRat b = (exactSum a b : ℚ) * 2 ^ min (expo a) (expo b) / 2 ^ 149 := by
  have ha : (2 : ℚ) ^ expo a =
      2 ^ (expo a - min (expo a) (expo b)) * 2 ^ min (expo a) (expo b) := by
    rw [← pow_add, Nat.sub_add_cancel (Nat.min_le_left _ _)]
  have hb : (2 : ℚ) ^ expo b =
      2 ^ (expo b - min (expo a) (expo b)) * 2 ^ min (expo a) (expo b) := by
    rw [← pow_add, Nat.sub_add_cancel (Nat.min_le_right _ _)]
  unfold toRat exactSum
  simp only [ha, hb]
  push_cast
  split <;> split <;> ring

theorem exactSum_eq_zero_iff (a b : Word) : exactSum a b = 0 ↔ toRat a + toRat b = 0 := by
  have h1 : (2 : ℚ) ^ min (expo a) (expo b) ≠ 0 := by positivity
  rw [toRat_add]
  simp [h1]

/-! ## The integer square root -/

theorem isqrtFrom_spec (m k r : Nat) (h1 : r * r ≤ m) (h2 : m < (r + 2 ^ k) * (r + 2 ^ k)) :
    isqrtFrom m k r * isqrtFrom m k r ≤ m ∧
      m < (isqrtFrom m k r + 1) * (isqrtFrom m k r + 1) := by
  induction k generalizing r with
  | zero => exact ⟨h1, h2⟩
  | succ k ih =>
    have hp : 2 ^ (k + 1) = 2 ^ k + 2 ^ k := by rw [pow_succ]; omega
    unfold isqrtFrom
    by_cases h : (r + 2 ^ k) * (r + 2 ^ k) ≤ m
    · simp only [if_pos h]
      exact ih _ h (by rw [Nat.add_assoc, ← hp]; exact h2)
    · simp only [if_neg h]
      exact ih _ h1 (by omega)

/-- `isqrt` is the integer square root of every number below 2^80. -/
theorem isqrt_spec {m : Nat} (h : m < 2 ^ 80) :
    isqrt m * isqrt m ≤ m ∧ m < (isqrt m + 1) * (isqrt m + 1) :=
  isqrtFrom_spec m 40 0 (Nat.zero_le m) (by
    have : (0 + 2 ^ 40) * (0 + 2 ^ 40) = 2 ^ 80 := by norm_num
    omega)

end Sys2Proof.Machine
end

