-- ==== Sys2Proof/Laws/PerInstr.lean ====
section
/-! SUPPORT. Facts about each operation as syntax, one lemma per constructor. -/

namespace Sys2Proof.Laws

/-- The operation word of an operation selects an operation, and it is that one (R102, R103, R104). -/
def Encoding.Statement (i : Instr) : Prop :=
  (encode i).wf = true ∧ decode (encode i) = .ok i

theorem Encoding.cfgchk : Encoding.Statement .cfgchk := ⟨rfl, rfl⟩

theorem Encoding.twinit : Encoding.Statement .twinit := ⟨rfl, rfl⟩

theorem Encoding.genwin : Encoding.Statement .genwin := ⟨rfl, rfl⟩

theorem Encoding.start : Encoding.Statement .start := ⟨rfl, rfl⟩

theorem Encoding.wait : Encoding.Statement .wait := ⟨rfl, rfl⟩

theorem Encoding.read : Encoding.Statement .read := ⟨rfl, rfl⟩

theorem Encoding.window : Encoding.Statement .window := ⟨rfl, rfl⟩

theorem Encoding.fft : Encoding.Statement .fft := ⟨rfl, rfl⟩

theorem Encoding.bitrev : Encoding.Statement .bitrev := ⟨rfl, rfl⟩

theorem Encoding.unpack : Encoding.Statement .unpack := ⟨rfl, rfl⟩

theorem Encoding.mag : Encoding.Statement .mag := ⟨rfl, rfl⟩

theorem Encoding.suppress : Encoding.Statement .suppress := ⟨rfl, rfl⟩

theorem Encoding.render : Encoding.Statement .render := ⟨rfl, rfl⟩

theorem Encoding.yield : Encoding.Statement .yield := ⟨rfl, rfl⟩

theorem Encoding.rsvd14 : Encoding.Statement .rsvd14 := ⟨rfl, rfl⟩

theorem Encoding.halt : Encoding.Statement .halt := ⟨rfl, rfl⟩

theorem Encoding.notify : Encoding.Statement .notify := ⟨rfl, rfl⟩

end Sys2Proof.Laws
end

