-- ==== Sys2Proof/Machine/Nominal.lean ====
section
/-! DEFINITION. The nominal tables, the spec's default for the table arguments
(40_init_and_window_table.md R144, R146), computed for any N in fixed point with 160 fraction bits and
rounded once. UNVERIFIED beyond the lengths the spec lists (log 12); the meanings read the host's table
arguments, not these. -/

namespace Sys2Proof.Machine

/-- One, in fixed point. -/
def fixOne : Nat := 2 ^ 160

/-- `2 * pi` in fixed point, rounded down. -/
def fixTwoPi : Nat := 9182885614096437842769610399486622256908310048836

/-- `1 - x/((j+1)(j+2)) * (1 - x/((j+3)(j+4)) * ...)` in fixed point: with `x` the square of an angle,
the cosine for `j = 0` and the sine divided by the angle for `j = 1`. -/
def fixSeries (x : Nat) : (terms j : Nat) → Nat
  | 0, _ => fixOne
  | t + 1, j => fixOne - x * fixSeries x t (j + 2) / fixOne / ((j + 1) * (j + 2))

/-- `cos(2*pi*p/q)` for `0 <= 4p <= q`: the cosine series up to an eighth of a turn, the sine of the
complement above it. -/
def fixCosQuarter (p q : Nat) : Nat :=
  if 8 * p ≤ q then
    let t := fixTwoPi * p / q
    fixSeries (t * t / fixOne) 26 0
  else
    let t := fixTwoPi * (q - 4 * p) / (4 * q)
    t * fixSeries (t * t / fixOne) 26 1 / fixOne

/-- `cos(2*pi*p/q)` for `0 <= p <= q`, as sign and magnitude in fixed point. -/
def fixCos (p q : Nat) : Bool × Nat :=
  let p := if q < 2 * p then q - p else p
  if q < 4 * p then (true, fixCosQuarter (q - 2 * p) (2 * q)) else (false, fixCosQuarter p q)

/-- A fixed-point value rounded to binary32; a zero is `+0`. -/
def fixRound (v : Bool × Nat) : Word :=
  roundWord (v.1 && v.2 != 0) v.2 440 false

/-- "`RN(cos(2*pi*m/N)), RN(sin(2*pi*m/N))`" (R144), the sine as the cosine of the quarter-turn
complement. -/
def nominalTwPair (n m : Nat) : Word × Word :=
  (fixRound (fixCos m n), fixRound (fixCos (if 4 * m ≤ n then n - 4 * m else 4 * m - n) (4 * n)))

/-- The first `k` entries of a table. -/
def tableUpTo {α : Type} (f : Nat → α) : (k : Nat) → List α
  | 0 => []
  | k + 1 => tableUpTo f k ++ [f k]

/-- The nominal twiddle table (R144). -/
def nominalTw (n : Nat) : List (Word × Word) := tableUpTo (nominalTwPair n) (n / 2)

/-- "`RN(0.5 * (1 - cos(2*pi*i / (N - 1))))`", the symmetric Hann window (R146). -/
def nominalWinAt (n i : Nat) : Word :=
  let c := fixCos i (n - 1)
  let m := if c.1 then fixOne + c.2 else fixOne - c.2
  roundWord false m 439 false

/-- The nominal window (R146). -/
def nominalWin (n : Nat) : List Word := tableUpTo (nominalWinAt n) n

end Sys2Proof.Machine
end

