-- ==== Sys2Proof/Tests/Slice0.lean ====
section
/-! SUPPORT. The model's own tests: decoding, ill-formed terms refused, one step per operation against
values transcribed from spec/95_test_vectors.md and the rules' own examples, and for every statement
with hypotheses a concrete input that meets them. -/

open Sys2Proof Sys2Proof.Machine

namespace Sys2Proof.Tests

/-! ## Small states -/

/-- A memory that lists cells 0, 1, ... with the given values. -/
def cells {w : Nat} (vs : List (BitVec w)) : Memory w :=
  (List.range vs.length).zip vs

/-- The reset state of the reset configuration with another length, in phase `p`. -/
def st (n : Nat) (p : Phase) : State :=
  (State.launched { Config.launchCfg with n := BitVec.ofNat 32 n } Env.empty [] 0).setPh p

/-- The same with another schedule. -/
def sched (s : State) (ms : List Move) : State := s.setEnv { s.env with sched := ms }

/-- The same with start answers. -/
def starts (s : State) (rs : List (BitVec 1)) : State := s.setEnv { s.env with starts := rs }

/-- The same with read responses. -/
def reads (s : State) (rs : List RdRsp) : State := s.setEnv { s.env with reads := rs }

/-- A next state that passes a test. -/
def nextIs (o : Host.Outcome State Fault Refusal) (p : State → Bool) : Bool :=
  match o with
  | .next t => p t
  | .fault _ => false
  | .refused _ => false

/-- A refusal of this name. -/
def refusedAs (o : Host.Outcome State Fault Refusal) (r : Refusal) : Bool :=
  match o with
  | .next _ => false
  | .fault _ => false
  | .refused r' => r == r'

/-- The engine's fault. -/
def engineFaults (o : Host.Outcome State Fault Refusal) : Bool :=
  match o with
  | .next _ => false
  | .fault _ => true
  | .refused _ => false

/-! ## Decoding: words written out bit by bit from R102 and R104 (vector E1) -/

theorem test_decode_init : decode (.ph 0b0000#4) = .ok .cfgchk ∧ decode (.ph 0b0001#4) = .ok .twinit ∧
    decode (.ph 0b0010#4) = .ok .genwin ∧ decode (.ph 0b0011#4) = .ok .start := by decide

theorem test_decode_frame : decode (.ph 0b0100#4) = .ok .wait ∧ decode (.ph 0b0101#4) = .ok .read := by
  decide

theorem test_decode_window : decode (.ph 0b0110#4) = .ok .window := by decide

theorem test_decode_transform : decode (.ph 0b0111#4) = .ok .fft ∧
    decode (.ph 0b1000#4) = .ok .bitrev ∧ decode (.ph 0b1001#4) = .ok .unpack := by decide

theorem test_decode_reducer : decode (.ph 0b1010#4) = .ok .mag ∧
    decode (.ph 0b1011#4) = .ok .suppress := by decide

theorem test_decode_driver : decode (.ph 0b1100#4) = .ok .render ∧
    decode (.ph 0b1101#4) = .ok .yield := by decide

theorem test_decode_reserved_and_halt : decode (.ph 0b1110#4) = .ok .rsvd14 ∧
    decode (.ph 0b1111#4) = .ok .halt := by decide

theorem test_decode_producer : decode (.irq 0b1#1) = .ok .notify ∧
    decode (.irq 0b0#1) = .error .irqIdle := by decide

theorem test_decode_bytes : decodeBytes .ph [] = .error .noBytes ∧
    decodeBytes .ph [0x00#8, 0x00#8] = .error .tooLong ∧
    decodeBytes .ph [0x10#8] = .error .bitOutsideFormat ∧
    decodeBytes .irq [0x02#8] = .error .bitOutsideFormat ∧
    decodeBytes .ph [0x0D#8] = .ok .yield ∧ decodeBytes .irq [0x01#8] = .ok .notify := by decide

/-- The rows of spec/opcode_table.json; the IRQ row is told from TWINIT's by its one bit (log 16). -/
theorem test_decode_table_rows :
    (List.range 16).map (decodeTableWord 8) =
      [some .cfgchk, some .twinit, some .genwin, some .start, some .wait, some .read, some .window,
        some .fft, some .bitrev, some .unpack, some .mag, some .suppress, some .render, some .yield,
        some .rsvd14, some .halt] ∧
    decodeTableWord 1 1 = some .notify ∧ decodeTableWord 8 16 = none := by decide

/-! ## Ill-formed terms are refused -/

theorem test_wf_reserved_phase : Instr.wf .rsvd14 = false ∧ Instr.wf .halt = true := by decide

theorem test_wf_idle_line : OpWord.wf (.irq 0#1) = false ∧ OpWord.wf (.irq 1#1) = true := by decide

theorem test_wf_length_not_power : Cfg.lenPow2 (st 0 0).cfg = false ∧
    Cfg.lenPow2 (st 1 0).cfg = false ∧ Cfg.lenPow2 (st 3 0).cfg = false ∧
    Cfg.lenPow2 (st 2 0).cfg = true := by decide

theorem test_wf_length_above_max : Cfg.lengthLegal (st 8192 0).cfg = false ∧
    Cfg.lengthLegal (st 4096 0).cfg = true := by decide

theorem test_wf_unit_word : unitWord 0x3F800001#32 = false ∧ unitWord 0xBF800000#32 = false ∧
    unitWord 0x7FC00000#32 = false ∧ unitWord 0x3F800000#32 = true ∧ unitWord 0x80000000#32 = true := by
  decide

theorem test_wf_abs_unit_word : absUnitWord 0xBF800001#32 = false ∧ absUnitWord 0xFFC00000#32 = false ∧
    absUnitWord 0xBF800000#32 = true := by decide

theorem test_wf_table_premise_short_window :
    Cfg.tablePremise { Config.launchCfg with winNom := Config.win8.drop 1 } = false := by decide

theorem test_wf_table_premise_short_twiddles :
    Cfg.tablePremise { Config.launchCfg with twNom := Config.tw8.drop 1 } = false := by decide

theorem test_wf_table_premise_window_above_one :
    Cfg.tablePremise { Config.launchCfg with winNom := 0x40000000#32 :: Config.win8 } = false := by
  decide

theorem test_wf_table_premise_sine_above_one :
    Cfg.tablePremise { Config.launchCfg with twNom := (0#32, 0x40000000#32) :: Config.tw8 } = false := by
  decide

theorem test_wf_max_n : Cfg.maxNWf { Config.launchCfg with maxN := 4097 } = false ∧
    Cfg.maxNWf { Config.launchCfg with maxN := 2 ^ 24 } = false := by decide

theorem test_wf_cfg : Cfg.wf Config.launchCfg = true ∧ Cfg.wf (st 6 0).cfg = false := by decide

/-! ## Sample words, statuses, requests (vectors E2, E3, E4) -/

theorem test_sample_l16 : sampleWord layoutL16 [0x64#8, 0x30#8, 0xFF#8, 0x5F#8] 1 = 0x5FFF#32 ∧
    sampleCode layoutL16 0x3064#32 = 100#12 ∧ sampleTag layoutL16 0x3064#32 = 3#4 ∧
    sampleCode layoutL16 0x5FFF#32 = 4095#12 ∧ sampleTag layoutL16 0x5FFF#32 = 5#4 := by decide

theorem test_sample_l32 : sampleWord layoutL32 [0x08#8, 0xB0#8, 0xFC#8, 0xFF#8] 0 = 0xFFFCB008#32 ∧
    sampleCode layoutL32 0xFFFCB008#32 = 8#12 ∧ sampleTag layoutL32 0xFFFCB008#32 = 5#4 ∧
    sampleCode layoutL32 0x0002A007#32 = 7#12 ∧ sampleTag layoutL32 0x0002A007#32 = 5#4 ∧
    sampleCode layoutL32 0xFFFE1FFF#32 = 4095#12 ∧ sampleTag layoutL32 0xFFFE1FFF#32 = 0#4 := by decide

theorem test_status_codes : (statusOfCode 0b00#2, statusOfCode 0b01#2, statusOfCode 0b10#2,
    statusOfCode 0b11#2) = (.ok, .timeout, .bufferFull, .invalidState) := by decide

theorem test_mismatch_arg : tagMismatchArg 2#4 1 = 0x20000001#32 ∧
    tagMismatchArg 15#4 2047 = 0xF00007FF#32 := by decide

theorem test_read_max_len : readMaxLen (st 8 0) = 16#32 ∧ readMaxLen ((st 8 0).setFill 3) = 10#32 ∧
    readMaxLen ((st 8 0).setFill 7) = 2#32 := by decide

/-! ## One step per operation -/

/-- Vector I1: 4096 passes, 8192 raises InvalidLength. -/
theorem test_cfgchk : nextIs (exec .cfgchk (st 4096 P_CFGCHK)) (fun t =>
      t.ph == P_TWINIT && t.cause == 0#2 && t.out == []) = true ∧
    nextIs (exec .cfgchk (st 8192 P_CFGCHK)) (fun t =>
      t.ph == P_HALT && t.cause == 1#2 && t.out == [.event 5#4 1#32]) = true := by decide

/-- Vector I2, N = 8. -/
theorem test_twinit : nextIs (exec .twinit (st 8 P_TWINIT)) (fun t => t.ph == 2#4 && t.tw ==
    cells [0x3F800000#32, 0x00000000#32, 0x3F3504F3#32, 0x3F3504F3#32, 0x00000000#32, 0x3F800000#32,
      0xBF3504F3#32, 0x3F3504F3#32]) = true := by decide

/-- Example S4, N = 8. -/
theorem test_genwin : nextIs (exec .genwin (st 8 P_GENWIN)) (fun t => t.ph == 3#4 && t.win ==
    cells [0x00000000#32, 0x3E40C5F2#32, 0x3F1C7B91#32, 0x3F7352F3#32, 0x3F7352F3#32, 0x3F1C7B91#32,
      0x3E40C5F2#32, 0x00000000#32]) = true := by decide

/-- Vector I4, both answers, with the request of program P1. -/
theorem test_start : nextIs (exec .start (starts (st 8 P_START) [0#1])) (fun t =>
      t.ph == 4#4 && t.cause == 0#2 && t.out == [.stReq 3#4 20000#32 12#32 0#32]) = true ∧
    nextIs (exec .start (starts (st 8 P_START) [1#1])) (fun t =>
      t.ph == 0xF#4 && t.cause == 2#2 && t.out.getLast? == some (.event 5#4 2#32)) = true := by decide

/-- Vector I5. -/
theorem test_halt_and_reserved : exec .halt (st 8 P_HALT) = .next (st 8 P_HALT) ∧
    exec .rsvd14 (st 8 P_RSVD14) = .next (st 8 P_RSVD14) := ⟨rfl, rfl⟩

/-- Vector A1: three events while blocked, and an event while in P_FFT. -/
theorem test_notify : nextIs (Safety.execSeq [.notify, .notify, .notify] (st 8 P_WAIT)) (fun t =>
      t.nf && t.ph == 4#4) = true ∧
    nextIs (step (sched (st 8 P_FFT) [.irq])) (fun t => t.nf && t.ph == 7#4) = true := by decide

/-- Vector A1: a pending wake passes, and WAIT without one changes nothing. -/
theorem test_wait : nextIs (exec .wait ((st 8 P_WAIT).setNf true)) (fun t =>
      !t.nf && t.ph == 5#4) = true ∧
    exec .wait (st 8 P_WAIT) = .next (st 8 P_WAIT) := ⟨by decide, rfl⟩

/-- Vector A2, seventh row: a mismatched word is skipped, the next one is written. -/
theorem test_read_mismatch : nextIs (exec .read (reads ((st 8 P_READ).setFill 3)
    [⟨0b00#2, 4#32, [0xFF#8, 0x5F#8, 0x64#8, 0x30#8]⟩])) (fun t =>
      t.fill == 5 && t.frame == [(4, 100#12)] && t.stat == 0b1000#4 && t.ph == 4#4 &&
      t.out == [.rdReq 10#32, .event 4#4 0x50000003#32]) = true := by decide

/-- Vector A2: a payload with BufferFull is ignored; the last two rows are refused. -/
theorem test_read_other : nextIs (exec .read (reads ((st 8 P_READ).setFill 3)
      [⟨0b10#2, 4#32, [0x64#8, 0x30#8, 0x64#8, 0x30#8]⟩])) (fun t =>
        t.fill == 3 && t.frame == [] && t.stat == 0b0010#4 && t.ph == 4#4 &&
        t.out == [.rdReq 10#32, .event 2#4 0#32]) = true ∧
    refusedAs (exec .read (reads ((st 8 P_READ).setFill 3) [⟨0b00#2, 12#32, []⟩]))
      .readCountAboveMaxLen = true ∧
    refusedAs (exec .read (reads ((st 8 P_READ).setFill 3) [⟨0b00#2, 3#32, []⟩]))
      .readCountNotWholeWords = true := by decide

/-- Vector W1. -/
theorem test_window : nextIs (exec .window (((st 8 P_WINDOW).setFrame
    (cells [4095#12, 0#12, 300#12, 1#12, 4095#12, 3#12, 500#12, 0#12])).setWin
    (cells [0x3F800000#32, 0x3F000000#32, 0x3F1C7B91#32, 0x3E40C5F2#32, 0x3F7352F3#32, 0x00000001#32,
      0x00000000#32, 0x00000000#32]))) (fun t => t.fill == 0 && t.ph == 7#4 && t.cbuf ==
    cells [0x457FF000#32, 0#32, 0x00000000#32, 0#32, 0x433760CE#32, 0#32, 0x3E40C5F2#32, 0#32,
      0x457343BE#32, 0#32, 0x00000003#32, 0#32, 0x00000000#32, 0#32, 0x00000000#32, 0#32]) = true := by
  decide +kernel

/-- The complex buffer of vector T3: (1, 1), (2, -1), (0, 3), (-1, 0.5). -/
def t3 : Memory 32 := cells [0x3F800000#32, 0x3F800000#32, 0x40000000#32, 0xBF800000#32,
  0x00000000#32, 0x40400000#32, 0xBF800000#32, 0x3F000000#32]

/-- The same after FFT: (2, 3.5), (0, 4.5), (-0.5, -5), (2.5, 1). -/
def t3Fft : Memory 32 := cells [0x40000000#32, 0x40600000#32, 0x00000000#32, 0x40900000#32,
  0xBF000000#32, 0xC0A00000#32, 0x40200000#32, 0x3F800000#32]

/-- The same after BITREV: (2, 3.5), (-0.5, -5), (0, 4.5), (2.5, 1). -/
def t3Bitrev : Memory 32 := cells [0x40000000#32, 0x40600000#32, 0xBF000000#32, 0xC0A00000#32,
  0x00000000#32, 0x40900000#32, 0x40200000#32, 0x3F800000#32]

/-- The nominal rotation pairs for N = 4 (R144). -/
def tw4 : Memory 32 := cells [0x3F800000#32, 0x00000000#32, 0x00000000#32, 0x3F800000#32]

/-- Vector T3. -/
theorem test_fft : nextIs (exec .fft (((st 4 P_FFT).setTw tw4).setCbuf t3)) (fun t =>
    t.ph == 8#4 && t.cbuf == t3Fft) = true := by decide +kernel

/-- R201: a length that is not a power of two. -/
theorem test_engine_length : engineFaults (exec .fft (st 6 P_FFT)) = true ∧
    engineFaults (exec .bitrev (st 1 P_BITREV)) = true ∧
    engineFaults (exec .unpack (st 0 P_UNPACK)) = true := by decide

/-- Vector T3. -/
theorem test_bitrev : nextIs (exec .bitrev ((st 4 P_BITREV).setCbuf t3Fft)) (fun t =>
    t.ph == 9#4 && t.cbuf == t3Bitrev) = true := by decide

/-- Vector T3: the imaginary part of element 0 is discarded; element 1 is (2, -6). -/
theorem test_unpack : nextIs (exec .unpack ((st 4 P_UNPACK).setCbuf t3Bitrev)) (fun t =>
    t.ph == 0xA#4 && t.cbuf.take 4 ==
      cells [0x40000000#32, 0x00000000#32, 0x40000000#32, 0xC0C00000#32]) = true := by decide +kernel

/-- Vector M1, N = 8: (3, 4), (-0, +0), (1e-30, 0), (2400, 0). -/
theorem test_mag : nextIs (exec .mag ((st 8 P_MAG).setCbuf
    (cells [0x40400000#32, 0x40800000#32, 0x80000000#32, 0x00000000#32, 0x0DA24260#32, 0x00000000#32,
      0x45160000#32, 0x00000000#32]))) (fun t => t.ph == 0xB#4 && t.spec ==
    cells [0x3F200000#32, 0x00000000#32, 0x00000000#32, 0x43960000#32]) = true := by decide +kernel

/-- Vector M1, N = 2: (1, 1), an inexact root. -/
theorem test_mag_inexact : nextIs (exec .mag ((st 2 P_MAG).setCbuf
    (cells [0x3F800000#32, 0x3F800000#32]))) (fun t => t.spec == cells [0x3F3504F3#32]) = true := by
  decide +kernel

/-- Vector M2: K = 1 and K = 1000. -/
theorem test_suppress : nextIs (exec .suppress ((st 8 P_SUPPRESS).setSpec
      (cells [0x42FEF39A#32, 0x42FBF117#32, 0x429A0747#32, 0x425C2319#32]))) (fun t =>
        t.ph == 0xC#4 &&
        t.spec == cells [0#32, 0x42FBF117#32, 0x429A0747#32, 0x425C2319#32]) = true ∧
    nextIs (exec .suppress { (st 8 P_SUPPRESS) with
        cfg := { Config.launchCfg with k := 1000#32 }
        spec := cells [0x42FEF39A#32, 0x42FBF117#32, 0x429A0747#32, 0x425C2319#32] }) (fun t =>
        t.spec == cells [0#32, 0#32, 0#32, 0#32]) = true := by decide

/-- Vector D1. -/
theorem test_render : nextIs (exec .render ((st 8 P_RENDER).setSpec
    (cells [0x00000000#32, 0x42FBF117#32, 0x429A0747#32, 0x425C2319#32]))) (fun t =>
      t.ph == 0xD#4 && t.out == [.rndr {
        length := 4#32
        magnitudes := [0x00000000#32, 0x42FBF117#32, 0x429A0747#32, 0x425C2319#32]
        displayWidth := 64#32
        displayHeight := 16#32
        minScale := 0x00000000#32
        maxScale := 0x43000000#32
        fillGlyph := 0x23#8 }]) = true := by decide

/-- R254: what one frame shows is the message RENDER sends; a YIELD pulse is none. -/
theorem test_rendered :
    nextIs (exec .render ((st 2 P_RENDER).setSpec (cells [0x3F800000#32]))) (fun t =>
      (Safety.rendered (st 2 P_RENDER) t).map RndrMsg.magnitudes == [[0x3F800000#32]]) = true ∧
    nextIs (exec .yield (st 2 P_YIELD)) (fun t => Safety.rendered (st 2 P_YIELD) t == []) = true := by
  decide

/-- Vector D2. -/
theorem test_yield : nextIs (exec .yield (st 8 P_YIELD)) (fun t =>
    t.ph == 4#4 && t.out == [.yieldEvt]) = true := by decide

/-! ## Shared operations -/

/-- Vector T7. -/
theorem test_butterfly : butterfly (fun _ => 0#32) (fun k => ⟨0, 0, 0, k⟩) 0x3F3504F3#32 0x3F3504F3#32
    0 1 (cells [0x3F800000#32, 0#32, 0x3F800000#32, 0x3F800000#32]) =
    cells [0x401A827A#32, 0x00000000#32, 0xBED413CC#32, 0x00000000#32] := by decide +kernel

/-- Vector T6, stage 3 of N = 16; and the index map of vector T5, N = 8. -/
theorem test_index_maps : (List.range 8).map (fftPair 4) = [0, 4, 2, 6, 1, 5, 3, 7] ∧
    (List.range 8).map (brev 3) = [0, 4, 2, 6, 1, 5, 3, 7] := by decide

/-- R144 and R146, N = 16. -/
theorem test_nominal_tables : nominalTw 16 =
      [(0x3F800000#32, 0x00000000#32), (0x3F6C835E#32, 0x3EC3EF15#32), (0x3F3504F3#32, 0x3F3504F3#32),
        (0x3EC3EF15#32, 0x3F6C835E#32), (0x00000000#32, 0x3F800000#32), (0xBEC3EF15#32, 0x3F6C835E#32),
        (0xBF3504F3#32, 0x3F3504F3#32), (0xBF6C835E#32, 0x3EC3EF15#32)] ∧
    nominalWin 16 =
      [0x00000000#32, 0x3D310F14#32, 0x3E2967B7#32, 0x3EB0E443#32, 0x3F0D6130#32, 0x3F400000#32,
        0x3F678DDE#32, 0x3F7D33F1#32, 0x3F7D33F1#32, 0x3F678DDE#32, 0x3F400000#32, 0x3F0D6130#32,
        0x3EB0E443#32, 0x3E2967B7#32, 0x3D310F14#32, 0x00000000#32] := by decide +kernel

/-- R252: P_YIELD is shown as Render, and a macro state expands as R121 says. -/
theorem test_macro_states : macroState P_YIELD = .render ∧ macroState P_BITREV = .transform ∧
    macroExpansion .transform = [.fft, .bitrev, .unpack] := by decide

/-- Blocked, halted and awaiting phases have no step of the consumer (R103, R149, R164). -/
theorem test_consumer_enabled : consumerEnabled (st 8 P_WAIT) = false ∧
    consumerEnabled ((st 8 P_WAIT).setNf true) = true ∧ consumerEnabled (st 8 P_HALT) = false ∧
    consumerEnabled (st 8 P_START) = false ∧ consumerEnabled (st 8 P_READ) = true := by decide

/-- `withFetchWord` makes the next step run the row's operation: HALT, TWINIT and NOTIFY. -/
theorem test_with_fetch_word : step (State.reset.withFetchWord 8 15) =
      .next (State.reset.setPh P_HALT) ∧
    nextIs (step (State.reset.withFetchWord 8 1)) (fun t => t.ph == P_GENWIN) = true ∧
    nextIs (step (State.reset.withFetchWord 1 1)) (fun t => t.nf && t.ph == P_CFGCHK) = true := by
  refine ⟨rfl, ?_, ?_⟩ <;> decide

/-! ## Witnesses: inputs that meet the hypotheses of each statement -/

theorem witness_ResetPutsEveryRegisterAtItsResetValue :
    (sched (st 8 P_FFT) [.reset]).env.nextMove = .reset := rfl

theorem witness_StepRunsTheSelectedOperation :
    (st 8 P_WAIT).env.sched = [] ∧ (sched (st 8 P_WAIT) [.consumer]).env.sched.head? = some .consumer ∧
    (sched (st 8 P_WAIT) [.irq]).env.sched.head? = some .irq ∧
    (sched (st 8 P_WAIT) [.reset]).env.sched.head? = some .reset ∧
    (sched (st 8 P_WAIT) [.idle]).env.sched.head? = some .idle := ⟨rfl, rfl, rfl, rfl, rfl⟩

theorem witness_EncodingIsUnambiguous :
    16 ≤ (0x10#8).toNat ∧ 16 ≤ (0xFF#8).toNat ∧ 2 ≤ (0x02#8).toNat := by decide

theorem witness_NotifySetsTheFlagAlone :
    (sched (st 8 P_HALT) [.irq]).env.sched.head? = some .irq := rfl

theorem witness_NotificationsCoalesce :
    (sched (st 8 P_WAIT) [.irq, .irq, .idle]).env.sched = List.replicate (1 + 1) .irq ++ [.idle] := rfl

theorem witness_WaitConsumesTheNotificationOrHolds :
    ((st 8 P_WAIT).setNf true).nf = true ∧ (st 8 P_WAIT).nf = false := ⟨rfl, rfl⟩

theorem witness_BlockedWaitChangesNothing :
    (sched (st 8 P_WAIT) [.consumer, .idle, .irq]).ph = P_WAIT ∧
    (sched (st 8 P_WAIT) [.consumer, .idle, .irq]).nf = false ∧
    .irq ∉ (sched (st 8 P_WAIT) [.consumer, .idle, .irq]).env.sched.take 2 ∧
    .reset ∉ (sched (st 8 P_WAIT) [.consumer, .idle, .irq]).env.sched.take 2 := by decide

theorem witness_SetWinsOverClearInTheSameInstant :
    (sched ((st 8 P_WAIT).setNf true) [.consumer, .irq]).ph = P_WAIT ∧
    (sched ((st 8 P_WAIT).setNf true) [.consumer, .irq]).nf = true ∧
    (sched ((st 8 P_WAIT).setNf true) [.consumer, .irq]).env.sched = .consumer :: .irq :: [] := by
  decide

/-- The three moves that change NF: an event, WAIT and reset. -/
theorem witness_WakeIsNeverLost :
    nextIs (step (sched (st 8 P_WAIT) [.irq])) (fun t => t.nf) = true ∧
    nextIs (step ((st 8 P_WAIT).setNf true)) (fun t => !t.nf && t.ph == P_READ) = true ∧
    nextIs (step (sched ((st 8 P_FFT).setNf true) [.reset])) (fun t => !t.nf) = true := by decide

theorem witness_NotifyCommutesWithEveryOtherOperation :
    Instr.yield ≠ .wait ∧ Instr.yield ≠ .notify ∧
    nextIs (exec .yield (st 8 P_YIELD)) (fun _ => true) = true := by decide

/-- Both ends of the legal range, and the lengths next to them. -/
theorem witness_CfgchkAcceptsExactlyTheLegalLengths :
    ((∃ k, (st 2 P_CFGCHK).cfg.n.toNat = 2 ^ k) ∧ 2 ≤ (st 2 P_CFGCHK).cfg.n.toNat ∧
      (st 2 P_CFGCHK).cfg.n.toNat ≤ (st 2 P_CFGCHK).cfg.maxN) ∧
    ((∃ k, (st 4096 P_CFGCHK).cfg.n.toNat = 2 ^ k) ∧ 2 ≤ (st 4096 P_CFGCHK).cfg.n.toNat ∧
      (st 4096 P_CFGCHK).cfg.n.toNat ≤ (st 4096 P_CFGCHK).cfg.maxN) ∧
    ¬ 2 ≤ (st 1 P_CFGCHK).cfg.n.toNat ∧
    ¬ (st 8192 P_CFGCHK).cfg.n.toNat ≤ (st 8192 P_CFGCHK).cfg.maxN :=
  ⟨⟨⟨1, rfl⟩, by decide, by decide⟩, ⟨⟨12, rfl⟩, by decide, by decide⟩, by decide, by decide⟩

/-- A length within the bounds that is no power of two. -/
theorem witness_CfgchkAcceptsExactlyTheLegalLengths_not_power :
    ¬ (∃ k, (st 6 P_CFGCHK).cfg.n.toNat = 2 ^ k) := by
  rintro ⟨k, hk⟩
  have h6 : (st 6 P_CFGCHK).cfg.n.toNat = 6 := rfl
  rw [h6] at hk
  rcases Nat.lt_or_ge k 3 with h | h
  · interval_cases k <;> omega
  · have := Nat.pow_le_pow_right (show 0 < 2 by decide) h
    omega

theorem witness_BitReversalIsAnInvolution : 0 < 2 ^ 0 ∧ 7 < 2 ^ 3 ∧ 2 < 3 := by decide

theorem witness_TwinitWritesTheTable : 3 < (st 8 P_TWINIT).len / 2 ∧
    2 * ((st 8 P_TWINIT).len / 2) ≤ 8 := by decide

theorem witness_GenwinWritesTheWindow : 7 < (st 8 P_GENWIN).len ∧ (st 8 P_GENWIN).len ≤ 8 := by decide

theorem witness_WindowTableIsIdempotent :
    (st 8 P_GENWIN).cfg = (((st 8 P_GENWIN).setNf true).setWin (cells [1#32])).cfg ∧
    0 < (st 8 P_GENWIN).len := ⟨rfl, by decide⟩

theorem witness_StartFollowsTheAnswer :
    (starts (st 8 P_START) [0#1]).env.starts = 0#1 :: [] ∧
    (starts (st 8 P_START) [1#1, 0#1]).env.starts = 1#1 :: [0#1] ∧ (st 8 P_START).env.starts = [] :=
  ⟨rfl, rfl, rfl⟩

/-- An environment that answers the start request; a legal and an illegal length. -/
theorem witness_InitialisationReachesTheRunLoop :
    (starts (st 8 P_CFGCHK) [0#1]).env.sched = [] ∧
    (starts (st 8 P_CFGCHK) [0#1]).env.starts = 0#1 :: [] ∧
    (starts (st 8 P_CFGCHK) [1#1]).env.starts = 1#1 :: [] ∧
    (st 8 P_CFGCHK).cfg.lengthLegal = true ∧ (st 1000 P_CFGCHK).cfg.lengthLegal = false := by decide

theorem witness_HaltedUntilReset :
    (sched (st 8 P_HALT) [.irq, .reset]).ph = P_HALT ∧
    .reset ∉ (sched (st 8 P_HALT) [.irq, .reset]).env.sched.take 1 := by decide

/-- A response of three words to a frame with three places left: a match, a mismatch, a match. -/
def threeWords : RdRsp := ⟨0b00#2, 6#32, [0x2C#8, 0x31#8, 0xFF#8, 0x5F#8, 0x64#8, 0x30#8]⟩

theorem witness_ReadAppendsMatchingSamples :
    threeWords = (reads ((st 8 P_READ).setFill 5) [threeWords]).env.nextRead ∧
    threeWords.status = 0b00#2 ∧
    threeWords.count.toNat ≤ (readMaxLen (reads ((st 8 P_READ).setFill 5) [threeWords])).toNat ∧
    threeWords.count.toNat = (st 8 P_READ).layout.wordBytes * 3 ∧
    threeWords.bytes.length = threeWords.count.toNat ∧
    sampleTag (st 8 P_READ).layout (sampleWord (st 8 P_READ).layout threeWords.bytes 0) =
      (st 8 P_READ).cfg.ch ∧
    sampleTag (st 8 P_READ).layout (sampleWord (st 8 P_READ).layout threeWords.bytes 1) ≠
      (st 8 P_READ).cfg.ch := by decide

/-- Each non-Ok status, one with a payload. -/
theorem witness_ReadWithANonOkStatusAppendsNothing :
    ∀ r ∈ [⟨0b01#2, 0#32, []⟩, ⟨0b10#2, 2#32, [0x64#8, 0x30#8]⟩, ⟨0b11#2, 0#32, []⟩],
      r = (reads (st 8 P_READ) [r]).env.nextRead ∧
      r.count.toNat ≤ (readMaxLen (reads (st 8 P_READ) [r])).toNat ∧
      r.count.toNat % (st 8 P_READ).layout.wordBytes = 0 ∧ r.bytes.length = r.count.toNat ∧
      ∃ bit code, (r.status, bit, code) ∈
        [(0b01#2, 0b0001#4, 1#4), (0b10#2, 0b0010#4, 2#4), (0b11#2, 0b0100#4, 3#4)] := by
  intro r hr
  simp only [List.mem_cons, List.not_mem_nil, or_false] at hr
  rcases hr with rfl | rfl | rfl
  · exact ⟨rfl, by decide, by decide, by decide, 0b0001#4, 1#4, by decide⟩
  · exact ⟨rfl, by decide, by decide, by decide, 0b0010#4, 2#4, by decide⟩
  · exact ⟨rfl, by decide, by decide, by decide, 0b0100#4, 3#4, by decide⟩

/-- With two bytes of capacity left: a count of 3, of 1, of 2 without its payload, of 2 with it. -/
theorem witness_ReadRefusesABrokenContract :
    (readMaxLen ((st 8 P_READ).setFill 7)).toNat = 2 ∧ (st 8 P_READ).layout.wordBytes = 2 ∧
    2 < (3#32).toNat ∧ (1#32).toNat ≤ 2 ∧ (1#32).toNat % 2 ≠ 0 ∧ (2#32).toNat ≤ 2 ∧
    (2#32).toNat % 2 = 0 ∧ ([] : List Byte).length ≠ (2#32).toNat ∧
    [0x64#8, 0x30#8].length = (2#32).toNat ∧ ((st 8 P_READ).setFill 7).fill ≤ (st 8 P_READ).len := by
  decide

theorem witness_ReadOfAnEmptyDeliveryKeepsProgress :
    (reads ((st 8 P_READ).setFill 3) [⟨0b00#2, 0#32, []⟩]).env.reads = ⟨0b00#2, 0#32, []⟩ :: [] := rfl

/-- Four responses, one of them a Timeout and one empty, that fill a frame of length 4. -/
theorem witness_FrameIsDeterminedByTheSampleSequence :
    nextIs (Safety.execSeq (List.replicate 4 .read) (reads (st 4 P_READ)
      [⟨0b00#2, 2#32, [0x64#8, 0x30#8]⟩, ⟨0b01#2, 0#32, []⟩, ⟨0b00#2, 0#32, []⟩,
        threeWords])) (fun t => t.fill == 4) = true := by decide

theorem witness_SampleWordsAreLittleEndianFields :
    [0x64#8, 0x30#8].length = 2 * 1 ∧ [0x2C#8, 0x61#8, 0x00#8, 0x00#8].length = 4 * 1 ∧
    ([] : List Byte).length = 2 * 0 := by decide

theorem witness_WindowFormsTheComplexFrame : 7 < (st 8 P_WINDOW).len ∧
    2 * (st 8 P_WINDOW).len ≤ 16 := by decide

theorem witness_ButterflyComputesBothElements : (0 : Nat) ≠ 1 ∧ 4 / 2 ≠ 0 ∧ 4 / 2 ≠ 1 := by decide

/-- The shortest length, and the last butterfly of the last stage of N = 8. -/
theorem witness_FftIsItsButterflyNetwork :
    (st 2 P_FFT).len = 2 ^ 1 ∧ (st 8 P_FFT).len = 2 ^ 3 ∧ 2 < 3 ∧ 3 < 2 ^ 2 ∧
    0 < (st 8 P_FFT).len / 2 ^ (2 + 1) := by decide

theorem witness_EngineFaultsOnAnUndefinedLength : ¬ (∃ k, 1 ≤ k ∧ (st 0 P_FFT).len = 2 ^ k) := by
  rintro ⟨k, -, hk⟩
  have h0 : (st 0 P_FFT).len = 0 := rfl
  rw [h0] at hk
  exact absurd hk.symm (Nat.pow_pos (by decide)).ne'

theorem witness_BitrevPermutesTheElements : (st 2 P_BITREV).len = 2 ^ 1 ∧ 1 < (st 2 P_BITREV).len ∧
    2 * (st 2 P_BITREV).len ≤ 4 := by decide

theorem witness_BitrevTwiceRestoresTheBuffer : (st 8 P_BITREV).len = 2 ^ 3 ∧ 1 ≤ 3 := by decide

/-- The shortest length with a bin above 0, at that bin. -/
theorem witness_UnpackFormsTheOneSidedSpectrum : (st 4 P_UNPACK).len = 2 ^ 2 ∧
    1 ≤ (st 4 P_UNPACK).len / 2 - 1 ∧ 2 * (st 4 P_UNPACK).len ≤ 8 := by decide

/-- The spectrum of vector T2 after BITREV: (10, 0), (-2, 2), (-2, 0), (-2, -2). -/
def realSpectrum : State := (st 4 P_UNPACK).setCbuf (cells [0x41200000#32, 0#32, 0xC0000000#32,
  0x40000000#32, 0xC0000000#32, 0#32, 0xC0000000#32, 0xC0000000#32])

theorem witness_UnpackDoublesARealBin :
    realSpectrum.len = 2 ^ 2 ∧ 1 ≤ realSpectrum.len / 2 - 1 ∧
    realSpectrum.cbufAt (2 * (realSpectrum.len - 1)) = realSpectrum.cbufAt (2 * 1) ∧
    realSpectrum.cbufAt (2 * (realSpectrum.len - 1) + 1) = negate (realSpectrum.cbufAt (2 * 1 + 1)) ∧
    |toRat (realSpectrum.cbufAt (2 * 1))| < 2 ^ 127 ∧ |toRat (realSpectrum.cbufAt (2 * 1 + 1))| < 2 ^ 127 ∧
    isFinite (realSpectrum.cbufAt (2 * 1)) = true ∧ isFinite (realSpectrum.cbufAt (2 * 1 + 1)) = true := by
  refine ⟨rfl, by decide, rfl, rfl, ?_, ?_, rfl, rfl⟩ <;> decide +kernel

theorem witness_MagComputesTheMagnitudes : 3 < (st 8 P_MAG).len / 2 ∧ (st 8 P_MAG).len / 2 ≤ 4 := by
  decide

/-- A magnitude that is a number, and one that is not (of a NaN). -/
theorem witness_MagnitudesAreNeverNegative :
    nextIs (exec .mag ((st 4 P_MAG).setCbuf (cells [0xC0800000#32, 0x40800000#32, 0x7FC00000#32, 0#32])))
      (fun t => !isNaN (t.specAt 0)) = true := by decide +kernel

theorem witness_UpperHalfIsNeverRead :
    ∀ q, q < ((st 2 P_MAG).setCbuf (cells [1#32, 2#32])).len →
      Memory.find (cells [1#32, 2#32, 3#32]) q = ((st 2 P_MAG).setCbuf (cells [1#32, 2#32])).cbuf.find q := by
  decide

theorem witness_SuppressZeroesTheLowBins : 0 < (st 8 P_SUPPRESS).cfg.k.toNat ∧
    0 < (st 8 P_SUPPRESS).len / 2 ∧ min (st 8 P_SUPPRESS).cfg.k.toNat ((st 8 P_SUPPRESS).len / 2) ≤ 1 := by
  decide

/-- The same with answers of the renderer. -/
def renders (s : State) (as : List RenderAnswer) : State := s.setEnv { s.env with renders := as }

theorem witness_RenderSendsTheSpectrum :
    (st 8 P_RENDER).env.renders = [] ∧
    (renders (st 8 P_RENDER) [.accepts]).env.renders.head? = some .accepts ∧
    (renders (st 8 P_RENDER) [.busy]).env.renders.head? = some .busy := ⟨rfl, rfl, rfl⟩

/-- Every row of the table: a state in that phase whose consumer step is answered. -/
theorem witness_SuccessorTable :
    ∀ s ∈ [st 8 P_CFGCHK, st 6 P_CFGCHK, st 8 P_TWINIT, st 8 P_GENWIN, starts (st 8 P_START) [0#1],
        starts (st 8 P_START) [1#1], st 8 P_START, st 8 P_WAIT, (st 8 P_WAIT).setNf true, st 8 P_READ,
        st 8 P_WINDOW, st 8 P_FFT, st 8 P_BITREV, st 8 P_UNPACK, st 8 P_MAG, st 8 P_SUPPRESS,
        st 8 P_RENDER, renders (st 8 P_RENDER) [.busy], st 8 P_YIELD, st 8 P_HALT, st 8 P_RSVD14],
      s.env.nextMove = .consumer ∧ nextIs (step s) (fun _ => true) = true := by decide

/-- READ with `FILL = N` after the operation. -/
theorem witness_SuccessorTable_read :
    nextIs (step (reads ((st 8 P_READ).setFill 5) [threeWords])) (fun t => t.fill == t.len) = true := by
  decide

theorem witness_IterationReachesItsBoundary :
    (st 8 P_WINDOW).ph = P_WINDOW ∧ (st 8 P_WINDOW).cfg.lengthLegal = true ∧
    (st 8 P_WINDOW).cause = 0#2 ∧ (st 8 P_WINDOW).env.sched = [] ∧
    (st 8 P_WINDOW).env.rendererAccepts = true := by decide

/-- R254, program P4: after START, after an empty READ and while blocked the registers are those of a
boundary, and there is none; a YIELD step makes one. -/
theorem test_boundary_is_a_yield_step :
    (∀ s ∈ [starts (st 8 P_START) [0#1], reads (st 8 P_READ) [⟨0b00#2, 0#32, []⟩], st 8 P_WAIT],
      nextIs (step s) Safety.boundaryRegisters = true ∧ ∀ t, ¬ Safety.iterationBoundary s t) ∧
    Safety.iterationBoundary (st 8 P_YIELD) (((st 8 P_YIELD).send .yieldEvt).setPh P_WAIT) := by
  refine ⟨fun s hs => ?_, rfl, rfl, rfl⟩
  simp only [List.mem_cons, List.not_mem_nil, or_false] at hs
  rcases hs with rfl | rfl | rfl <;>
    exact ⟨by decide, fun t h => absurd h.2.1 (by decide)⟩

/-- A silent frame of length 2 with the nominal twiddles and a rectangular window. -/
def silent : State := (((st 2 P_WINDOW).setFrame (cells [0#12, 0#12])).setWin
  (cells [0x3F800000#32, 0x3F800000#32])).setTw (cells [0x3F800000#32, 0#32])

theorem witness_SilentFrameGivesAZeroSpectrum :
    silent.len = 2 ^ 1 ∧ (∀ i, i < silent.len → silent.frameAt i = 0#12) ∧
    (∀ i, i < silent.len → isFinite (silent.winAt i) = true) ∧
    (∀ q, q < silent.len → isFinite (silent.twAt q) = true) ∧
    (∀ i, i < silent.len → signBit (silent.winAt i) = false) := by decide

/-- R190's corner cases: a zero code times a negative coefficient, and times -0.0. -/
theorem test_window_negative_zero : nextIs (exec .window (((st 2 P_WINDOW).setFrame
    (cells [0#12, 0#12])).setWin (cells [0xBF800000#32, 0x80000000#32]))) (fun t => t.cbuf ==
    cells [0x80000000#32, 0#32, 0x80000000#32, 0#32]) = true := by decide

theorem witness_FiniteTablesGiveFiniteResults :
    silent.cfg.lengthLegal = true ∧ silent.cfg.maxNWf = true ∧
    (∀ i, i < silent.len → unitWord (silent.winAt i) = true) ∧
    (∀ q, q < silent.len → absUnitWord (silent.twAt q) = true) := by decide

theorem witness_OperationsReachOnlyTheirSpaces :
    nextIs (exec .yield (st 8 P_YIELD)) (fun _ => true) = true ∧ Instr.yield ≠ .twinit ∧
    Instr.yield ≠ .genwin ∧ Instr.yield ≠ .read ∧ Instr.yield ∉ [.window, .fft, .bitrev, .unpack] ∧
    Instr.yield ∉ [.mag, .suppress] ∧ Instr.yield ∉ [.read, .window] := by decide

/-- A READ step that sets a bit, and a reset that clears one. -/
theorem witness_StatusBitsAreSticky :
    nextIs (step (st 8 P_READ)) (fun t => t.stat == 0b0001#4) = true ∧
    nextIs (step (sched ((st 8 P_READ).setStatBit 0b1000#4) [.reset])) (fun t => t.stat == 0#4) = true := by
  decide

theorem witness_CauseIsWrittenByInitialisationAlone :
    nextIs (exec .cfgchk (st 6 P_CFGCHK)) (fun t => t.cause == 1#2 && t.ph == P_HALT) = true ∧
    nextIs (exec .start (starts (st 8 P_START) [1#1])) (fun t => t.cause == 2#2) = true := by decide

theorem witness_ConfigurationNeverChanges :
    nextIs (step (st 8 P_MAG)) (fun _ => true) = true ∧ (st 8 P_MAG).env.nextMove ≠ .reset ∧
    (st 8 P_MAG).ph ≠ P_TWINIT ∧ (st 8 P_MAG).ph ≠ P_GENWIN := by decide

/-- The reset state, and a state with a complete frame, meet the invariant. -/
theorem witness_StepKeepsTheInvariant_reset : Safety.Inv State.reset := by
  constructor <;> simp [State.reset, State.launched, State.memWf, Memory.within, Memory.full]

/-- Two listed cells stay within a space of at least two, and fill one of two. -/
theorem cells_within {w : Nat} (x y : BitVec w) {n : Nat} (hn : 2 ≤ n) : Memory.within (cells [x, y]) n := by
  intro i v h
  change Memory.find [(0, x), (1, y)] i = some v at h
  simp only [Memory.find] at h
  split_ifs at h <;> omega

theorem cells_full {w : Nat} (x y : BitVec w) : Memory.full (cells [x, y]) 2 := by
  intro i hi
  rcases (show i = 0 ∨ i = 1 by omega) with rfl | rfl
  · exact ⟨x, rfl⟩
  · exact ⟨y, rfl⟩

/-- With both tables written, a complete frame about to be windowed and an open one about to be read meet
the invariant, whatever the environment. -/
theorem silent_inv (f : Nat) (p : Phase) (e : Env)
    (h : (p = P_WINDOW ∧ f = 2) ∨ (p = P_READ ∧ f < 2)) :
    Safety.Inv { silent with fill := f, ph := p, env := e } where
  memWf := (by decide : silent.memWf = true)
  frameWithin := cells_within _ _ (by decide : 2 ≤ silent.len)
  winWithin := cells_within _ _ (by decide : 2 ≤ silent.len)
  twWithin := cells_within _ _ (by decide : 2 ≤ silent.len)
  cbufWithin := Memory.within_nil _
  specWithin := Memory.within_nil _
  fillLe := by
    change f ≤ 2
    omega
  notReserved := by
    change p ≠ P_RSVD14
    rcases h with ⟨rfl, -⟩ | ⟨rfl, -⟩ <;> decide
  causeLegal := (by decide : silent.cause ≠ 3#2)
  haltCause := by
    change p = P_HALT ↔ silent.cause ≠ 0#2
    rcases h with ⟨rfl, -⟩ | ⟨rfl, -⟩ <;> decide
  lengthLegal := fun _ _ => (by decide : silent.cfg.lengthLegal = true)
  fillFull := by
    change p = P_WINDOW → f = 2
    rcases h with ⟨rfl, rfl⟩ | ⟨rfl, -⟩
    · exact fun _ => rfl
    · exact fun h => absurd h (by decide)
  fillOpen := by
    change p = P_WAIT ∨ p = P_READ → f < 2
    rcases h with ⟨rfl, -⟩ | ⟨rfl, hf⟩
    · exact fun h => absurd h (by decide)
    · exact fun _ => hf
  fillZero := by
    rcases h with ⟨rfl, -⟩ | ⟨rfl, -⟩
    · exact fun _ _ h => absurd rfl h
    · exact fun _ h => absurd rfl h
  twFull := fun _ _ _ => cells_full _ _
  winFull := fun _ _ _ _ => cells_full _ _
  cbufFull := by
    change p = P_FFT ∨ p = P_BITREV ∨ p = P_UNPACK ∨ p = P_MAG → _
    rcases h with ⟨rfl, -⟩ | ⟨rfl, -⟩ <;> exact fun h => absurd h (by decide)
  specFull := by
    change p = P_SUPPRESS ∨ p = P_RENDER ∨ p = P_YIELD → _
    rcases h with ⟨rfl, -⟩ | ⟨rfl, -⟩ <;> exact fun h => absurd h (by decide)
  suppressed := by
    change p = P_RENDER ∨ p = P_YIELD → _
    rcases h with ⟨rfl, -⟩ | ⟨rfl, -⟩ <;> exact fun h => absurd h (by decide)

theorem witness_StepKeepsTheInvariant_window : Safety.Inv (silent.setFill 2) :=
  silent_inv 2 P_WINDOW Env.empty (.inl ⟨rfl, rfl⟩)

theorem witness_StepKeepsTheInvariant_step :
    nextIs (step (silent.setFill 2)) (fun t => t.ph == P_FFT) = true := by decide

/-- A state that meets the invariant, and whose READ is answered with a count above the capacity. -/
theorem witness_OnlyABrokenContractStopsAReachableState :
    Safety.Inv (reads (silent.setPh P_READ) [⟨0b00#2, 5#32, []⟩]) ∧
    refusedAs (step (reads (silent.setPh P_READ) [⟨0b00#2, 5#32, []⟩])) .readCountAboveMaxLen = true :=
  ⟨silent_inv 0 P_READ _ (.inr ⟨rfl, by decide⟩), by decide⟩

theorem witness_CsrViewsShowTheRegisters : 12 ≤ 12 ∧ 11 < 12 := by decide

/-- The largest finite value, half a unit in its last place, and their negations. -/
def maxFinite : Word := 0x7F7FFFFF#32

/-- The sum is exactly the bound from which the result is an infinity, and one addend less is below. -/
theorem witness_SumsAreRoundedOnce :
    isFinite maxFinite = true ∧ isFinite 0x73000000#32 = true ∧ isFinite 0x72FFFFFF#32 = true ∧
    toRat maxFinite + toRat 0x73000000#32 = 2 ^ 128 - 2 ^ 103 ∧
    |toRat maxFinite + toRat 0x72FFFFFF#32| < 2 ^ 128 - 2 ^ 103 ∧
    toRat 0xFF7FFFFF#32 - toRat 0x73000000#32 = -(2 ^ 128 - 2 ^ 103) := by decide +kernel

theorem witness_ProductsAreRoundedOnce :
    isFinite maxFinite = true ∧ isFinite 0xC0000000#32 = true ∧
    2 ^ 128 - 2 ^ 103 ≤ toRat maxFinite * toRat 0x40000000#32 ∧
    toRat maxFinite * toRat 0xC0000000#32 ≤ -(2 ^ 128 - 2 ^ 103) ∧
    |toRat 0x40400000#32 * toRat 0x3F3504F3#32| < 2 ^ 128 - 2 ^ 103 := by decide +kernel

theorem witness_QuotientsAreRoundedOnce :
    isFinite maxFinite = true ∧ isFinite 0x00000001#32 = true ∧ isZero 0x00000001#32 = false ∧
    2 ^ 128 - 2 ^ 103 ≤ toRat maxFinite / toRat 0x00000001#32 ∧
    |toRat 0x3F800000#32 / toRat 0x40400000#32| < 2 ^ 128 - 2 ^ 103 := by decide +kernel

theorem witness_SquareRootsAreRoundedOnce :
    isFinite 0x40000000#32 = true ∧ 0 ≤ toRat 0x40000000#32 ∧ isFinite 0x80000000#32 = true ∧
    0 ≤ toRat 0x80000000#32 := by decide +kernel

theorem witness_SmallIntegersConvertExactly : 0 < 2 ^ 24 ∧ 2 ^ 24 - 1 < 2 ^ 24 := by decide

/-- Operands of every clause: 1 and -1, +0 and -0, both infinities, two NaNs. -/
theorem witness_ZeroSignsAndNaNsFollowTheDefaults :
    isFinite 0x3F800000#32 = true ∧ isNaN 0x7FC00000#32 = true ∧ isNaN 0xFF800001#32 = true ∧
    isFinite 0x80000000#32 = true ∧ toRat 0x3F800000#32 + toRat 0xBF800000#32 = 0 ∧
    toRat 0x80000000#32 + toRat 0x80000000#32 = 0 ∧ toRat 0x80000000#32 = toRat 0x00000000#32 ∧
    isNaN (fmul ⟨0, 0, 0, 0⟩ 0x80000000#32 0x3F800000#32) = false ∧
    isNaN (fdiv ⟨0, 0, 0, 0⟩ 0x80000000#32 0x3F800000#32) = false ∧
    isInf 0x7F800000#32 = true ∧ isInf 0xFF800000#32 = true ∧
    signBit 0x7F800000#32 ≠ signBit 0xFF800000#32 ∧ isNaN 0x7F800000#32 = false ∧
    isZero 0x3F800000#32 = false ∧ isZero 0x80000000#32 = true ∧ isNaN 0x80000000#32 = false ∧
    signBit 0xBF800000#32 = true ∧ isZero 0xBF800000#32 = false := by decide +kernel

/-- IEEE 754's defaults on fixed operands: -0 * 1, 1 / -0, inf - inf, 0 * inf, the root of -1. -/
theorem test_default_results :
    fmul ⟨0, 0, 0, 0⟩ 0x80000000#32 0x3F800000#32 = 0x80000000#32 ∧
    fdiv ⟨0, 0, 0, 0⟩ 0x3F800000#32 0x80000000#32 = 0xFF800000#32 ∧
    fsub ⟨0, 0, 0, 0⟩ 0x7F800000#32 0x7F800000#32 = nanWord ⟨0, 0, 0, 0⟩ ∧
    fmul ⟨0, 0, 0, 0⟩ 0x00000000#32 0x7F800000#32 = nanWord ⟨0, 0, 0, 0⟩ ∧
    fsqrt ⟨0, 0, 0, 0⟩ 0xBF800000#32 = nanWord ⟨0, 0, 0, 0⟩ :=
  ⟨by decide, by decide, rfl, rfl, rfl⟩

end Sys2Proof.Tests
end

section
/-! The index helpers of 00_scope.md R24 and R25, BITREV applied twice (R210), and the step's selection of
an operation (R14, R100). -/

namespace Sys2Proof.Machine

/-! ## The power-of-two test (R25) -/

/-- Settles O13: a number with one bit set is a power of two, which is what the test accepts. -/
theorem powerOfTwoTestIsExact : Obligations.PowerOfTwoTestIsExact := by
  intro n
  rw [ispow2_eq_true]
  constructor
  · rintro ⟨-, k, rfl⟩
    exact ⟨k, fun b => by rw [Nat.testBit_two_pow, decide_eq_decide, eq_comm]⟩
  · rintro ⟨k, hk⟩
    have hn : n = 2 ^ k := Nat.eq_of_testBit_eq fun b => by
      rw [hk b, Nat.testBit_two_pow, decide_eq_decide, eq_comm]
    exact ⟨by rw [hn]; positivity, k, hn⟩

/-! ## Bit reversal (R24) -/

/-- Bit `b` of a reversed index is bit `w - 1 - b` of the index (R24). -/
theorem testBit_brev {w b : Nat} (hb : b < w) (i : Nat) :
    (brev w i).testBit b = i.testBit (w - 1 - b) := by
  induction w generalizing i with
  | zero => omega
  | succ w ih =>
    rw [brev, Nat.mul_comm]
    by_cases hbw : b < w
    · have hbit : w + 1 - 1 - b = w - 1 - b + 1 := by omega
      rw [Nat.testBit_two_pow_mul_add _ (brev_lt w _), if_pos hbw, ih hbw, hbit, Nat.testBit_succ]
    · obtain rfl : b = w := by omega
      rw [Nat.testBit_two_pow_mul_add _ (brev_lt b _), if_neg hbw]
      simp [Nat.testBit_zero]

/-- Reversing twice gives the index back (R24). -/
theorem brev_brev {w i : Nat} (hi : i < 2 ^ w) : brev w (brev w i) = i := by
  refine Nat.eq_of_testBit_eq fun b => ?_
  by_cases hb : b < w
  · rw [testBit_brev hb, testBit_brev (by omega)]
    congr 1
    omega
  · have hpow : 2 ^ w ≤ 2 ^ b := Nat.pow_le_pow_right (by decide) (by omega)
    rw [Nat.testBit_lt_two_pow ((brev_lt w _).trans_le hpow),
      Nat.testBit_lt_two_pow (hi.trans_le hpow)]

/-- Settles O14, bit by bit. -/
theorem bitReversalIsAnInvolution : Obligations.BitReversalIsAnInvolution :=
  fun w i hi => ⟨fun _ hb => testBit_brev hb i, brev_lt w i, brev_brev hi⟩

/-! ## BITREV (R210) -/

/-- A length that is a power of two of at least 2 meets the engine's precondition (R201). -/
theorem lenPow2_of_len_eq {c : Cfg} {k : Nat} (h : c.len = 2 ^ k) (hk : 1 ≤ k) :
    c.lenPow2 = true := by
  have hpow : 2 ^ 1 ≤ 2 ^ k := Nat.pow_le_pow_right (by decide) hk
  have hp2 : ispow2 c.len = true := ispow2_eq_true.2 ⟨by omega, k, h⟩
  unfold Cfg.lenPow2
  rw [hp2, decide_eq_true (by omega)]
  rfl

/-- The state after BITREV on a length the engine is defined on (R210). -/
def State.bitreversed (s : State) : State :=
  (s.setCbuf (bitrevCbuf s.cbufAt s.logn s.len s.cbuf)).setPh P_UNPACK

theorem exec_bitrev {s : State} (h : s.cfg.lenPow2 = true) :
    exec .bitrev s = .next s.bitreversed :=
  if_pos h

@[simp] theorem bitreversed_len (s : State) : s.bitreversed.len = s.len := rfl
@[simp] theorem bitreversed_logn (s : State) : s.bitreversed.logn = s.logn := rfl

/-- BITREV permutes elements: both parts of element `e` come from element `brev e` (R210). -/
theorem bitreversed_cbufAt_of_lt {s : State} {q : Nat} (hq : q < 2 * s.len) :
    s.bitreversed.cbufAt q = s.cbufAt (2 * brev s.logn (q / 2) + q % 2) := by
  unfold State.bitreversed State.cbufAt Memory.get
  rw [State.setPh_cbuf, State.setCbuf_cbuf, find_bitrevCbuf, if_pos hq]
  rcases Nat.mod_two_eq_zero_or_one q with h | h <;> simp [h]

theorem bitreversed_cbufAt_of_ge {s : State} {q : Nat} (hq : ¬ q < 2 * s.len) :
    s.bitreversed.cbufAt q = s.cbufAt q := by
  unfold State.bitreversed State.cbufAt Memory.get
  rw [State.setPh_cbuf, State.setCbuf_cbuf, find_bitrevCbuf, if_neg hq]
  rfl

/-- The cell that BITREV reads for a cell of the buffer is a cell of the buffer. -/
theorem two_mul_brev_add_lt {k : Nat} (q : Nat) : 2 * brev k (q / 2) + q % 2 < 2 * 2 ^ k := by
  have hlt := brev_lt k (q / 2)
  omega

/-- Settles O33: bit reversal is an involution that stays below `N`. -/
theorem bitrevTwiceRestoresTheBuffer : Obligations.BitrevTwiceRestoresTheBuffer := by
  intro s k hlen hk
  have hp : s.cfg.lenPow2 = true := lenPow2_of_len_eq hlen hk
  have hn : s.len = 2 ^ s.logn := (lenPow2_spec hp).1
  refine ⟨s.bitreversed.bitreversed, ?_, fun q => ?_⟩
  · simp only [Safety.execSeq, exec_bitrev hp, exec_bitrev (s := s.bitreversed) hp]
  · by_cases hq : q < 2 * s.len
    · have hcell : 2 * brev s.logn (q / 2) + q % 2 < 2 * s.len := hn ▸ two_mul_brev_add_lt q
      have hdiv : (2 * brev s.logn (q / 2) + q % 2) / 2 = brev s.logn (q / 2) := by omega
      have hmod : (2 * brev s.logn (q / 2) + q % 2) % 2 = q % 2 := by omega
      have hq2 : q / 2 < 2 ^ s.logn := by rw [← hn]; omega
      rw [bitreversed_cbufAt_of_lt (by simpa using hq), bitreversed_logn,
        bitreversed_cbufAt_of_lt hcell, hdiv, hmod, brev_brev hq2, Nat.div_add_mod]
    · rw [bitreversed_cbufAt_of_ge (by simpa using hq), bitreversed_cbufAt_of_ge hq]

/-! ## The step (R14, R100) -/

/-- Settles O2: one clause per move, by the step's own lemmas. -/
theorem stepRunsTheSelectedOperation : Obligations.StepRunsTheSelectedOperation := by
  rintro s s' rfl
  have hnext (m : Move) (h : s.env.sched.head? = some m) : s.env.nextMove = m := by
    rw [Env.nextMove, List.headD_eq_head?_getD, h, Option.getD_some]
  refine ⟨fun h => ⟨decodePhase s.ph, rfl, step_consumer ?_⟩, fun h => ⟨rfl, step_irq (hnext _ h)⟩,
    fun h => step_reset (hnext _ h), fun h => step_idle (hnext _ h)⟩
  rcases h with h | h
  · rw [Env.nextMove, h, List.headD_nil]
  · exact hnext _ h

end Sys2Proof.Machine
end

section
/-! The five primitives on finite operands: each result is the exact one rounded once (R20, R21). -/

namespace Sys2Proof.Machine

/-! ## What each primitive computes on finite operands -/

theorem fadd_of_isFinite (st : Site) {a b : Word} (ha : isFinite a = true) (hb : isFinite b = true) :
    fadd st a b =
      if exactSum a b = 0 then zeroWord (signBit a && signBit b)
      else roundWord (decide (exactSum a b < 0)) (exactSum a b).natAbs
        (min (expo a) (expo b) + 451) false := by
  simp [fadd, isNaN_of_isFinite, isInf_of_isFinite, ha, hb]

theorem fmul_of_isFinite (st : Site) {a b : Word} (ha : isFinite a = true) (hb : isFinite b = true) :
    fmul st a b = roundWord (signBit a != signBit b) (signif a * signif b)
      (expo a + expo b + 302) false := by
  simp [fmul, isNaN_of_isFinite, isInf_of_isFinite, ha, hb]

theorem fdiv_of_isFinite (st : Site) {a b : Word} (ha : isFinite a = true) (hb : isFinite b = true)
    (hz : isZero b = false) :
    fdiv st a b = roundWord (signBit a != signBit b) (signif a * 2 ^ 50 / signif b)
      (expo a + 550 - expo b) (signif a * 2 ^ 50 % signif b != 0) := by
  simp [fdiv, isNaN_of_isFinite, isInf_of_isFinite, ha, hb, hz]

/-- The number of bits by which `fsqrt` scales its operand: the exponent becomes even. -/
def sqrtScale (a : Word) : Nat := if expo a % 2 = 0 then 55 else 54

/-- The operand of `fsqrt`'s integer root. -/
def sqrtOperand (a : Word) : Nat := signif a * 2 ^ sqrtScale a

theorem fsqrt_of_isFinite (st : Site) {a : Word} (ha : isFinite a = true) (hz : isZero a = false)
    (hs : signBit a = false) :
    fsqrt st a = roundWord false (isqrt (sqrtOperand a)) ((expo a + 1051 - sqrtScale a) / 2)
      (isqrt (sqrtOperand a) * isqrt (sqrtOperand a) != sqrtOperand a) := by
  simp only [fsqrt, isNaN_of_isFinite ha, isInf_of_isFinite ha, hz, hs, Bool.false_eq_true, if_false]
  rfl

/-! ## Sum and difference -/

/-- Rounding an exactly represented `m * 2^(e - 600)`, a zero among them. -/
theorem roundWord_exact (s : Bool) (m e : Nat) :
    RoundedOnce ((if s then -1 else 1) * ((m : ℝ) * 2 ^ e / 2 ^ 600)) (roundWord s m e false) := by
  by_cases hm : m = 0
  · subst hm
    have h := zeroWord_roundedOnce s
    simpa [roundWord] using h
  · exact roundWord_roundedOnce hm le_rfl (lt_add_one _) (fun _ => rfl) (by simp) (by simp)

/-- A common power of two on both sides of the scale cancels. -/
theorem mul_two_pow_div_rescale (c : ℝ) (n k d : Nat) :
    c * 2 ^ (n + d) / 2 ^ (k + d) = c * 2 ^ n / 2 ^ k := by
  rw [pow_add, pow_add, ← mul_assoc, mul_div_mul_right _ _ (by positivity)]

/-- An integer as its sign and its size. -/
theorem sign_mul_natAbs (x : Int) :
    (if decide (x < 0) then (-1 : ℝ) else 1) * (x.natAbs : ℝ) = x := by
  rw [Nat.cast_natAbs, Int.cast_abs]
  by_cases h : x < 0
  · have hr : (x : ℝ) < 0 := by exact_mod_cast h
    simp [h, abs_of_neg hr]
  · have hr : (0 : ℝ) ≤ x := by exact_mod_cast not_lt.1 h
    simp [h, abs_of_nonneg hr]

/-- `fadd` rounds the exact sum once (R21). -/
theorem fadd_roundedOnce (st : Site) {a b : Word} (ha : isFinite a = true) (hb : isFinite b = true) :
    RoundedOnce ((toRat a + toRat b : ℚ) : ℝ) (fadd st a b) := by
  rw [fadd_of_isFinite st ha hb]
  by_cases hx : exactSum a b = 0
  · rw [if_pos hx, (exactSum_eq_zero_iff a b).1 hx, Rat.cast_zero]
    exact zeroWord_roundedOnce _
  · have hval : ((toRat a + toRat b : ℚ) : ℝ) =
        (if decide (exactSum a b < 0) then (-1 : ℝ) else 1) *
          (((exactSum a b).natAbs : ℝ) * 2 ^ (min (expo a) (expo b) + 451) / 2 ^ 600) := by
      rw [mul_two_pow_div_rescale _ _ 149 451, mul_div_assoc, ← mul_assoc, sign_mul_natAbs,
        toRat_add, mul_div_assoc]
      push_cast
      rfl
    rw [if_neg hx, hval]
    exact roundWord_exact _ _ _

/-- Settles O55: a difference is the sum with the second operand's sign flipped. -/
theorem sumsAreRoundedOnce : Obligations.SumsAreRoundedOnce := by
  intro st a b ha hb
  refine ⟨fadd_roundedOnce st ha hb, ?_⟩
  rw [sub_eq_add_neg, ← toRat_negate]
  exact fadd_roundedOnce st ha ((isFinite_negate b).trans hb)

/-! ## Product -/

/-- The sign of a product or quotient. -/
theorem sign_mul_sign (s t : Bool) :
    (if s != t then (-1 : ℝ) else 1) = (if s then -1 else 1) * (if t then -1 else 1) := by
  cases s <;> cases t <;> norm_num

/-- Settles O56: the product of the significands is exact. -/
theorem productsAreRoundedOnce : Obligations.ProductsAreRoundedOnce := by
  intro st a b ha hb
  have hval : ((toRat a * toRat b : ℚ) : ℝ) =
      (if signBit a != signBit b then (-1 : ℝ) else 1) *
        (((signif a * signif b : Nat) : ℝ) * 2 ^ (expo a + expo b + 302) / 2 ^ 600) := by
    have h298 : (2 : ℝ) ^ 298 = 2 ^ 149 * 2 ^ 149 := by rw [← pow_add]
    rw [mul_two_pow_div_rescale _ _ 298 302, h298, Rat.cast_mul, toRat_real, toRat_real,
      sign_mul_sign, pow_add]
    push_cast
    ring
  rw [fmul_of_isFinite st ha hb, hval]
  exact roundWord_exact _ _ _

/-! ## Quotient -/

/-- The magnitude of a quotient on the scale of `fdiv`'s integer quotient. -/
theorem quotient_scaled (p q : ℝ) {i j : Nat} (hj : j ≤ i + 550) :
    p * 2 ^ 50 / q * 2 ^ (i + 550 - j) / 2 ^ 600 = p * 2 ^ i / (q * 2 ^ j) := by
  have hpow : (2 : ℝ) ^ (i + 550 - j) = 2 ^ i * 2 ^ 550 / 2 ^ j := by
    rw [eq_div_iff (by positivity), ← pow_add, ← pow_add, Nat.sub_add_cancel hj]
  have h600 : (2 : ℝ) ^ 600 = 2 ^ 50 * 2 ^ 550 := by rw [← pow_add]
  rw [hpow, h600]
  field_simp

/-- Rounding an integer quotient with its sticky remainder rounds the exact quotient. -/
theorem roundWord_quotient (s : Bool) {n d : Nat} (e : Nat) (hd : 0 < d) (hb : 2 ^ 24 ≤ n / d) :
    RoundedOnce ((if s then -1 else 1) * ((n : ℝ) / d * 2 ^ e / 2 ^ 600))
      (roundWord s (n / d) e (n % d != 0)) := by
  have hdr : (0 : ℝ) < d := by exact_mod_cast hd
  have hdm : (d : ℝ) * (n / d : Nat) + (n % d : Nat) = n := by exact_mod_cast Nat.div_add_mod n d
  have hlt : ((n % d : Nat) : ℝ) < d := by exact_mod_cast Nat.mod_lt n hd
  have hquot : (n : ℝ) / d = (n / d : Nat) + (n % d : Nat) / d := by
    rw [← hdm]
    field_simp
  rw [hquot]
  refine roundWord_roundedOnce (by omega) ?_ ?_ ?_ ?_ fun _ => hb
  · linarith [show (0 : ℝ) ≤ (n % d : Nat) / d by positivity]
  · linarith [(div_lt_one hdr).2 hlt]
  · intro h
    simp only [bne_eq_false_iff_eq] at h
    simp [h]
  · intro h
    simp only [bne_iff_ne, ne_eq] at h
    have hmod : (0 : ℝ) < (n % d : Nat) := by exact_mod_cast Nat.pos_of_ne_zero h
    linarith [div_pos hmod hdr]

/-- Settles O57: the quotient has at least 27 bits, and with its remainder decides the rounding. -/
theorem quotientsAreRoundedOnce : Obligations.QuotientsAreRoundedOnce := by
  intro st a b ha hb hz
  have hpos : 0 < signif b := signif_pos hz
  have hexp := expo_lt b
  have hval : ((toRat a / toRat b : ℚ) : ℝ) =
      (if signBit a != signBit b then (-1 : ℝ) else 1) *
        (((signif a * 2 ^ 50 : Nat) : ℝ) / signif b * 2 ^ (expo a + 550 - expo b) / 2 ^ 600) := by
    rw [Nat.cast_mul, Nat.cast_pow, Nat.cast_ofNat, quotient_scaled _ _ (by omega), sign_mul_sign,
      Rat.cast_div, toRat_real, toRat_real, div_div_div_cancel_right₀ (by positivity)]
    cases signBit a <;> cases signBit b <;> simp [neg_div, div_neg]
  rw [fdiv_of_isFinite st ha hb hz, hval]
  by_cases h0 : signif a = 0
  · simpa [h0, roundWord] using zeroWord_roundedOnce (signBit a != signBit b)
  · have hlt := signif_lt b
    exact roundWord_quotient _ _ hpos ((Nat.le_div_iff_mul_le hpos).2 (by omega))

/-! ## Square root -/

theorem sqrtOperand_lt (a : Word) : sqrtOperand a < 2 ^ 80 := by
  have h1 := signif_lt a
  unfold sqrtOperand sqrtScale
  split <;> omega

theorem le_sqrtOperand {a : Word} (hz : isZero a = false) : 2 ^ 54 ≤ sqrtOperand a := by
  have h1 := signif_pos hz
  unfold sqrtOperand sqrtScale
  split <;> omega

/-- The scaled exponent is even. -/
theorem two_mul_sqrtExponent (a : Word) :
    2 * ((expo a + 1051 - sqrtScale a) / 2) + sqrtScale a = expo a + 1051 := by
  unfold sqrtScale
  split <;> omega

/-- Rounding an integer square root with its sticky remainder rounds the exact root. -/
theorem roundWord_isqrt {m : Nat} (e : Nat) (hlo : 2 ^ 54 ≤ m) (hhi : m < 2 ^ 80) :
    RoundedOnce (√(m : ℝ) * 2 ^ e / 2 ^ 600) (roundWord false (isqrt m) e (isqrt m * isqrt m != m)) := by
  obtain ⟨h1, h2⟩ := isqrt_spec hhi
  have hbig : 2 ^ 27 ≤ isqrt m := by
    by_contra hlt
    have hsq : (isqrt m + 1) * (isqrt m + 1) ≤ 2 ^ 27 * 2 ^ 27 :=
      Nat.mul_le_mul (by omega) (by omega)
    omega
  have hroot : (isqrt m : ℝ) ≤ √(m : ℝ) := Real.le_sqrt_of_sq_le (by exact_mod_cast (sq _).trans_le h1)
  have hround := roundWord_roundedOnce (s := false) (m := isqrt m) (e := e)
    (sticky := isqrt m * isqrt m != m) (y := √(m : ℝ)) (by omega) hroot ?_ ?_ ?_ fun _ => by omega
  · simpa using hround
  · rw [Real.sqrt_lt' (by positivity), sq]
    exact_mod_cast h2
  · intro h
    have hm : (m : ℝ) = isqrt m * isqrt m := by exact_mod_cast ((bne_eq_false_iff_eq).1 h).symm
    rw [hm, Real.sqrt_mul_self (by positivity)]
  · intro h
    refine Real.lt_sqrt_of_sq_lt ?_
    rw [sq]
    exact_mod_cast lt_of_le_of_ne h1 (bne_iff_ne.1 h)

/-- The root of the value on the scale of `fsqrt`'s integer root. -/
theorem sqrt_toRat {a : Word} (hs : signBit a = false) :
    √((toRat a : ℚ) : ℝ) =
      √(sqrtOperand a : ℝ) * 2 ^ ((expo a + 1051 - sqrtScale a) / 2) / 2 ^ 600 := by
  have hexp := two_mul_sqrtExponent a
  generalize (expo a + 1051 - sqrtScale a) / 2 = e at *
  have hval : ((toRat a : ℚ) : ℝ) = sqrtOperand a * (2 ^ e / 2 ^ 600) ^ 2 := by
    have h1200 : ((2 : ℝ) ^ 600) ^ 2 = 2 ^ 149 * 2 ^ 1051 := by rw [← pow_mul, ← pow_add]
    have hpow : (2 : ℝ) ^ sqrtScale a * (2 ^ e) ^ 2 = 2 ^ expo a * 2 ^ 1051 := by
      rw [← pow_mul, ← pow_add, ← pow_add, ← hexp]
      congr 1
      omega
    rw [toRat_real, hs, sqrtOperand, div_pow, h1200, Nat.cast_mul, Nat.cast_pow, Nat.cast_ofNat,
      ← mul_div_assoc, mul_assoc (signif a : ℝ), hpow, ← mul_assoc,
      mul_div_mul_right _ _ (by positivity)]
    simp
  rw [hval, Real.sqrt_mul (by positivity), Real.sqrt_sq (by positivity), mul_div_assoc]

theorem toRat_eq_zero_iff (a : Word) : toRat a = 0 ↔ isZero a = true := by
  rw [isZero_iff, toRat_eq]
  have hmono : magUnits (a.toNat % 2 ^ 31) = 0 ↔ a.toNat % 2 ^ 31 = 0 := by
    rw [← magUnits_zero, magUnits_strictMono.injective.eq_iff, magUnits_zero]
  rw [← hmono]
  cases signBit a <;> simp

/-- A pattern that is no zero and whose value is not negative has sign bit 0. -/
theorem signBit_eq_false_of_toRat_nonneg {a : Word} (h : 0 ≤ toRat a) (hz : isZero a = false) :
    signBit a = false := by
  by_contra hs
  have hle : toRat a ≤ 0 := by
    rw [toRat_eq, if_pos (by simpa using hs), neg_one_mul, neg_div]
    exact neg_nonpos.2 (by positivity)
  have hzero := (toRat_eq_zero_iff a).1 (le_antisymm hle h)
  simp [hz] at hzero

theorem fsqrt_of_isZero (st : Site) {a : Word} (hz : isZero a = true) : fsqrt st a = a := by
  have hn : isNaN a = false := by
    rw [eq_zeroWord hz]
    exact isNaN_zeroWord _
  simp [fsqrt, hn, hz]

/-- Settles O58: the root of at least 27 bits with its remainder decides the rounding. -/
theorem squareRootsAreRoundedOnce : Obligations.SquareRootsAreRoundedOnce := by
  intro st a ha h0
  cases hz : isZero a with
  | true =>
    rw [fsqrt_of_isZero st hz, (toRat_eq_zero_iff a).2 hz, Rat.cast_zero, Real.sqrt_zero, eq_zeroWord hz]
    exact zeroWord_roundedOnce _
  | false =>
    have hs := signBit_eq_false_of_toRat_nonneg h0 hz
    rw [fsqrt_of_isFinite st ha hz hs, sqrt_toRat hs]
    exact roundWord_isqrt _ (le_sqrtOperand hz) (sqrtOperand_lt a)

end Sys2Proof.Machine
end

section
/-! What a rounded result is bounded by, integer conversion (R21), and that the operations of an iteration
stay finite under the table premise (R22, R23): the bound grows by two bits in each transform stage. -/

namespace Sys2Proof.Machine

/-! ## Rounding is monotone: representable bounds are kept -/

theorem RoundsTo.le {x : ℝ} {w v : Word} (h : RoundsTo x w) (hv : isFinite v = true)
    (hx : x ≤ ((toRat v : ℚ) : ℝ)) : toRat w ≤ toRat v := by
  have hnear := (h.2 v hv).1
  rw [abs_of_nonneg (sub_nonneg.2 hx)] at hnear
  have hle : ((toRat w : ℚ) : ℝ) ≤ (toRat v : ℚ) := by linarith [le_abs_self ((toRat w : ℝ) - x)]
  exact_mod_cast hle

theorem RoundsTo.ge {x : ℝ} {w v : Word} (h : RoundsTo x w) (hv : isFinite v = true)
    (hx : ((toRat v : ℚ) : ℝ) ≤ x) : toRat v ≤ toRat w := by
  have hnear := (h.2 v hv).1
  rw [abs_of_nonpos (sub_nonpos.2 hx)] at hnear
  have hle : ((toRat v : ℚ) : ℝ) ≤ (toRat w : ℚ) := by linarith [neg_abs_le ((toRat w : ℝ) - x)]
  exact_mod_cast hle

/-- A representable value rounds to itself. -/
theorem RoundsTo.eq {w v : Word} (h : RoundsTo ((toRat v : ℚ) : ℝ) w) (hv : isFinite v = true) :
    toRat w = toRat v :=
  le_antisymm (h.le hv le_rfl) (h.ge hv le_rfl)

/-! ## Representable values -/

/-- The pattern with 24-bit significand `g` and exponent `j`. -/
theorem normal_pattern {j g : Nat} (hj : j ≤ 253) (hlo : 2 ^ 23 ≤ g) (hhi : g < 2 ^ 24) :
    isFinite (ofSignMag false (j * 2 ^ 23 + g)) = true ∧
      toRat (ofSignMag false (j * 2 ^ 23 + g)) = (g : ℚ) * 2 ^ j / 2 ^ 149 := by
  have hlt : j * 2 ^ 23 + g < infMag := by unfold infMag; omega
  have hlt31 : j * 2 ^ 23 + g < 2 ^ 31 := by unfold infMag at hlt; omega
  rw [isFinite_iff, ofSignMag_mod _ hlt31, toRat_ofSignMag _ hlt31,
    magUnits_eq j g hhi.le (.inr hlo)]
  exact ⟨hlt, by simp⟩

theorem isFinite_zeroWord (s : Bool) : isFinite (zeroWord s) = true := by cases s <;> decide

@[simp] theorem toRat_zeroWord (s : Bool) : toRat (zeroWord s) = 0 :=
  (toRat_eq_zero_iff _).2 (by cases s <;> decide)

/-- Every power of two up to 2^127 is a finite value. -/
theorem exists_toRat_eq_two_pow {k : Nat} (hk : k ≤ 127) :
    ∃ v, isFinite v = true ∧ toRat v = 2 ^ k := by
  obtain ⟨hf, hv⟩ := normal_pattern (j := k + 126) (g := 2 ^ 23) (by omega) le_rfl (by decide)
  refine ⟨_, hf, hv.trans ?_⟩
  have h149 : (2 : ℚ) ^ 149 = 2 ^ 23 * 2 ^ 126 := by rw [← pow_add]
  rw [h149, pow_add, Nat.cast_pow, Nat.cast_ofNat]
  field_simp

/-- Every integer below 2^24 is a finite value. -/
theorem exists_toRat_eq_natCast {n : Nat} (hn : n < 2 ^ 24) :
    ∃ v, isFinite v = true ∧ toRat v = n := by
  by_cases h0 : n = 0
  · exact ⟨zeroWord false, isFinite_zeroWord _, by simp [h0]⟩
  · have hL : Nat.log2 n < 24 := (Nat.log2_lt h0).2 hn
    have hlo := Nat.log2_self_le h0
    have hhi : n < 2 ^ (Nat.log2 n + 1) := Nat.lt_log2_self
    generalize Nat.log2 n = L at *
    have h23 : 2 ^ L * 2 ^ (23 - L) = 2 ^ 23 := by rw [← pow_add]; congr 1; omega
    have h24 : 2 ^ (L + 1) * 2 ^ (23 - L) = 2 ^ 24 := by rw [← pow_add]; congr 1; omega
    obtain ⟨hf, hv⟩ := normal_pattern (j := L + 126) (g := n * 2 ^ (23 - L)) (by omega)
      (h23 ▸ Nat.mul_le_mul_right _ hlo) (h24 ▸ Nat.mul_lt_mul_of_pos_right hhi (by positivity))
    refine ⟨_, hf, hv.trans ?_⟩
    have h149 : (2 : ℚ) ^ (23 - L) * 2 ^ (L + 126) = 2 ^ 149 := by rw [← pow_add]; congr 1; omega
    rw [Nat.cast_mul, Nat.cast_pow, Nat.cast_ofNat, mul_assoc, h149, mul_div_assoc,
      div_self (by positivity), mul_one]

/-! ## Integer conversion (R21) -/

theorem u2f_roundsTo {n : Nat} (hn : n < 2 ^ 24) : RoundsTo (n : ℝ) (u2f n) := by
  have h := roundWord_exact false n 600
  simp only [Bool.false_eq_true, if_false, one_mul] at h
  rw [mul_div_assoc, div_self (by positivity), mul_one] at h
  refine h.1 ?_
  have hr : (n : ℝ) < 2 ^ 24 := by exact_mod_cast hn
  rw [abs_of_nonneg (by positivity)]
  exact hr.trans (by norm_num)

theorem toRat_u2f {n : Nat} (hn : n < 2 ^ 24) : toRat (u2f n) = n := by
  obtain ⟨v, hf, hv⟩ := exists_toRat_eq_natCast hn
  have hround := u2f_roundsTo hn
  rw [← Rat.cast_natCast, ← hv] at hround
  rw [hround.eq hf, hv]

/-- Settles O59: an integer below 2^24 is representable, so rounding keeps it. -/
theorem smallIntegersConvertExactly : Obligations.SmallIntegersConvertExactly :=
  fun _ hn => ⟨(u2f_roundsTo hn).1, signBit_roundWord _ _ _ _, toRat_u2f hn⟩

/-! ## Values bounded by a power of two -/

/-- A finite value of size at most 2^k. -/
structure BoundedBy (k : Nat) (w : Word) : Prop where
  finite : isFinite w = true
  size_le : |toRat w| ≤ 2 ^ k

theorem BoundedBy.mono {i k : Nat} {w : Word} (h : BoundedBy i w) (hik : i ≤ k) : BoundedBy k w :=
  ⟨h.finite, h.size_le.trans (pow_le_pow_right₀ (by norm_num) hik)⟩

theorem boundedBy_posZero (k : Nat) : BoundedBy k posZero := by
  have h0 : toRat posZero = 0 := toRat_zeroWord false
  exact ⟨by decide, by rw [h0, abs_zero]; positivity⟩

/-- An exact result below overflow rounds to the nearest finite value. -/
theorem RoundedOnce.roundsTo {x : ℝ} {w : Word} {k : Nat} (h : RoundedOnce x w) (hx : |x| ≤ 2 ^ k)
    (hk : k ≤ 127) : RoundsTo x w := by
  have hpow : (2 : ℝ) ^ k ≤ 2 ^ 127 := pow_le_pow_right₀ (by norm_num) hk
  exact h.1 ((hx.trans hpow).trans_lt (by norm_num))

/-- Rounding keeps a bound that is a power of two. -/
theorem boundedBy_of_roundedOnce {x : ℝ} {w : Word} {k : Nat} (h : RoundedOnce x w)
    (hx : |x| ≤ 2 ^ k) (hk : k ≤ 127) : BoundedBy k w := by
  have hround := h.roundsTo hx hk
  obtain ⟨hlo, hhi⟩ := abs_le.1 hx
  obtain ⟨v, hf, hv⟩ := exists_toRat_eq_two_pow hk
  have hle := hround.le hf (by rw [hv]; exact_mod_cast hhi)
  have hge := hround.ge (v := negate v) ((isFinite_negate v).trans hf)
    (by rw [toRat_negate, hv]; exact_mod_cast hlo)
  rw [toRat_negate] at hge
  rw [hv] at hle hge
  exact ⟨hround.1, abs_le.2 ⟨hge, hle⟩⟩

/-- The bound of a rational result that is rounded once. -/
theorem boundedBy_of_roundedOnce_rat {x : ℚ} {w : Word} {k : Nat} (h : RoundedOnce (x : ℝ) w)
    (hx : |x| ≤ 2 ^ k) (hk : k ≤ 127) : BoundedBy k w :=
  boundedBy_of_roundedOnce h (by exact_mod_cast hx) hk

theorem boundedBy_fadd (st : Site) {k : Nat} {a b : Word} (ha : BoundedBy k a) (hb : BoundedBy k b)
    (hk : k + 1 ≤ 127) : BoundedBy (k + 1) (fadd st a b) := by
  refine boundedBy_of_roundedOnce_rat (fadd_roundedOnce st ha.finite hb.finite) ?_ hk
  rw [pow_succ, mul_two]
  exact (abs_add_le _ _).trans (add_le_add ha.size_le hb.size_le)

theorem boundedBy_negate {k : Nat} {w : Word} (h : BoundedBy k w) : BoundedBy k (negate w) :=
  ⟨(isFinite_negate w).trans h.finite, by rw [toRat_negate, abs_neg]; exact h.size_le⟩

theorem boundedBy_fsub (st : Site) {k : Nat} {a b : Word} (ha : BoundedBy k a) (hb : BoundedBy k b)
    (hk : k + 1 ≤ 127) : BoundedBy (k + 1) (fsub st a b) :=
  boundedBy_fadd st ha (boundedBy_negate hb) hk

theorem boundedBy_fmul (st : Site) {i j : Nat} {a b : Word} (ha : BoundedBy i a) (hb : BoundedBy j b)
    (hk : i + j ≤ 127) : BoundedBy (i + j) (fmul st a b) := by
  refine boundedBy_of_roundedOnce_rat (productsAreRoundedOnce st a b ha.finite hb.finite) ?_ hk
  rw [abs_mul, pow_add]
  exact mul_le_mul ha.size_le hb.size_le (abs_nonneg _) (by positivity)

theorem boundedBy_fsqrt (st : Site) {k : Nat} {a : Word} (ha : BoundedBy (2 * k) a) (h0 : 0 ≤ toRat a)
    (hk : k ≤ 127) : BoundedBy k (fsqrt st a) := by
  refine boundedBy_of_roundedOnce (squareRootsAreRoundedOnce st a ha.finite h0) ?_ hk
  have hle : ((toRat a : ℚ) : ℝ) ≤ (2 ^ k) ^ 2 := by
    rw [← pow_mul, Nat.mul_comm]
    exact_mod_cast (le_abs_self _).trans ha.size_le
  rw [abs_of_nonneg (Real.sqrt_nonneg _)]
  exact (Real.sqrt_le_left (by positivity)).2 hle

/-- Dividing by a length does not raise the bound. -/
theorem boundedBy_fdiv_u2f (st : Site) {k n : Nat} {a : Word} (ha : BoundedBy k a) (hn : 0 < n)
    (hn24 : n < 2 ^ 24) (hk : k ≤ 127) : BoundedBy k (fdiv st a (u2f n)) := by
  have hone : (1 : ℚ) ≤ n := by exact_mod_cast hn
  have hnz : isZero (u2f n) = false := by
    rw [Bool.eq_false_iff, ne_eq, ← toRat_eq_zero_iff, toRat_u2f hn24]
    linarith
  refine boundedBy_of_roundedOnce_rat
    (quotientsAreRoundedOnce st a (u2f n) ha.finite (u2f_roundsTo hn24).1 hnz) ?_ hk
  rw [toRat_u2f hn24, abs_div, abs_of_nonneg (by positivity : (0 : ℚ) ≤ n)]
  exact (div_le_self (abs_nonneg _) hone).trans ha.size_le

theorem boundedBy_u2f {k n : Nat} (hn : n < 2 ^ 24) (hk : n ≤ 2 ^ k) : BoundedBy k (u2f n) := by
  refine ⟨(u2f_roundsTo hn).1, ?_⟩
  rw [toRat_u2f hn, abs_of_nonneg (by positivity)]
  exact_mod_cast hk

/-- A table entry with `|c| <= 1` is a value bounded by 1 (R23). -/
theorem boundedBy_of_absUnitWord {w : Word} (h : absUnitWord w = true) : BoundedBy 0 w := by
  have hle : w.toNat % 2 ^ 31 ≤ 127 * 2 ^ 23 := of_decide_eq_true h
  have hunits : magUnits (w.toNat % 2 ^ 31) ≤ 2 ^ 149 := by
    have hone : magUnits (126 * 2 ^ 23 + 2 ^ 23) = 2 ^ 23 * 2 ^ 126 :=
      magUnits_eq 126 (2 ^ 23) (by decide) (.inr le_rfl)
    rw [show 2 ^ 149 = 2 ^ 23 * 2 ^ 126 by rw [← pow_add], ← hone]
    exact magUnits_strictMono.monotone hle
  have hunitsQ : (magUnits (w.toNat % 2 ^ 31) : ℚ) ≤ 2 ^ 149 := by exact_mod_cast hunits
  refine ⟨(isFinite_iff w).2 (by unfold infMag; omega), ?_⟩
  have hval : |toRat w| = (magUnits (w.toNat % 2 ^ 31) : ℚ) / 2 ^ 149 := by
    rw [toRat_eq, abs_div, abs_mul, abs_of_nonneg (by positivity : (0 : ℚ) ≤ 2 ^ 149), Nat.abs_cast]
    cases signBit w <;> simp
  rw [hval, pow_zero]
  exact div_le_one_of_le₀ hunitsQ (by positivity)

/-- A window value with `0 <= w <= 1` is a value bounded by 1 (R23). -/
theorem boundedBy_of_unitWord {w : Word} (h : unitWord w = true) : BoundedBy 0 w := by
  refine boundedBy_of_absUnitWord (decide_eq_true ?_)
  simp only [unitWord, Bool.or_eq_true, decide_eq_true_eq, beq_iff_eq] at h
  omega

/-! ## One butterfly (R205) -/

section Butterfly

variable {d : Nat → Word} {k : Nat}

/-- Both parts of element `e` are bounded. -/
def ElemBounded (d : Nat → Word) (k : Nat) (m : Memory 32) (e : Nat) : Prop :=
  BoundedBy k (m.get d (2 * e)) ∧ BoundedBy k (m.get d (2 * e + 1))

variable {st : Nat → Site} {c sn : Word} {a b : Nat} {m : Memory 32}

theorem get_butterfly (j : Nat) :
    (butterfly d st c sn a b m).get d j =
      if j = 2 * a + 1 then fadd (st 9) (m.get d (2 * a + 1)) (rotIm d st c sn b m)
      else if j = 2 * a then fadd (st 8) (m.get d (2 * a)) (rotRe d st c sn b m)
      else if j = 2 * b + 1 then fsub (st 7) (m.get d (2 * a + 1)) (rotIm d st c sn b m)
      else if j = 2 * b then fsub (st 6) (m.get d (2 * a)) (rotRe d st c sn b m)
      else m.get d j := by
  unfold butterfly
  simp only [Memory.get_write]
  rfl

/-- A butterfly leaves the cells of every other element as they are. -/
theorem get_butterfly_other {j : Nat} (ha : j / 2 ≠ a) (hb : j / 2 ≠ b) :
    (butterfly d st c sn a b m).get d j = m.get d j := by
  rw [get_butterfly, if_neg (by omega), if_neg (by omega), if_neg (by omega), if_neg (by omega)]

theorem butterfly_elem_other {e : Nat} (hea : e ≠ a) (heb : e ≠ b) :
    ElemBounded d k (butterfly d st c sn a b m) e ↔ ElemBounded d k m e := by
  unfold ElemBounded
  rw [get_butterfly_other (by omega) (by omega), get_butterfly_other (by omega) (by omega)]

/-- A butterfly with rotation at most 1 raises the bound of its two elements by two bits. -/
theorem butterfly_elemBounded (hc : BoundedBy 0 c) (hsn : BoundedBy 0 sn) (hab : a ≠ b)
    (ha : ElemBounded d k m a) (hb : ElemBounded d k m b) (hk : k + 2 ≤ 127) :
    ElemBounded d (k + 2) (butterfly d st c sn a b m) a ∧
      ElemBounded d (k + 2) (butterfly d st c sn a b m) b := by
  obtain ⟨har, hai⟩ := ha
  obtain ⟨hbr, hbi⟩ := hb
  have hprod {i : Nat} {x y : Word} (hx : BoundedBy 0 x) (hy : BoundedBy k y) :
      BoundedBy k (fmul (st i) x y) := by
    simpa using boundedBy_fmul (st i) hx hy (by omega)
  have hre : BoundedBy (k + 1) (rotRe d st c sn b m) :=
    boundedBy_fadd _ (hprod hc hbr) (hprod hsn hbi) (by omega)
  have him : BoundedBy (k + 1) (rotIm d st c sn b m) :=
    boundedBy_fsub _ (hprod hc hbi) (hprod hsn hbr) (by omega)
  have har' := har.mono (Nat.le_succ k)
  have hai' := hai.mono (Nat.le_succ k)
  refine ⟨⟨?_, ?_⟩, ⟨?_, ?_⟩⟩ <;> rw [get_butterfly]
  · rw [if_neg (by omega), if_pos rfl]
    exact boundedBy_fadd _ har' hre hk
  · rw [if_pos rfl]
    exact boundedBy_fadd _ hai' him hk
  · rw [if_neg (by omega), if_neg (by omega), if_neg (by omega), if_pos rfl]
    exact boundedBy_fsub _ har' hre hk
  · rw [if_neg (by omega), if_neg (by omega), if_pos rfl]
    exact boundedBy_fsub _ hai' him hk

/-! ## One stage (R204): each element is in one butterfly, so its bound grows once -/

/-- In the middle of a stage: the elements still to do have the old bound, all have the new one. -/
def StageBounded (d : Nat → Word) (k n : Nat) (todo : Nat → Prop) (m : Memory 32) : Prop :=
  ∀ e, e < n → ElemBounded d (k + 2) m e ∧ (todo e → ElemBounded d k m e)

/-- A butterfly of two elements still to do takes them off. -/
theorem butterfly_stageBounded {n : Nat} {todo todo' : Nat → Prop} (hc : BoundedBy 0 c)
    (hsn : BoundedBy 0 sn) (hab : a ≠ b) (han : a < n) (hbn : b < n) (ha : todo a) (hb : todo b)
    (hk : k + 2 ≤ 127) (hdone : ∀ e, todo' e → todo e ∧ e ≠ a ∧ e ≠ b)
    (hm : StageBounded d k n todo m) :
    StageBounded d k n todo' (butterfly d st c sn a b m) := by
  obtain ⟨hnewa, hnewb⟩ := butterfly_elemBounded (st := st) hc hsn hab ((hm a han).2 ha)
    ((hm b hbn).2 hb) hk
  intro e he
  constructor
  · by_cases hea : e = a
    · rwa [hea]
    · by_cases heb : e = b
      · rwa [heb]
      · exact (butterfly_elem_other hea heb).2 (hm e he).1
  · intro ht
    obtain ⟨hold, hea, heb⟩ := hdone e ht
    exact (butterfly_elem_other hea heb).2 ((hm e he).2 hold)

end Butterfly

/-- Both halves of the table pair of a group are table entries (R206). -/
theorem fftPair_cell_lt {logn : Nat} (j : Nat) (h : 0 < logn) : 2 * fftPair logn j + 1 < 2 ^ logn := by
  have hlt := brev_lt (logn - 1) j
  have hpow : 2 ^ logn = 2 * 2 ^ (logn - 1) := by rw [← pow_succ']; congr 1; omega
  unfold fftPair
  omega

/-- The elements from a group's first one on that its butterflies below `i` leave to do. -/
def groupTodo (base h i e : Nat) : Prop := base + i ≤ e ∧ (e < base + h ∨ base + h + i ≤ e)

section Stages

variable {d tw : Nat → Word} {k logn stage : Nat} {m : Memory 32}
  (htw : ∀ q, q < 2 ^ logn → BoundedBy 0 (tw q)) (hs : stage < logn) (hk : k + 2 ≤ 127)
include htw hs hk

theorem fftGroup_stageBounded (draw : Nat) {j : Nat} (hj : j < 2 ^ stage)
    (hm : StageBounded d k (2 ^ logn) (fun e => j * 2 * fftSpan (2 ^ logn) stage ≤ e) m) :
    StageBounded d k (2 ^ logn) (fun e => (j + 1) * 2 * fftSpan (2 ^ logn) stage ≤ e)
      (fftGroup d tw draw logn (2 ^ logn) stage j m) := by
  have hnext : (j + 1) * 2 * fftSpan (2 ^ logn) stage =
      j * 2 * fftSpan (2 ^ logn) stage + 2 * fftSpan (2 ^ logn) stage := by ring
  have hcell := fftPair_cell_lt j (Nat.zero_lt_of_lt hs)
  have hloop : StageBounded d k (2 ^ logn) (groupTodo (j * 2 * fftSpan (2 ^ logn) stage)
      (fftSpan (2 ^ logn) stage) (fftSpan (2 ^ logn) stage))
      (fftGroup d tw draw logn (2 ^ logn) stage j m) := by
    refine forUp_induct (fun i m => StageBounded d k (2 ^ logn)
      (groupTodo (j * 2 * fftSpan (2 ^ logn) stage) (fftSpan (2 ^ logn) stage) i) m) ?_ ?_
    · exact fun e he => ⟨(hm e he).1, fun ht => (hm e he).2 ht.1⟩
    · intro i m hi hmi
      have hlt := fft_index_lt hs hj hi
      refine butterfly_stageBounded (htw _ (by omega)) (htw _ hcell) (by omega) (by omega) hlt
        ?_ ?_ hk ?_ hmi
      all_goals
        unfold groupTodo
        omega
  refine fun e he => ⟨(hloop e he).1, fun ht => (hloop e he).2 ?_⟩
  unfold groupTodo
  omega

theorem fftStage_elemBounded (draw : Nat) (hm : ∀ e, e < 2 ^ logn → ElemBounded d k m e) :
    ∀ e, e < 2 ^ logn → ElemBounded d (k + 2) (fftStage d tw draw logn (2 ^ logn) stage m) e := by
  have hloop : StageBounded d k (2 ^ logn)
      (fun e => 1 <<< stage * 2 * fftSpan (2 ^ logn) stage ≤ e)
      (fftStage d tw draw logn (2 ^ logn) stage m) := by
    refine forUp_induct (fun j m => StageBounded d k (2 ^ logn)
      (fun e => j * 2 * fftSpan (2 ^ logn) stage ≤ e) m) ?_ ?_
    · intro e he
      obtain ⟨hre, him⟩ := hm e he
      exact ⟨⟨hre.mono (by omega), him.mono (by omega)⟩, fun _ => ⟨hre, him⟩⟩
    · intro j m hj hmj
      exact fftGroup_stageBounded htw hs hk draw (by simpa [Nat.one_shiftLeft] using hj) hmj
  exact fun e he => (hloop e he).1

end Stages

/-- The whole transform raises the bound by two bits per stage (R204). -/
theorem fftCbuf_elemBounded {d tw : Nat → Word} {k logn : Nat} {m : Memory 32} (draw : Nat)
    (htw : ∀ q, q < 2 ^ logn → BoundedBy 0 (tw q)) (hk : k + 2 * logn ≤ 127)
    (hm : ∀ e, e < 2 ^ logn → ElemBounded d k m e) :
    ∀ e, e < 2 ^ logn →
      ElemBounded d (k + 2 * logn) (fftCbuf d tw draw logn (2 ^ logn) m) e := by
  refine forUp_induct
    (fun stage m => ∀ e, e < 2 ^ logn → ElemBounded d (k + 2 * stage) m e) hm ?_
  intro stage m hs hm
  exact fftStage_elemBounded (k := k + 2 * stage) htw hs (by omega) draw hm

end Sys2Proof.Machine
end

section
/-! The operations of an iteration, WINDOW to MAG, under the table premise: every cell they leave is finite
(R22, R23). -/

namespace Sys2Proof.Machine

/-! ## The states after the operations -/

/-- The state after WINDOW (R190). -/
def State.windowed (s : State) : State :=
  ((s.setCbuf (windowedFrame s)).setFill 0).bump.setPh P_FFT

/-- The state after FFT on a length the engine is defined on (R204). -/
def State.transformed (s : State) : State :=
  (s.setCbuf (fftCbuf (Config.unwrittenWord s.launch .cbuf) s.twAt s.draws s.logn s.len
    s.cbuf)).bump.setPh P_BITREV

/-- The state after UNPACK on a length the engine is defined on (R216). -/
def State.unpacked (s : State) : State :=
  (s.setCbuf (unpackCbuf s.cbufAt s.draws s.len s.cbuf)).bump.setPh P_MAG

/-- The state after MAG (R231). -/
def State.reduced (s : State) : State :=
  (s.setSpec (forUp (s.len / 2) (fun i m => m.write i (magnitude s i)) s.spec)).bump.setPh P_SUPPRESS

theorem exec_window (s : State) : exec .window s = .next s.windowed := rfl

theorem exec_fft {s : State} (h : s.cfg.lenPow2 = true) : exec .fft s = .next s.transformed :=
  if_pos h

theorem exec_unpack {s : State} (h : s.cfg.lenPow2 = true) : exec .unpack s = .next s.unpacked :=
  if_pos h

theorem exec_mag (s : State) : exec .mag s = .next s.reduced := rfl

/-! ## The cells they leave -/

/-- A CBUF cell after WINDOW (R190). -/
theorem windowed_cbufAt {s : State} {q : Nat} (hq : q < 2 * s.len) :
    s.windowed.cbufAt q = if q % 2 = 0 then windowedSample s (q / 2) else posZero :=
  Memory.get_of_find ((find_windowedFrame s q).trans (if_pos hq))

/-- A CBUF cell of the lower half after UNPACK (R216). -/
theorem unpacked_cbufAt {s : State} (hn : 2 ≤ s.len) (heven : 2 * (s.len / 2) = s.len) {q : Nat}
    (hq : q < s.len) :
    s.unpacked.cbufAt q =
      if q = 0 then s.cbufAt 0
      else if q = 1 then posZero
      else if q % 2 = 0 then
        fadd ⟨s.draws, 0, q / 2, 0⟩ (s.cbufAt (2 * (q / 2))) (s.cbufAt (2 * (s.len - q / 2)))
      else fsub ⟨s.draws, 0, q / 2, 1⟩ (s.cbufAt (2 * (q / 2) + 1))
        (s.cbufAt (2 * (s.len - q / 2) + 1)) := by
  have hfind := find_unpackCbuf s.cbufAt s.draws s.len hn s.cbuf q
  refine Memory.get_of_find (hfind.trans ?_)
  rw [if_neg (by omega), heven]
  by_cases h0 : q = 0
  · simp [h0]
  · by_cases h1 : q = 1
    · simp [h1]
    · rw [if_pos (by omega), if_neg h0, if_neg h1]

/-- A SPEC cell after MAG (R231). -/
theorem reduced_specAt {s : State} {i : Nat} (hi : i < s.len / 2) :
    s.reduced.specAt i = magnitude s i :=
  Memory.get_of_find ((find_forUp_write_zero (magnitude s) s.spec _ i).trans (if_pos hi))

/-! ## Their bounds -/

/-- Every CBUF cell below `n` is a value bounded by 2^k. -/
def State.CbufBounded (s : State) (k n : Nat) : Prop := ∀ q, q < n → BoundedBy k (s.cbufAt q)

theorem windowed_cbufBounded {s : State} (hwin : ∀ i, i < s.len → unitWord (s.winAt i) = true) :
    s.windowed.CbufBounded 12 (2 * s.len) := by
  intro q hq
  rw [windowed_cbufAt hq]
  split
  · have hcode : (s.frameAt (q / 2)).toNat < 2 ^ 12 := (s.frameAt (q / 2)).isLt
    exact boundedBy_fmul _ (boundedBy_u2f (by omega) hcode.le)
      (boundedBy_of_unitWord (hwin _ (by omega))) (by decide)
  · exact boundedBy_posZero 12

theorem transformed_cbufBounded {s : State} {k : Nat} (hn : s.len = 2 ^ s.logn)
    (htw : ∀ q, q < s.len → absUnitWord (s.twAt q) = true) (hk : k + 2 * s.logn ≤ 127)
    (hs : s.CbufBounded k (2 * s.len)) :
    s.transformed.CbufBounded (k + 2 * s.logn) (2 * s.len) := by
  have helem := fftCbuf_elemBounded (d := Config.unwrittenWord s.launch .cbuf) (tw := s.twAt)
    (logn := s.logn) (m := s.cbuf) s.draws
    (fun q hq => boundedBy_of_absUnitWord (htw q (by rwa [hn]))) hk
    (fun e he => ⟨hs _ (by omega), hs _ (by omega)⟩)
  rw [← hn] at helem
  intro q hq
  obtain ⟨hre, him⟩ := helem (q / 2) (by omega)
  rcases Nat.mod_two_eq_zero_or_one q with h | h
  · rwa [show 2 * (q / 2) = q by omega] at hre
  · rwa [show 2 * (q / 2) + 1 = q by omega] at him

theorem bitreversed_cbufBounded {s : State} {k : Nat} (hn : s.len = 2 ^ s.logn)
    (hs : s.CbufBounded k (2 * s.len)) : s.bitreversed.CbufBounded k (2 * s.len) := by
  intro q hq
  rw [bitreversed_cbufAt_of_lt hq]
  exact hs _ (hn ▸ two_mul_brev_add_lt q)

theorem unpacked_cbufBounded {s : State} {k : Nat} (hn : 2 ≤ s.len)
    (heven : 2 * (s.len / 2) = s.len) (hk : k + 1 ≤ 127) (hs : s.CbufBounded k (2 * s.len)) :
    s.unpacked.CbufBounded (k + 1) s.len := by
  intro q hq
  rw [unpacked_cbufAt hn heven hq]
  split
  · exact (hs 0 (by omega)).mono (by omega)
  · split
    · exact boundedBy_posZero _
    · split
      · exact boundedBy_fadd _ (hs _ (by omega)) (hs _ (by omega)) hk
      · exact boundedBy_fsub _ (hs _ (by omega)) (hs _ (by omega)) hk

theorem toRat_nonneg_of_signBit {w : Word} (h : signBit w = false) : 0 ≤ toRat w := by
  rw [toRat_eq, h, if_neg Bool.false_ne_true, one_mul]
  positivity

theorem signBit_fmul_self (st : Site) {a : Word} (ha : isFinite a = true) :
    signBit (fmul st a a) = false := by
  rw [fmul_of_isFinite st ha ha, signBit_roundWord, bne_self_eq_false]

theorem signBit_fadd_eq_false (st : Site) {a b : Word} (ha : isFinite a = true)
    (hb : isFinite b = true) (hsa : signBit a = false) (hsb : signBit b = false) :
    signBit (fadd st a b) = false := by
  have hsum : 0 ≤ exactSum a b := by
    rw [exactSum, hsa, hsb, if_neg Bool.false_ne_true]
    positivity
  rw [fadd_of_isFinite st ha hb]
  split
  · rw [signBit_zeroWord, hsa, hsb, Bool.and_self]
  · rw [signBit_roundWord, decide_eq_false (not_lt.2 hsum)]

/-- Squares, their sum, the root and the division keep within one bit of the operands (R231). -/
theorem boundedBy_magnitude {s : State} {k i : Nat} (hre : BoundedBy k (s.cbufAt (2 * i)))
    (him : BoundedBy k (s.cbufAt (2 * i + 1))) (hk : 2 * k + 1 ≤ 127) (hn : 0 < s.len)
    (hn24 : s.len < 2 ^ 24) : BoundedBy (k + 1) (magnitude s i) := by
  have hsqre := boundedBy_fmul ⟨s.draws, 0, i, 0⟩ hre hre (by omega)
  have hsqim := boundedBy_fmul ⟨s.draws, 0, i, 1⟩ him him (by omega)
  have hsum := boundedBy_fadd ⟨s.draws, 0, i, 2⟩ hsqre hsqim (by omega)
  have hnonneg := toRat_nonneg_of_signBit (signBit_fadd_eq_false ⟨s.draws, 0, i, 2⟩ hsqre.finite hsqim.finite
    (signBit_fmul_self _ hre.finite) (signBit_fmul_self _ him.finite))
  exact boundedBy_fdiv_u2f _ (boundedBy_fsqrt _ (hsum.mono (by omega)) hnonneg (by omega)) hn hn24
    (by omega)

/-- A legal length below the largest MAX_N: at most 23 stages (R9, R231). -/
theorem logn_lt_of_maxNWf {c : Cfg} (hlen : c.lengthLegal = true) (hmax : c.maxNWf = true) :
    c.len < 2 ^ 24 ∧ c.logn < 24 := by
  simp only [Cfg.lengthLegal, Cfg.maxNWf, Bool.and_eq_true, decide_eq_true_eq] at hlen hmax
  have hlt : c.len < 2 ^ 24 := lt_of_le_of_lt hlen.2 hmax.2
  have hpow := (lenPow2_spec hlen.1).1
  exact ⟨hlt, (Nat.pow_lt_pow_iff_right (by decide : 1 < 2)).1 (hpow ▸ hlt)⟩

/-- Settles O45: codes are below 2^12, each of at most 23 stages adds two bits and UNPACK one, so the
squares of MAG stay below 2^119. -/
theorem finiteTablesGiveFiniteResults : Obligations.FiniteTablesGiveFiniteResults := by
  intro s hlen hmax hwin htw
  have hp : s.cfg.lenPow2 = true := lenPow2_of_lengthLegal hlen
  obtain ⟨hn, hlogn⟩ : s.len = 2 ^ s.logn ∧ 1 ≤ s.logn := lenPow2_spec hp
  have heven : 2 * (s.len / 2) = s.len := two_mul_half_len hp
  obtain ⟨hn24, hlogn24⟩ : s.len < 2 ^ 24 ∧ s.logn < 24 := logn_lt_of_maxNWf hlen hmax
  have hn2 : 2 ≤ s.len := by
    have hle : 2 ^ 1 ≤ 2 ^ s.logn := Nat.pow_le_pow_right (by decide) hlogn
    omega
  have h1 : s.windowed.CbufBounded 12 (2 * s.len) := windowed_cbufBounded hwin
  have h2 : s.windowed.transformed.CbufBounded (12 + 2 * s.logn) (2 * s.len) :=
    transformed_cbufBounded (s := s.windowed) hn htw (show 12 + 2 * s.logn ≤ 127 by omega) h1
  have h3 : s.windowed.transformed.bitreversed.CbufBounded (12 + 2 * s.logn) (2 * s.len) :=
    bitreversed_cbufBounded (s := s.windowed.transformed) hn h2
  have h4 : s.windowed.transformed.bitreversed.unpacked.CbufBounded (12 + 2 * s.logn + 1) s.len :=
    unpacked_cbufBounded (s := s.windowed.transformed.bitreversed) hn2 heven (by omega) h3
  refine ⟨_, _, _, _, _, exec_window s, exec_fft hp, exec_bitrev hp, exec_unpack hp, exec_mag _,
    fun q hq => ⟨(h1 q hq).finite, (h2 q hq).finite, (h3 q hq).finite⟩, fun q hq => (h4 q hq).finite, fun i hi => ?_⟩
  rw [reduced_specAt (s := s.windowed.transformed.bitreversed.unpacked) hi]
  exact (boundedBy_magnitude (h4 _ (by omega)) (h4 _ (by omega)) (by omega)
    (Nat.zero_lt_of_lt hn2) hn24).finite

end Sys2Proof.Machine
end

section
/-! The default results of IEEE 754: NaN and infinite operands, zeros and their signs (R21, R23). -/

namespace Sys2Proof.Machine

variable (st : Site) {a b : Word}

/-! ## Kinds of operands -/

theorem isNaN_of_isInf (h : isInf a = true) : isNaN a = false := by
  rw [eq_infWord h]
  exact isNaN_infWord _

theorem isFinite_of_isZero (h : isZero a = true) : isFinite a = true := by
  rw [eq_zeroWord h]
  exact isFinite_zeroWord _

/-- A pattern that is no NaN is an infinity or a finite value. -/
theorem isInf_or_isFinite (h : isNaN a = false) : isInf a = true ∨ isFinite a = true := by
  rw [isFinite_eq, h]
  cases isInf a <;> simp

/-! ## NaN operands -/

theorem fadd_of_isNaN (h : isNaN a = true ∨ isNaN b = true) : fadd st a b = nanWord st :=
  if_pos (Bool.or_eq_true_iff.2 h)

theorem fsub_of_isNaN (h : isNaN a = true ∨ isNaN b = true) : fsub st a b = nanWord st :=
  fadd_of_isNaN st (by rwa [isNaN_negate])

theorem fmul_of_isNaN (h : isNaN a = true ∨ isNaN b = true) : fmul st a b = nanWord st :=
  if_pos (Bool.or_eq_true_iff.2 h)

theorem fdiv_of_isNaN (h : isNaN a = true ∨ isNaN b = true) : fdiv st a b = nanWord st :=
  if_pos (Bool.or_eq_true_iff.2 h)

theorem fsqrt_of_isNaN (h : isNaN a = true) : fsqrt st a = nanWord st :=
  if_pos h

/-! ## Infinite operands -/

theorem fadd_of_isInf_left (ha : isInf a = true) (hb : isNaN b = false) :
    fadd st a b = if isInf b && signBit a != signBit b then nanWord st else a := by
  simp [fadd, isNaN_of_isInf ha, ha, hb]

theorem fadd_of_isInf_of_isFinite (ha : isInf a = true) (hb : isFinite b = true) :
    fadd st a b = a := by
  simp [fadd_of_isInf_left st ha (isNaN_of_isFinite hb), isInf_of_isFinite hb]

theorem fadd_of_isFinite_of_isInf (ha : isFinite a = true) (hb : isInf b = true) :
    fadd st a b = b := by
  simp [fadd, isNaN_of_isInf hb, isNaN_of_isFinite ha, isInf_of_isFinite ha, hb]

theorem fadd_of_isInf_of_signBit_eq (ha : isInf a = true) (hb : isInf b = true)
    (h : signBit a = signBit b) : fadd st a b = a := by
  simp [fadd_of_isInf_left st ha (isNaN_of_isInf hb), h]

theorem fmul_of_isInf (ha : isNaN a = false) (hb : isNaN b = false)
    (h : isInf a = true ∨ isInf b = true) :
    fmul st a b = if isZero a || isZero b then nanWord st else infWord (xor (signBit a) (signBit b)) := by
  have h' : (isInf a || isInf b) = true := Bool.or_eq_true_iff.2 h
  simp [fmul, ha, hb, h']

theorem fdiv_of_isInf_left (ha : isInf a = true) (hb : isNaN b = false) :
    fdiv st a b = if isInf b then nanWord st else infWord (xor (signBit a) (signBit b)) := by
  simp [fdiv, isNaN_of_isInf ha, ha, hb]

theorem fdiv_of_isInf_right (ha : isFinite a = true) (hb : isInf b = true) :
    fdiv st a b = zeroWord (xor (signBit a) (signBit b)) := by
  simp [fdiv, isNaN_of_isInf hb, isNaN_of_isFinite ha, isInf_of_isFinite ha, hb]

theorem fdiv_of_isZero (ha : isFinite a = true) (hb : isZero b = true) :
    fdiv st a b = if isZero a then nanWord st else infWord (xor (signBit a) (signBit b)) := by
  have hb' := isFinite_of_isZero hb
  simp [fdiv, isNaN_of_isFinite, isInf_of_isFinite, ha, hb', hb]

theorem fsqrt_of_signBit (hn : isNaN a = false) (hz : isZero a = false) (hs : signBit a = true) :
    fsqrt st a = nanWord st := by
  simp [fsqrt, hn, hz, hs]

theorem fsqrt_of_isInf (ha : isInf a = true) (hs : signBit a = false) : fsqrt st a = a := by
  simp [fsqrt, isNaN_of_isInf ha, isZero_of_isInf ha, ha, hs]

/-! ## Zero sums -/

theorem fadd_of_toRat_add_eq_zero (ha : isFinite a = true) (hb : isFinite b = true)
    (h : toRat a + toRat b = 0) : fadd st a b = zeroWord (signBit a && signBit b) := by
  rw [fadd_of_isFinite st ha hb, if_pos ((exactSum_eq_zero_iff a b).2 h)]

theorem fsub_of_toRat_eq (ha : isFinite a = true) (hb : isFinite b = true)
    (h : toRat a = toRat b) : fsub st a b = zeroWord (signBit a && !signBit b) := by
  rw [← signBit_negate b]
  exact fadd_of_toRat_add_eq_zero st ha ((isFinite_negate b).trans hb)
    (by rw [toRat_negate, h, add_neg_cancel])

/-! ## When a result is a NaN -/

theorem isNaN_fadd_iff (ha : isNaN a = false) (hb : isNaN b = false) :
    isNaN (fadd st a b) = true ↔ isInf a = true ∧ isInf b = true ∧ signBit a ≠ signBit b := by
  rcases isInf_or_isFinite ha with hia | hfa
  · rw [fadd_of_isInf_left st hia hb]
    split <;> simp_all
  · rcases isInf_or_isFinite hb with hib | hfb
    · simp [fadd_of_isFinite_of_isInf st hfa hib, isInf_of_isFinite hfa, hb]
    · rw [fadd_of_isFinite st hfa hfb]
      split <;> simp [isInf_of_isFinite hfa]

theorem isNaN_fsub_iff (ha : isNaN a = false) (hb : isNaN b = false) :
    isNaN (fsub st a b) = true ↔ isInf a = true ∧ isInf b = true ∧ signBit a = signBit b := by
  rw [fsub, isNaN_fadd_iff st ha ((isNaN_negate b).trans hb), isInf_negate, signBit_negate,
    Bool.ne_not]

theorem isNaN_fmul_iff (ha : isNaN a = false) (hb : isNaN b = false) :
    isNaN (fmul st a b) = true ↔
      (isInf a = true ∧ isZero b = true) ∨ (isZero a = true ∧ isInf b = true) := by
  rcases isInf_or_isFinite ha with hia | hfa
  · rw [fmul_of_isInf st ha hb (.inl hia)]
    cases hz : isZero b <;> simp [hia, isZero_of_isInf hia]
  · rcases isInf_or_isFinite hb with hib | hfb
    · rw [fmul_of_isInf st ha hb (.inr hib)]
      cases hz : isZero a <;> simp [hib, isZero_of_isInf hib]
    · simp [fmul_of_isFinite st hfa hfb, isInf_of_isFinite hfa, isInf_of_isFinite hfb]

theorem isNaN_fdiv_iff (ha : isNaN a = false) (hb : isNaN b = false) :
    isNaN (fdiv st a b) = true ↔
      (isInf a = true ∧ isInf b = true) ∨ (isZero a = true ∧ isZero b = true) := by
  rcases isInf_or_isFinite ha with hia | hfa
  · rw [fdiv_of_isInf_left st hia hb]
    cases hi : isInf b <;> simp [hia, isZero_of_isInf hia]
  · rcases isInf_or_isFinite hb with hib | hfb
    · simp [fdiv_of_isInf_right st hfa hib, isInf_of_isFinite hfa, isZero_of_isInf hib]
    · cases hz : isZero b with
      | true =>
        rw [fdiv_of_isZero st hfa hz]
        cases hza : isZero a <;> simp [isInf_of_isFinite hfa]
      | false => simp [fdiv_of_isFinite st hfa hfb hz, isInf_of_isFinite hfa]

theorem isNaN_fsqrt_iff (ha : isNaN a = false) :
    isNaN (fsqrt st a) = true ↔ signBit a = true ∧ isZero a = false := by
  cases hz : isZero a with
  | true => simp [fsqrt_of_isZero st hz, ha]
  | false =>
    cases hs : signBit a with
    | true => simp [fsqrt_of_signBit st ha hz hs]
    | false =>
      rcases isInf_or_isFinite ha with hia | hfa
      · simp [fsqrt_of_isInf st hia hs, ha]
      · simp [fsqrt_of_isFinite st hfa hz hs]

/-! ## The sign of a product and of a quotient -/

/-- A result that is no NaN has operands that are none. -/
theorem operands_not_isNaN {op : Word → Word → Word}
    (hop : isNaN a = true ∨ isNaN b = true → op a b = nanWord st) (h : isNaN (op a b) = false) :
    isNaN a = false ∧ isNaN b = false := by
  refine Bool.or_eq_false_iff.1 (Bool.eq_false_iff.2 fun hor => ?_)
  rw [hop (Bool.or_eq_true_iff.1 hor), isNaN_nanWord] at h
  cases h

/-- A result that is a NaN or an infinity has the infinity's sign where it is no NaN. -/
theorem signBit_nan_or_inf {c s : Bool}
    (h : isNaN (if c then nanWord st else infWord s) = false) :
    signBit (if c then nanWord st else infWord s) = s := by
  cases c
  · exact signBit_infWord s
  · simp at h

theorem signBit_fmul (h : isNaN (fmul st a b) = false) :
    signBit (fmul st a b) = xor (signBit a) (signBit b) := by
  obtain ⟨ha, hb⟩ := operands_not_isNaN st (fmul_of_isNaN st) h
  by_cases hi : isInf a = true ∨ isInf b = true
  · rw [fmul_of_isInf st ha hb hi] at h ⊢
    exact signBit_nan_or_inf st h
  · have hfa : isFinite a = true := (isInf_or_isFinite ha).resolve_left fun h => hi (.inl h)
    have hfb : isFinite b = true := (isInf_or_isFinite hb).resolve_left fun h => hi (.inr h)
    exact (congrArg signBit (fmul_of_isFinite st hfa hfb)).trans (signBit_roundWord _ _ _ _)

theorem signBit_fdiv (h : isNaN (fdiv st a b) = false) :
    signBit (fdiv st a b) = xor (signBit a) (signBit b) := by
  obtain ⟨ha, hb⟩ := operands_not_isNaN st (fdiv_of_isNaN st) h
  rcases isInf_or_isFinite ha with hia | hfa
  · rw [fdiv_of_isInf_left st hia hb] at h ⊢
    exact signBit_nan_or_inf st h
  · rcases isInf_or_isFinite hb with hib | hfb
    · rw [fdiv_of_isInf_right st hfa hib, signBit_zeroWord]
    · cases hz : isZero b with
      | true =>
        rw [fdiv_of_isZero st hfa hz] at h ⊢
        exact signBit_nan_or_inf st h
      | false =>
        exact (congrArg signBit (fdiv_of_isFinite st hfa hfb hz)).trans (signBit_roundWord _ _ _ _)

/-! ## An infinite operand carried through -/

theorem sums_of_isInf_of_isFinite (ha : isInf a = true) (hb : isFinite b = true) :
    fadd st a b = a ∧ fadd st b a = a ∧ fsub st a b = a ∧ fsub st b a = infWord (!signBit a) := by
  have hnb : isFinite (negate b) = true := (isFinite_negate b).trans hb
  have hna : isInf (negate a) = true := (isInf_negate a).trans ha
  refine ⟨fadd_of_isInf_of_isFinite st ha hb, fadd_of_isFinite_of_isInf st hb ha,
    fadd_of_isInf_of_isFinite st ha hnb, ?_⟩
  rw [← signBit_negate, ← eq_infWord hna]
  exact fadd_of_isFinite_of_isInf st hb hna

theorem fsub_of_isInf_of_signBit_ne (ha : isInf a = true) (hb : isInf b = true)
    (h : signBit a ≠ signBit b) : fsub st a b = a :=
  fadd_of_isInf_of_signBit_eq st ha ((isInf_negate b).trans hb)
    (by rw [signBit_negate, Bool.eq_not]; exact h)

theorem products_of_isInf (ha : isInf a = true) (hb : isNaN b = false) (hz : isZero b = false) :
    fmul st a b = infWord (xor (signBit a) (signBit b)) ∧
      fmul st b a = infWord (xor (signBit a) (signBit b)) := by
  have hna := isNaN_of_isInf ha
  have hza := isZero_of_isInf ha
  rw [fmul_of_isInf st hna hb (.inl ha), fmul_of_isInf st hb hna (.inr ha), hz, hza,
    Bool.xor_comm (signBit b)]
  exact ⟨rfl, rfl⟩

theorem quotients_of_isInf (ha : isInf a = true) (hb : isFinite b = true) :
    fdiv st a b = infWord (xor (signBit a) (signBit b)) ∧
      fdiv st b a = zeroWord (xor (signBit a) (signBit b)) := by
  rw [fdiv_of_isInf_left st ha (isNaN_of_isFinite hb), isInf_of_isFinite hb,
    fdiv_of_isInf_right st hb ha, Bool.xor_comm (signBit b)]
  exact ⟨rfl, rfl⟩

theorem fdiv_by_zero (ha : isFinite a = true) (hz : isZero a = false) (hb : isZero b = true) :
    fdiv st a b = infWord (xor (signBit a) (signBit b)) := by
  rw [fdiv_of_isZero st ha hb, hz]
  rfl

/-- Settles O60, one lemma per clause. -/
theorem zeroSignsAndNaNsFollowTheDefaults : Obligations.ZeroSignsAndNaNsFollowTheDefaults := by
  have hzeros (st : Site) (s t : Bool) : fadd st (zeroWord s) (zeroWord t) = zeroWord (s && t) := by
    rw [fadd_of_toRat_add_eq_zero st (isFinite_zeroWord s) (isFinite_zeroWord t) (by simp),
      signBit_zeroWord, signBit_zeroWord]
  refine ⟨fun st x hx => ?_, fun st => ⟨?_, ?_, ?_, ?_⟩, fun st a b h => ?_, fun st a h => ?_,
    fun st a b ha hb => ⟨fadd_of_toRat_add_eq_zero st ha hb, fsub_of_toRat_eq st ha hb⟩,
    fun st a b => ⟨signBit_fmul st, signBit_fdiv st⟩, fun st a b => ⟨?_, ?_, ?_, ?_, ?_⟩,
    fun st => fsqrt_of_isInf st (by decide) (by decide), fun st a b ha hb => ?_⟩
  · rw [fsub_of_toRat_eq st hx hx rfl, Bool.and_not_self]
    rfl
  · exact hzeros st false true
  · exact hzeros st true false
  · exact fsqrt_of_isZero st (by decide)
  · exact fsqrt_of_isZero st (by decide)
  · rw [fadd_of_isNaN st h, fsub_of_isNaN st h, fmul_of_isNaN st h, fdiv_of_isNaN st h]
    simp
  · rw [fsqrt_of_isNaN st h, isNaN_nanWord]
  · exact sums_of_isInf_of_isFinite st
  · exact fun ha hb => ⟨fadd_of_isInf_of_signBit_eq st ha hb, fsub_of_isInf_of_signBit_ne st ha hb⟩
  · exact products_of_isInf st
  · exact quotients_of_isInf st
  · exact fdiv_by_zero st
  · exact ⟨isNaN_fadd_iff st ha hb, isNaN_fsub_iff st ha hb, isNaN_fmul_iff st ha hb,
      isNaN_fdiv_iff st ha hb, isNaN_fsqrt_iff st ha⟩

end Sys2Proof.Machine
end

section
/-! What each operation leaves unchanged: NF and STAT pass through (10_state.md R31, R36), CAUSE and the
two tables are written by initialisation alone, the configuration by nothing (R37, R39, R147); and the
host's view of the registers (R38). -/

namespace Sys2Proof.Machine

variable {i : Instr} {s t : State}

/-! ## NF and STAT pass through every operation (R31, R36) -/

/-- NF and STAT replaced. -/
def State.withFlags (s : State) (nf : Bool) (stat : BitVec 4) : State :=
  { s with nf := nf, stat := stat }

@[simp] theorem State.withFlags_cfg (nf : Bool) (stat : BitVec 4) :
    (s.withFlags nf stat).cfg = s.cfg := rfl

@[simp] theorem State.withFlags_env (nf : Bool) (stat : BitVec 4) :
    (s.withFlags nf stat).env = s.env := rfl

/-- An outcome with the flags of its next state replaced. -/
abbrev mapFlags (nf : Bool) (stat : BitVec 4) :
    Host.Outcome State Fault Refusal → Host.Outcome State Fault Refusal :=
  Safety.mapNext (·.withFlags nf stat)

/-- The renderer message shows neither flag (R109). -/
theorem renderMessage_withFlags (s : State) (nf : Bool) (stat : BitVec 4) :
    renderMessage (s.withFlags nf stat) = renderMessage s := by
  unfold renderMessage
  rw [specCells_eq_map, specCells_eq_map]
  rfl

/-- Two tests of one condition agree where their branches do. -/
theorem ite_eq_mapNext {f : State → State} {c : Prop} [Decidable c]
    {x x' y y' : Host.Outcome State Fault Refusal} (hx : x = Safety.mapNext f x')
    (hy : y = Safety.mapNext f y') :
    (if c then x else y) = Safety.mapNext f (if c then x' else y') := by
  rw [hx, hy, apply_ite (Safety.mapNext f)]

/-- An operation other than READ and the two that reach NF neither reads nor writes the flags. -/
theorem exec_withFlags (hw : i ≠ .wait) (hn : i ≠ .notify) (hr : i ≠ .read) (s : State) (nf : Bool)
    (stat : BitVec 4) :
    exec i (s.withFlags nf stat) = mapFlags nf stat (exec i s) := by
  cases i with
  | wait => exact absurd rfl hw
  | notify => exact absurd rfl hn
  | read => exact absurd rfl hr
  | twinit | genwin | window | mag | suppress | yield | rsvd14 | halt => rfl
  | cfgchk | fft | bitrev | unpack => exact ite_eq_mapNext rfl rfl
  | render => exact ite_eq_mapNext (by rw [renderMessage_withFlags]; rfl) rfl
  | start =>
    simp only [exec, execStart, State.withFlags_env]
    cases s.env.starts with
    | nil => rfl
    | cons r rs => exact ite_eq_mapNext rfl rfl

/-- A list of sample words sets the same bits of STAT whatever the flags are. -/
theorem appendWords_withFlags (s : State) (ws : List Word) :
    ∃ bits, ∀ nf stat,
      appendWords (s.withFlags nf stat) ws = (appendWords s ws).withFlags nf (stat ||| bits) := by
  induction ws generalizing s with
  | nil => exact ⟨0#4, fun nf stat => by rw [BitVec.or_zero]; rfl⟩
  | cons w ws ih =>
    obtain ⟨bits, hbits⟩ := ih (appendWord s w)
    by_cases hm : tagMatches s w
    · refine ⟨bits, fun nf stat => ?_⟩
      rw [appendWords_cons, appendWords_cons, ← hbits, appendWord_match _ _ hm,
        appendWord_match (s.withFlags nf stat) w hm]
      rfl
    · refine ⟨statTM ||| bits, fun nf stat => ?_⟩
      rw [appendWords_cons, appendWords_cons, ← BitVec.or_assoc, ← hbits, appendWord_mismatch _ _ hm,
        appendWord_mismatch (s.withFlags nf stat) w hm]
      rfl

theorem readBody_withFlags (s : State) (r : RdRsp) :
    ∃ bits, ∀ nf stat,
      readBody (s.withFlags nf stat) r = (readBody s r).withFlags nf (stat ||| bits) := by
  unfold readBody
  cases statusRecord (statusOfCode r.status) with
  | none =>
    exact appendWords_withFlags s
      (sampleWords s.layout r.bytes (r.count.toNat / s.layout.wordBytes))
  | some p => exact ⟨p.1, fun _ _ => rfl⟩

/-- A response that breaks the contract is refused (R167). -/
theorem execRead_refused {r : Refusal}
    (h : readContract s.layout (readMaxLen s) s.env.nextRead = some r) : execRead s = .refused r := by
  unfold execRead
  simp only [h]

/-- READ sets bits of STAT that do not depend on the flags, and leaves NF. -/
theorem exec_read_withFlags (s : State) :
    ∃ bits, ∀ nf stat,
      exec .read (s.withFlags nf stat) = mapFlags nf (stat ||| bits) (exec .read s) := by
  cases hc : readContract s.layout (readMaxLen s) s.env.nextRead with
  | none =>
    obtain ⟨bits, hbits⟩ :=
      readBody_withFlags ((s.setEnv s.env.afterRead).send (.rdReq (readMaxLen s))) s.env.nextRead
    refine ⟨bits, fun nf stat => ?_⟩
    rw [exec, exec, execRead_eq s hc, execRead_eq (s.withFlags nf stat) hc]
    exact congrArg (fun b => Host.Outcome.next (b.setPh (readNext b))) (hbits nf stat)
  | some r =>
    refine ⟨0#4, fun nf stat => ?_⟩
    rw [exec, exec, execRead_refused hc, execRead_refused (s := s.withFlags nf stat) hc]
    rfl

/-- Every operation but WAIT and NOTIFY leaves NF and sets bits of STAT that do not depend on the flags;
only READ sets any. -/
theorem exec_flags (hw : i ≠ .wait) (hn : i ≠ .notify) (s : State) :
    ∃ bits, (i ≠ .read → bits = 0#4) ∧
      (∀ t, exec i s = .next t → t.nf = s.nf ∧ t.stat = s.stat ||| bits) ∧
        ∀ nf stat, exec i (s.withFlags nf stat) = mapFlags nf (stat ||| bits) (exec i s) := by
  obtain ⟨bits, hread, hflags⟩ : ∃ bits, (i ≠ .read → bits = 0#4) ∧ ∀ nf stat,
      exec i (s.withFlags nf stat) = mapFlags nf (stat ||| bits) (exec i s) := by
    by_cases hr : i = .read
    · subst hr
      obtain ⟨bits, hbits⟩ := exec_read_withFlags s
      exact ⟨bits, fun h => absurd rfl h, hbits⟩
    · exact ⟨0#4, fun _ => rfl, fun nf stat => by rw [BitVec.or_zero, exec_withFlags hw hn hr]⟩
  refine ⟨bits, hread, fun t h => ?_, hflags⟩
  have hself : exec i s = mapFlags s.nf (s.stat ||| bits) (exec i s) := hflags s.nf s.stat
  rw [h] at hself
  have ht : t = t.withFlags s.nf (s.stat ||| bits) := Host.Outcome.next.inj hself
  exact ⟨by rw [ht]; rfl, by rw [ht]; rfl⟩

/-- Two maps that agree on the next state, if there is one, give the same outcome. -/
theorem mapNext_congr {f g : State → State} {o : Host.Outcome State Fault Refusal}
    (h : ∀ t, o = .next t → f t = g t) : Safety.mapNext f o = Safety.mapNext g o := by
  cases o with
  | next t => exact congrArg Host.Outcome.next (h t rfl)
  | fault r => rfl
  | refused r => rfl

/-- NF passes through every operation but WAIT and NOTIFY (R31). -/
theorem exec_setNf (hw : i ≠ .wait) (hn : i ≠ .notify) (s : State) (nf : Bool) :
    exec i (s.setNf nf) = Safety.mapNext (·.setNf nf) (exec i s) := by
  obtain ⟨bits, -, hnext, hflags⟩ := exec_flags hw hn s
  refine (hflags nf s.stat).trans (mapNext_congr fun t ht => ?_)
  rw [← (hnext t ht).2]
  rfl

/-- Only WAIT and NOTIFY write NF (R31). -/
theorem exec_nf (hw : i ≠ .wait) (hn : i ≠ .notify) (h : exec i s = .next t) : t.nf = s.nf := by
  obtain ⟨_, -, hnext, -⟩ := exec_flags hw hn s
  exact (hnext t h).1

/-- STAT replaced. -/
def State.setStat (s : State) (v : BitVec 4) : State := { s with stat := v }

/-- STAT passes through every operation, READ alone setting bits of it (R36). -/
theorem exec_setStat (i : Instr) (s : State) :
    ∃ bits, (i ≠ .read → bits = 0#4) ∧ ∀ stat,
      exec i (s.setStat stat) = Safety.mapNext (·.setStat (stat ||| bits)) (exec i s) := by
  by_cases hw : i = .wait
  · subst hw
    refine ⟨0#4, fun _ => rfl, fun stat => ?_⟩
    rw [BitVec.or_zero]
    exact ite_eq_mapNext rfl rfl
  · by_cases hn : i = .notify
    · subst hn
      exact ⟨0#4, fun _ => rfl, fun stat => by rw [BitVec.or_zero]; rfl⟩
    · obtain ⟨bits, hread, hnext, hflags⟩ := exec_flags hw hn s
      refine ⟨bits, hread, fun stat => (hflags s.nf stat).trans (mapNext_congr fun t ht => ?_)⟩
      rw [← (hnext t ht).1]
      rfl

/-- Operations set bits of STAT, and only READ sets any (R36). -/
theorem exec_stat (h : exec i s = .next t) :
    ∃ bits, (i ≠ .read → bits = 0#4) ∧ t.stat = s.stat ||| bits := by
  obtain ⟨bits, hread, hstat⟩ := exec_setStat i s
  have hself : exec i s = Safety.mapNext (·.setStat (s.stat ||| bits)) (exec i s) := hstat s.stat
  rw [h] at hself
  exact ⟨bits, hread, congrArg State.stat (Host.Outcome.next.inj hself)⟩

/-! ## The operation of a phase (R102) -/

/-- A phase is the code of the operation it decodes to. -/
theorem encode_decodePhase (p : Phase) : encode (decodePhase p) = .ph p := by
  revert p
  decide

/-- The phase whose operation is `i`. -/
theorem phase_of_decodePhase {p q : Phase} (h : decodePhase p = i) (hq : encode i = .ph q) : p = q :=
  OpWord.ph.inj ((encode_decodePhase p).symm.trans (h ▸ hq))

/-! ## CAUSE, the tables and the configuration (R37, R39, R147) -/

/-- What no operation writes, and what only the initialisation operations write. -/
theorem exec_frame (h : exec i s = .next t) :
    t.cfg = s.cfg ∧ (i ≠ .twinit → t.tw = s.tw) ∧ (i ≠ .genwin → t.win = s.win) ∧
      (i ≠ .cfgchk → i ≠ .start → t.cause = s.cause) := by
  cases i with
  | twinit | genwin | window | mag | suppress | yield | rsvd14 | halt | notify =>
    cases h
    simp
  | cfgchk => rcases execCfgchk_next h with ⟨-, rfl⟩ | ⟨-, rfl⟩ <;> simp
  | start =>
    rcases execStart_next h with ⟨-, rfl⟩ | ⟨r, rs, -, ⟨-, rfl⟩ | ⟨-, rfl⟩⟩ <;> simp
  | wait => rcases execWait_next h with ⟨-, rfl⟩ | ⟨-, rfl⟩ <;> simp
  | fft =>
    obtain ⟨-, rfl⟩ := execFft_next h
    simp
  | bitrev =>
    obtain ⟨-, rfl⟩ := execBitrev_next h
    simp
  | unpack =>
    obtain ⟨-, rfl⟩ := execUnpack_next h
    simp
  | render => rcases execRender_next h with ⟨-, rfl⟩ | ⟨-, rfl⟩ <;> simp
  | read =>
    obtain ⟨-, rfl⟩ := execRead_next s h
    obtain ⟨ws, -, -, -, hbody⟩ :=
      readBody_frame ((s.setEnv s.env.afterRead).send (.rdReq (readMaxLen s))) s.env.nextRead
    rw [hbody]
    simp

/-! ## What a step does to the registers -/

/-- A flag that keeps its value makes neither change. -/
theorem no_change_of_eq {b c : Bool} {p q : Prop} (h : c = b) :
    (b = false → c = true → p) ∧ (b = true → c = false → q) := by
  subst h
  cases c <;> simp

theorem execSeq_notify_pair (i : Instr) (s : State) :
    Safety.execSeq [.notify, i] s = exec i (s.setNf true) := by
  have hn : exec .notify s = .next (s.setNf true) := rfl
  simp only [Safety.execSeq, hn]
  cases exec i (s.setNf true) <;> rfl

/-- Settles O10: an operation other than WAIT and NOTIFY leaves NF, and WAIT clears it on the way to
READ. -/
theorem wakeIsNeverLost : Obligations.WakeIsNeverLost := by
  intro s t h
  rcases step_cases h with ⟨hm, he⟩ | ⟨hm, rfl⟩ | ⟨hm, rfl⟩ | ⟨hm, rfl⟩
  · by_cases hw : decodePhase s.ph = .wait
    · have hp : s.ph = P_WAIT := phase_of_decodePhase hw rfl
      rw [hw] at he
      rcases execWait_next he with ⟨-, rfl⟩ | ⟨-, rfl⟩
      · exact ⟨fun _ h1 => absurd h1 (by simp), fun _ _ => .inl ⟨hm, hp, rfl⟩⟩
      · exact no_change_of_eq rfl
    · exact no_change_of_eq (exec_nf (s := s.setEnv s.env.afterMove) hw (decodePhase_notify s.ph) he)
  · exact ⟨fun _ _ => hm, fun _ h0 => absurd h0 (by simp)⟩
  · exact ⟨fun _ h1 => absurd h1 (by simp), fun _ _ => .inr hm⟩
  · exact no_change_of_eq rfl

/-- Settles O11: NF passes through every operation but WAIT. -/
theorem notifyCommutesWithEveryOtherOperation :
    Obligations.NotifyCommutesWithEveryOtherOperation := by
  intro i s hw
  refine ⟨?_, fun t h hn => exec_nf hw hn h⟩
  rw [execSeq_notify_pair]
  by_cases hn : i = .notify
  · subst hn
    rfl
  · exact exec_setNf hw hn s true

/-- Settles O47: an operation sets bits, READ alone sets any, and reset clears all four. -/
theorem statusBitsAreSticky : Obligations.StatusBitsAreSticky := by
  intro s t h
  rcases step_cases h with ⟨hm, he⟩ | ⟨hm, rfl⟩ | ⟨hm, rfl⟩ | ⟨hm, rfl⟩
  · obtain ⟨bits, hread, hstat⟩ := exec_stat he
    rw [State.setEnv_stat] at hstat
    refine ⟨fun _ => ?_, fun hne => .inl ⟨hm, ?_⟩⟩
    · rw [hstat]
      ext j
      simp +contextual
    · by_contra hp
      have hzero : bits = 0#4 := hread fun hd => hp (phase_of_decodePhase hd rfl)
      rw [hstat, hzero, BitVec.or_zero] at hne
      exact hne rfl
  · exact ⟨fun _ => BitVec.and_self, fun hne => absurd rfl hne⟩
  · exact ⟨fun hne => absurd hm hne, fun _ => .inr ⟨hm, rfl⟩⟩
  · exact ⟨fun _ => BitVec.and_self, fun hne => absurd rfl hne⟩

/-- Settles O48: STAT passes through, and the two runs then differ in nothing but STAT. -/
theorem statusIsReadByNoOperation : Obligations.StatusIsReadByNoOperation := by
  intro i s v
  obtain ⟨bits, -, hstat⟩ := exec_setStat i s
  change Safety.mapNext _ (exec i (s.setStat v)) = _
  rw [hstat]
  cases exec i s <;> rfl

/-- Settles O49: CFGCHK and START write CAUSE only by a fatal condition. -/
theorem causeIsWrittenByInitialisationAlone : Obligations.CauseIsWrittenByInitialisationAlone := by
  intro i s t h hne
  obtain ⟨-, -, -, hcause⟩ := exec_frame h
  by_cases hc : i = .cfgchk
  · subst hc
    rcases execCfgchk_next h with ⟨-, rfl⟩ | ⟨-, rfl⟩
    · exact absurd rfl hne
    · exact ⟨rfl, .inl ⟨rfl, rfl, rfl⟩⟩
  · obtain rfl : i = .start := by
      by_contra hs
      exact hne (hcause hc hs)
    rcases execStart_next h with ⟨-, rfl⟩ | ⟨r, rs, -, ⟨-, rfl⟩ | ⟨-, rfl⟩⟩
    · exact absurd rfl hne
    · exact absurd rfl hne
    · exact ⟨rfl, .inr ⟨rfl, rfl, List.getLast?_concat⟩⟩

/-- Settles O50: no operation writes the configuration, and each table has one writer. -/
theorem configurationNeverChanges : Obligations.ConfigurationNeverChanges := by
  intro s t h
  rcases step_cases h with ⟨-, he⟩ | ⟨-, rfl⟩ | ⟨hm, rfl⟩ | ⟨-, rfl⟩
  · obtain ⟨hcfg, htw, hwin, -⟩ := exec_frame he
    exact ⟨hcfg, fun _ hp => htw fun hd => hp (phase_of_decodePhase hd rfl),
      fun _ hp => hwin fun hd => hp (phase_of_decodePhase hd rfl)⟩
  · exact ⟨rfl, fun _ _ => rfl, fun _ _ => rfl⟩
  · exact ⟨rfl, fun hne => absurd hm hne, fun hne => absurd hm hne⟩
  · exact ⟨rfl, fun _ _ => rfl, fun _ _ => rfl⟩

/-! ## The host's view (R38, R50, R52) -/

/-- Settles O54: the table of R52, and both sides of the bound 12 on the number written to. -/
theorem csrViewsShowTheRegisters : Obligations.CsrViewsShowTheRegisters :=
  fun _ _ => ⟨rfl, fun _ hn => if_neg (by omega), fun _ hn => if_pos hn⟩

end Sys2Proof.Machine
end

section
/-! The invariant of the reachable states (10_state.md R32, R67; 20_memory.md R70, R87; 44_reducer.md
R237; 60_exceptions.md R280; 70_reset_and_hazards.md R320): what it says in each phase, and that every
step keeps it. -/

namespace Sys2Proof.Machine

variable {i : Instr} {s t : State}

/-! ## Memories in canonical form within their spaces (R70) -/

/-- Canonical form, and no cell listed at `size` or above. -/
def Memory.Sound {w : Nat} (m : Memory w) (size : Nat) : Prop := m.wf = true ∧ m.within size

theorem Memory.sound_nil {w : Nat} (size : Nat) : Memory.Sound ([] : Memory w) size :=
  ⟨rfl, Memory.within_nil size⟩

theorem Memory.Sound.write {w : Nat} {m : Memory w} {size i : Nat} (v : BitVec w) (hi : i < size)
    (hm : m.Sound size) : (m.write i v).Sound size :=
  ⟨Memory.wf_write m i v hm.1, Memory.within_write v hi hm.2⟩

/-- The five memories within their spaces. -/
def State.Sound (s : State) : Prop :=
  s.frame.Sound s.len ∧ s.win.Sound s.len ∧ s.tw.Sound s.len ∧ s.cbuf.Sound (2 * s.len) ∧
    s.spec.Sound (s.len / 2)

/-! ## What the invariant says in each phase -/

/-- Initialisation is over: no fatal condition, a legal length and both tables wholly written (R141,
R143, R145, R280). -/
def State.Initialised (s : State) : Prop :=
  s.cause = 0#2 ∧ s.cfg.lengthLegal = true ∧ s.tw.full s.len ∧ s.win.full s.len

/-- The bins below `min(K, N/2)` are zeroed (R236, R237). -/
def State.Suppressed (s : State) : Prop :=
  ∀ i, i < suppressLimit s.cfg → s.spec.find i = some posZero

/-- What the invariant says of registers and written cells when operation `i` is the next one. -/
abbrev State.ReadyFor (i : Instr) (s : State) : Prop :=
  match i with
  | .cfgchk => s.fill = 0 ∧ s.cause = 0#2
  | .twinit => s.fill = 0 ∧ s.cause = 0#2 ∧ s.cfg.lengthLegal = true
  | .genwin => s.fill = 0 ∧ s.cause = 0#2 ∧ s.cfg.lengthLegal = true ∧ s.tw.full s.len
  | .start => s.fill = 0 ∧ s.Initialised
  | .wait | .read => s.fill < s.len ∧ s.Initialised
  | .window => s.fill = s.len ∧ s.Initialised
  | .fft | .bitrev | .unpack | .mag => s.fill = 0 ∧ s.Initialised ∧ s.cbuf.full (2 * s.len)
  | .suppress => s.fill = 0 ∧ s.Initialised ∧ s.spec.full (s.len / 2)
  | .render | .yield => s.fill = 0 ∧ s.Initialised ∧ s.spec.full (s.len / 2) ∧ s.Suppressed
  | .halt => s.fill = 0 ∧ s.cause ≠ 0#2 ∧ s.cause ≠ 3#2
  | .rsvd14 | .notify => False

theorem State.sound_iff :
    s.Sound ↔ s.memWf = true ∧ s.frame.within s.len ∧ s.win.within s.len ∧ s.tw.within s.len ∧
      s.cbuf.within (2 * s.len) ∧ s.spec.within (s.len / 2) := by
  unfold State.Sound State.memWf Memory.Sound
  simp only [Bool.and_eq_true]
  tauto

/-- The invariant's clauses on the memories alone. -/
theorem sound_of_inv (h : Safety.Inv s) : s.Sound :=
  State.sound_iff.2
    ⟨h.memWf, h.frameWithin, h.winWithin, h.twWithin, h.cbufWithin, h.specWithin⟩

/-- The invariant's clauses for one phase: each premise on PH is decided by the phase's code. -/
theorem readyFor_of_inv (h : Safety.Inv s) : State.ReadyFor (decodePhase s.ph) s := by
  obtain ⟨-, -, -, -, -, -, -, hrsvd, hcause, hhalt, hlegal, hfull, hopen, hzero, htw, hwin, hcbuf,
    hspec, hsupp⟩ := h
  cases hd : decodePhase s.ph with
  | notify => exact decodePhase_notify _ hd
  | _ =>
    have hp := phase_of_decodePhase hd rfl
    simp_all [State.ReadyFor, State.Initialised, State.Suppressed]

/-- In one phase the invariant says no more than the phase's own clauses and sound memories. -/
theorem inv_of_readyFor (hm : s.Sound) (hd : decodePhase s.ph = i) (h : State.ReadyFor i s) :
    Safety.Inv s := by
  obtain ⟨h1, h2, h3, h4, h5, h6⟩ := State.sound_iff.1 hm
  cases i with
  | notify | rsvd14 => exact h.elim
  | _ =>
    have hp := phase_of_decodePhase hd rfl
    constructor <;> simp_all [State.ReadyFor, State.Initialised, State.Suppressed, Nat.le_of_lt]

/-! ## What the buffer writing operations keep and fill -/

/-- A space whose cells below `size` have been listed one by one is wholly written. -/
theorem Memory.full_of_find {w size : Nat} {m : Memory w} {f g : Nat → Option (BitVec w)}
    (h : ∀ j, m.find j = if j < size then f j else g j) (hf : ∀ j, (f j).isSome) : m.full size :=
  fun j hj => by
    rw [h, if_pos hj]
    exact Option.isSome_iff_exists.1 (hf j)

/-- A property that every write into CBUF keeps is kept by FFT (R204). -/
theorem fftCbuf_keeps_of_lenPow2 {P : Memory 32 → Prop} {d tw : Nat → Word} {draw : Nat} {m : Memory 32}
    (h : s.cfg.lenPow2 = true) (hw : ∀ m i v, i < 2 * s.len → P m → P (Memory.write m i v)) (hm : P m) :
    P (fftCbuf d tw draw s.logn s.len m) := by
  have hlen : s.len = 2 ^ s.logn := (lenPow2_spec h).1
  rw [hlen] at hw ⊢
  exact fftCbuf_keeps d tw draw s.logn hw hm

/-- A length the engine is defined on is at least 2 (R201). -/
theorem two_le_len {c : Cfg} (h : c.lenPow2 = true) : 2 ≤ c.len := by
  unfold Cfg.lenPow2 at h
  simp only [Bool.and_eq_true, decide_eq_true_eq] at h
  exact h.2

/-- An empty frame of a legal length is not complete. -/
theorem fill_lt_len (hfill : s.fill = 0) (h : s.Initialised) : s.fill < s.len := by
  obtain ⟨-, hlegal, -, -⟩ := h
  have hlen : 2 ≤ s.len := two_le_len (lenPow2_of_lengthLegal hlegal)
  omega

theorem appendWords_sound {size : Nat} (s : State) (ws : List Word) (hs : s.fill + ws.length ≤ size)
    (h : s.frame.Sound size) : (appendWords s ws).frame.Sound size := by
  induction ws generalizing s with
  | nil => exact h
  | cons w ws ih =>
    rw [List.length_cons] at hs
    refine ih (appendWord s w) (by rw [appendWord_fill]; omega) ?_
    by_cases hm : tagMatches s w
    · rw [appendWord_match s w hm]
      exact h.write _ (by omega)
    · rw [appendWord_mismatch s w hm]
      exact h

/-- READ appends within the frame and goes on to WINDOW exactly when it is complete (R166, R173,
R250). -/
theorem execRead_effect (h : execRead s = .next t) (hf : s.fill ≤ s.len) :
    ∃ frame fill stat out,
      t = { s with frame := frame, fill := fill, stat := stat, out := out, env := s.env.afterRead,
                   ph := if fill = s.len then P_WINDOW else P_WAIT } ∧
        fill ≤ s.len ∧ (s.frame.Sound s.len → frame.Sound s.len) := by
  obtain ⟨hc, rfl⟩ := execRead_next s h
  set s' := (s.setEnv s.env.afterRead).send (.rdReq (readMaxLen s))
  obtain ⟨ws, hframe, hfill, hlen, hbody⟩ := readBody_frame s' s.env.nextRead
  have hle : s.fill + ws.length ≤ s.len :=
    (Nat.add_le_add_left hlen _).trans (fill_add_words_le s hf ((readContract_none_iff _ _ _).1 hc).1)
  refine ⟨(readBody s' s.env.nextRead).frame, (readBody s' s.env.nextRead).fill,
    (readBody s' s.env.nextRead).stat, (readBody s' s.env.nextRead).out, ?_, hfill.trans_le hle, ?_⟩
  · rw [hbody]
    rfl
  · rw [hframe]
    exact appendWords_sound s' ws hle

/-! ## Every operation keeps the memories sound (R70, R77) -/

theorem exec_keeps_sound (h : exec i s = .next t) (hf : s.fill ≤ s.len) (hm : s.Sound) : t.Sound := by
  have hkeep : s.Sound := hm
  obtain ⟨hframe, hwin, htw, hcbuf, hspec⟩ := hm
  cases i with
  | yield | rsvd14 | halt | notify =>
    cases h
    exact hkeep
  | cfgchk => rcases execCfgchk_next h with ⟨-, rfl⟩ | ⟨-, rfl⟩ <;> exact hkeep
  | start => rcases execStart_next h with ⟨-, rfl⟩ | ⟨r, rs, -, ⟨-, rfl⟩ | ⟨-, rfl⟩⟩ <;> exact hkeep
  | wait => rcases execWait_next h with ⟨-, rfl⟩ | ⟨-, rfl⟩ <;> exact hkeep
  | render => rcases execRender_next h with ⟨-, rfl⟩ | ⟨-, rfl⟩ <;> exact hkeep
  | read =>
    obtain ⟨frame, fill, stat, out, rfl, -, hsound⟩ := execRead_effect h hf
    exact ⟨hsound hframe, hwin, htw, hcbuf, hspec⟩
  | twinit =>
    cases h
    refine ⟨hframe, hwin, forUp_keeps (Memory.Sound · s.len) htw fun i m hi hm => ?_, hcbuf, hspec⟩
    have hi' : i < s.len / 2 := hi
    exact (hm.write _ (by omega)).write _ (by omega)
  | genwin =>
    cases h
    refine ⟨hframe, forUp_keeps (Memory.Sound · s.len) hwin fun i m hi hm => ?_, htw, hcbuf, hspec⟩
    exact hm.write _ hi
  | window =>
    cases h
    refine ⟨hframe, hwin, htw, forUp_keeps (Memory.Sound · (2 * s.len)) hcbuf fun i m hi hm => ?_,
      hspec⟩
    exact (hm.write _ (by omega)).write _ (by omega)
  | fft =>
    obtain ⟨hp, rfl⟩ := execFft_next h
    exact ⟨hframe, hwin, htw, fftCbuf_keeps_of_lenPow2 (P := (Memory.Sound · (2 * s.len))) hp
      (fun _ _ v hi hm => hm.write v hi) hcbuf, hspec⟩
  | bitrev =>
    obtain ⟨-, rfl⟩ := execBitrev_next h
    exact ⟨hframe, hwin, htw, bitrevCbuf_keeps (P := (Memory.Sound · (2 * s.len))) _ _ _
      (fun _ _ v hi hm => hm.write v hi) hcbuf, hspec⟩
  | unpack =>
    obtain ⟨hp, rfl⟩ := execUnpack_next h
    exact ⟨hframe, hwin, htw, unpackCbuf_keeps (P := (Memory.Sound · (2 * s.len))) _ _ _ (two_le_len hp)
      (fun _ _ v hi hm => hm.write v hi) hcbuf, hspec⟩
  | mag =>
    cases h
    exact ⟨hframe, hwin, htw, hcbuf,
      forUp_keeps (Memory.Sound · (s.len / 2)) hspec fun i m hi hm => hm.write _ hi⟩
  | suppress =>
    cases h
    exact ⟨hframe, hwin, htw, hcbuf, forUp_keeps (Memory.Sound · (s.len / 2)) hspec fun i m hi hm =>
      hm.write _ (lt_of_lt_of_le hi (Nat.min_le_right _ _))⟩

/-! ## Every operation leaves what its successor needs -/

/-- A fatal condition leaves what P_HALT asks for (R280). -/
theorem readyFor_halt_of_raiseFatal (x : Fatal) (hf : s.fill = 0) :
    State.ReadyFor .halt (raiseFatal x s) := by
  refine ⟨hf, ?_⟩
  rw [raiseFatal_cause]
  cases x <;> decide

theorem exec_readies_successor (hd : decodePhase s.ph = i) (h : exec i s = .next t)
    (hf : State.ReadyFor i s) : State.ReadyFor (decodePhase t.ph) t := by
  cases i with
  | rsvd14 | notify => exact hf.elim
  | halt =>
    cases h
    rw [hd]
    exact hf
  | cfgchk =>
    obtain ⟨hfill, hcause⟩ := hf
    rcases execCfgchk_next h with ⟨hl, rfl⟩ | ⟨-, rfl⟩
    · exact ⟨hfill, hcause, hl⟩
    · exact readyFor_halt_of_raiseFatal _ hfill
  | twinit =>
    cases h
    obtain ⟨hfill, hcause, hl⟩ := hf
    have hlen : 2 * (s.len / 2) = s.len := two_mul_half_len (lenPow2_of_lengthLegal hl)
    have hfull : (twTable s.cfg s.tw).full s.len :=
      hlen ▸ Memory.full_of_find (find_twTable s.cfg s.tw) fun _ => rfl
    exact ⟨hfill, hcause, hl, hfull⟩
  | genwin =>
    cases h
    obtain ⟨hfill, hcause, hl, htw⟩ := hf
    exact ⟨hfill, hcause, hl, htw, Memory.full_of_find (find_winTable s.cfg s.win) fun _ => rfl⟩
  | start =>
    obtain ⟨hfill, hinit⟩ := hf
    rcases execStart_next h with ⟨-, rfl⟩ | ⟨r, rs, -, ⟨-, rfl⟩ | ⟨-, rfl⟩⟩
    · rw [hd]
      exact ⟨hfill, hinit⟩
    · exact ⟨fill_lt_len hfill hinit, hinit⟩
    · exact readyFor_halt_of_raiseFatal _ hfill
  | wait =>
    rcases execWait_next h with ⟨-, rfl⟩ | ⟨-, rfl⟩
    · exact hf
    · rw [hd]
      exact hf
  | read =>
    obtain ⟨hlt, hinit⟩ := hf
    obtain ⟨frame, fill, stat, out, rfl, hle, -⟩ := execRead_effect h hlt.le
    by_cases hfull : fill = s.len
    · simp only [if_pos hfull]
      exact ⟨hfull, hinit⟩
    · simp only [if_neg hfull]
      exact ⟨lt_of_le_of_ne hle hfull, hinit⟩
  | window =>
    cases h
    obtain ⟨-, hinit⟩ := hf
    exact ⟨rfl, hinit, Memory.full_of_find (find_windowedFrame s) fun _ => rfl⟩
  | fft =>
    obtain ⟨hp, rfl⟩ := execFft_next h
    obtain ⟨hfill, hinit, hcbuf⟩ := hf
    exact ⟨hfill, hinit, fftCbuf_keeps_of_lenPow2 (P := (Memory.full · (2 * s.len))) hp
      (fun _ _ v _ hm => Memory.full_write v hm) hcbuf⟩
  | bitrev =>
    obtain ⟨-, rfl⟩ := execBitrev_next h
    obtain ⟨hfill, hinit, hcbuf⟩ := hf
    exact ⟨hfill, hinit, bitrevCbuf_keeps (P := (Memory.full · (2 * s.len))) _ _ _
      (fun _ _ v _ hm => Memory.full_write v hm) hcbuf⟩
  | unpack =>
    obtain ⟨hp, rfl⟩ := execUnpack_next h
    obtain ⟨hfill, hinit, hcbuf⟩ := hf
    exact ⟨hfill, hinit, unpackCbuf_keeps (P := (Memory.full · (2 * s.len))) _ _ _ (two_le_len hp)
      (fun _ _ v _ hm => Memory.full_write v hm) hcbuf⟩
  | mag =>
    cases h
    obtain ⟨hfill, hinit, -⟩ := hf
    exact ⟨hfill, hinit,
      Memory.full_of_find (find_forUp_write_zero (magnitude s) s.spec _) fun _ => rfl⟩
  | suppress =>
    cases h
    obtain ⟨hfill, hinit, hspec⟩ := hf
    exact ⟨hfill, hinit,
      forUp_keeps (Memory.full · (s.len / 2)) hspec fun i m _ hm => Memory.full_write _ hm,
      fun i hi => (find_forUp_write_zero (fun _ => posZero) s.spec _ i).trans (if_pos hi)⟩
  | render =>
    rcases execRender_next h with ⟨-, rfl⟩ | ⟨-, rfl⟩
    · exact hf
    · rw [show decodePhase (s.setEnv s.env.afterRender).ph = .render from hd]
      exact hf
  | yield =>
    cases h
    obtain ⟨hfill, hinit, -⟩ := hf
    exact ⟨fill_lt_len hfill hinit, hinit⟩

/-! ## The invariant -/

/-- Settles O51: after reset no cell is written, and CFGCHK asks for `FILL = 0` and no cause. -/
theorem invHoldsAfterEveryReset : Obligations.InvHoldsAfterEveryReset :=
  fun _ _ _ _ => inv_of_readyFor (i := .cfgchk)
    ⟨Memory.sound_nil _, Memory.sound_nil _, Memory.sound_nil _, Memory.sound_nil _, Memory.sound_nil _⟩
    rfl ⟨rfl, rfl⟩

/-- The invariant says nothing of the environment. -/
theorem inv_setEnv (e : Env) (h : Safety.Inv s) : Safety.Inv (s.setEnv e) := by
  have hm : s.Sound := sound_of_inv h
  exact inv_of_readyFor (s := s.setEnv e) hm rfl (readyFor_of_inv h :)

/-- The invariant says nothing of NF. -/
theorem inv_setNf (v : Bool) (h : Safety.Inv s) : Safety.Inv (s.setNf v) := by
  have hm : s.Sound := sound_of_inv h
  exact inv_of_readyFor (s := s.setNf v) hm rfl (readyFor_of_inv h :)

/-- The consumer's operation keeps the invariant. -/
theorem exec_keeps_inv (h : exec (decodePhase s.ph) s = .next t) (hi : Safety.Inv s) : Safety.Inv t :=
  inv_of_readyFor (exec_keeps_sound h hi.fillLe (sound_of_inv hi)) rfl
    (exec_readies_successor rfl h (readyFor_of_inv hi))

/-- Settles O52: each operation leaves what its successor needs, and no other move touches what the
invariant speaks of but reset. -/
theorem stepKeepsTheInvariant : Obligations.StepKeepsTheInvariant := by
  intro s t hi h
  have hi' : Safety.Inv (s.setEnv s.env.afterMove) := inv_setEnv s.env.afterMove hi
  rcases step_cases h with ⟨-, he⟩ | ⟨-, rfl⟩ | ⟨-, rfl⟩ | ⟨-, rfl⟩
  · exact exec_keeps_inv (s := s.setEnv s.env.afterMove) he hi'
  · exact inv_setNf true hi'
  · exact invHoldsAfterEveryReset _ _ _ _
  · exact hi'

end Sys2Proof.Machine
end

section
/-! Signalling of one event, the bytes of a response as sample words, and the memory space each operation
writes (20_memory.md R73, R75, R82, R83; 41_signal_and_frame_assembly.md R163; 30_encoding.md R110 to
R112). -/

namespace Sys2Proof.Machine

variable {i : Instr} {s t : State}

/-! ## WAIT (R163, R164) -/

/-- A raised notification is consumed on the way to READ (R163). -/
theorem exec_wait_notified (h : s.nf = true) :
    exec .wait s = .next ((s.setNf false).setPh P_READ) :=
  if_pos h

/-- Without a notification WAIT holds the state (R164). -/
theorem exec_wait_blocked (h : s.nf = false) : exec .wait s = .next s :=
  if_neg (Bool.eq_false_iff.1 h)

/-- Settles O7, by the two sides of WAIT's test. -/
theorem waitConsumesTheNotificationOrHolds : Obligations.WaitConsumesTheNotificationOrHolds :=
  fun _ => ⟨exec_wait_notified, exec_wait_blocked⟩

/-- The first move of a schedule is the one the next step takes. -/
theorem nextMove_of_sched {e : Env} {m : Move} {ms : List Move} (h : e.sched = m :: ms) :
    e.nextMove = m := by
  rw [Env.nextMove, h, List.headD_cons]

/-- Settles O9: WAIT clears NF in the first step, and the event sets it again in the second. -/
theorem setWinsOverClearInTheSameInstant : Obligations.SetWinsOverClearInTheSameInstant := by
  intro s rest hph hnf hsched
  have hwait : step s = .next (((s.setEnv s.env.afterMove).setNf false).setPh P_READ) := by
    rw [step_consumer (nextMove_of_sched hsched), hph]
    exact exec_wait_notified (s := s.setEnv s.env.afterMove) hnf
  have hevent : s.env.afterMove.sched = .irq :: rest := by
    rw [Env.afterMove, hsched, List.tail_cons]
  rw [run_succ hwait, run_succ (step_irq (nextMove_of_sched hevent))]
  simp only [Host.Core.run, Env.afterMove, hsched]
  rfl

/-! ## Sample words (R75, R110 to R112) -/

theorem leWord_singleton (b : Byte) : leWord [b] = b.setWidth 32 := by
  simp [leWord]

/-- The bytes after the first one are the higher ones (R75). -/
theorem leWord_cons {w : Nat} {x : BitVec w} {bs : List Byte} (b : Byte)
    (h : leWord bs = x.setWidth 32) : leWord (b :: bs) = (x ++ b).setWidth 32 := by
  ext j hj
  rw [leWord, h]
  by_cases h8 : j < 8
  · simp [BitVec.getLsbD_append, h8]
  · simp [BitVec.getLsbD_append, h8, BitVec.getLsbD_of_ge b j (by omega)]

theorem leWord_two (b0 b1 : Byte) : leWord [b0, b1] = (b1 ++ b0).setWidth 32 :=
  leWord_cons b0 (leWord_singleton b1)

theorem leWord_four (b0 b1 b2 b3 : Byte) : leWord [b0, b1, b2, b3] = b3 ++ b2 ++ b1 ++ b0 :=
  (leWord_cons b0 (leWord_cons b1 (leWord_two b2 b3))).trans (BitVec.setWidth_eq _)

/-- The word that follows `j` whole words is made of the bytes right behind them. -/
theorem sampleWord_after (l : Layout) {bytes : List Byte} {j : Nat} (rest : List Byte)
    (h : bytes.length = l.wordBytes * j) :
    sampleWord l (bytes ++ rest) j = leWord (rest.take l.wordBytes) := by
  rw [sampleWord, ← h, List.drop_left]

/-- The bits of a field are a slice of the word (R112). -/
theorem ofNat_bitField (w : Word) (lo width : Nat) :
    BitVec.ofNat width (bitField w lo width) = w.extractLsb' lo width := by
  apply BitVec.eq_of_toNat_eq
  simp [bitField, Nat.shiftRight_eq_div_pow]

/-- Settles O27: the word's own bytes, last one first, and each field's slice. -/
theorem sampleWordsAreLittleEndianFields : Obligations.SampleWordsAreLittleEndianFields := by
  refine ⟨fun j bytes rest b0 b1 h => ?_, fun j bytes rest b0 b1 b2 b3 h => ?_,
    fun w => ⟨ofNat_bitField w 0 12, ofNat_bitField w 12 4⟩,
    fun w => ⟨ofNat_bitField w 0 12, ofNat_bitField w 13 4⟩⟩
  · exact (sampleWord_after layoutL16 (b0 :: b1 :: rest) h).trans (leWord_two b0 b1)
  · exact (sampleWord_after layoutL32 (b0 :: b1 :: b2 :: b3 :: rest) h).trans
      (leWord_four b0 b1 b2 b3)

/-! ## The memory spaces and FILL (R61, R73) -/

/-- Who writes FRAME, CBUF, SPEC and FILL. -/
theorem exec_buffer_frame (h : exec i s = .next t) :
    (i ≠ .read → t.frame = s.frame) ∧ (i ∉ [.window, .fft, .bitrev, .unpack] → t.cbuf = s.cbuf) ∧
      (i ∉ [.mag, .suppress] → t.spec = s.spec) ∧ (i ∉ [.read, .window] → t.fill = s.fill) := by
  cases i with
  | twinit | genwin | window | mag | suppress | yield | rsvd14 | halt | notify =>
    cases h
    simp
  | cfgchk => rcases execCfgchk_next h with ⟨-, rfl⟩ | ⟨-, rfl⟩ <;> simp
  | start =>
    rcases execStart_next h with ⟨-, rfl⟩ | ⟨r, rs, -, ⟨-, rfl⟩ | ⟨-, rfl⟩⟩ <;> simp
  | wait => rcases execWait_next h with ⟨-, rfl⟩ | ⟨-, rfl⟩ <;> simp
  | render => rcases execRender_next h with ⟨-, rfl⟩ | ⟨-, rfl⟩ <;> simp
  | fft =>
    obtain ⟨-, rfl⟩ := execFft_next h
    simp
  | bitrev =>
    obtain ⟨-, rfl⟩ := execBitrev_next h
    simp
  | unpack =>
    obtain ⟨-, rfl⟩ := execUnpack_next h
    simp
  | read =>
    obtain ⟨-, rfl⟩ := execRead_next s h
    obtain ⟨ws, -, -, -, hbody⟩ :=
      readBody_frame ((s.setEnv s.env.afterRead).send (.rdReq (readMaxLen s))) s.env.nextRead
    rw [hbody]
    simp

/-- Settles O46: the two tables have one writer each, as the other spaces and FILL have theirs. -/
theorem operationsReachOnlyTheirSpaces : Obligations.OperationsReachOnlyTheirSpaces := by
  intro i s t h
  obtain ⟨-, htw, hwin, -⟩ := exec_frame h
  exact ⟨htw, hwin, exec_buffer_frame h⟩

end Sys2Proof.Machine
end

section
/-! Operation words (30_encoding.md R102 to R104), the operations that send a request or the renderer
message (R108, R109; 40_init_and_window_table.md R148; 45_driver.md R246, R247), and the phases without a
step (R103, R149). -/

namespace Sys2Proof.Machine

variable {s : State}

/-! ## Operation words (R102 to R104) -/

/-- The word of every operation selects it again (R100). -/
theorem decode_encode (i : Instr) : decode (encode i) = .ok i := by
  cases i <;> rfl

/-- Settles O3: each word is the encoding of its operation, but the one that means no operation. -/
theorem operationWordsDecode : Obligations.OperationWordsDecode :=
  ⟨decode_encode .cfgchk, decode_encode .twinit, decode_encode .genwin, decode_encode .start,
    decode_encode .wait, decode_encode .read, decode_encode .window, decode_encode .fft,
    decode_encode .bitrev, decode_encode .unpack, decode_encode .mag, decode_encode .suppress,
    decode_encode .render, decode_encode .yield, decode_encode .rsvd14, decode_encode .halt,
    decode_encode .notify, rfl⟩

/-! ## START (R108, R148, R280) -/

/-- The answer 0 lets START go on to WAIT (R148). -/
theorem exec_start_accepted {rest : List (BitVec 1)} (h : s.env.starts = 0#1 :: rest) :
    exec .start s =
      .next (((s.setEnv s.env.afterStart).send (startRequest s.cfg)).setPh P_WAIT) := by
  change execStart s = _
  simp only [execStart, h, if_true]

/-- The answer 1 is the fatal condition ConfigError, raised once the request is sent (R280). -/
theorem exec_start_refused {rest : List (BitVec 1)} (h : s.env.starts = 1#1 :: rest) :
    exec .start s =
      .next (raiseFatal .configError
        ((s.setEnv s.env.afterStart).send (startRequest s.cfg))) := by
  change execStart s = _
  simp only [execStart, h]
  rfl

/-- START holds until the environment answers. -/
theorem exec_start_unanswered (h : s.env.starts = []) : exec .start s = .next s := by
  change execStart s = _
  simp only [execStart, h, hold]

/-- Settles O18, by the answer that comes next. -/
theorem startFollowsTheAnswer : Obligations.StartFollowsTheAnswer := by
  intro s rest
  refine ⟨fun h => ?accepted, fun h => ?refused, exec_start_unanswered⟩
  case accepted =>
    rw [exec_start_accepted h, Env.afterStart, h]
    rfl
  case refused =>
    rw [exec_start_refused h, Env.afterStart, h, List.append_cons]
    rfl

/-! ## RENDER (R109, R246, R247) -/

/-- The renderer accepts when nothing is queued or the next answer says so. -/
theorem rendererAccepts_of_head {e : Env} (h : e.renders = [] ∨ e.renders.head? = some .accepts) :
    e.rendererAccepts = true := by
  rcases h with h | h <;> simp [Env.rendererAccepts, List.headD_eq_head?_getD, h]

theorem rendererAccepts_of_busy {e : Env} (h : e.renders.head? = some .busy) :
    e.rendererAccepts = false := by
  simp [Env.rendererAccepts, List.headD_eq_head?_getD, h]

/-- An accepted message is sent on the way to YIELD. -/
theorem exec_render_accepted (h : s.env.rendererAccepts = true) :
    exec .render s =
      .next (((s.setEnv s.env.afterRender).send (.rndr (renderMessage s))).setPh P_YIELD) :=
  if_pos h

/-- A busy renderer holds the consumer, one answer used up. -/
theorem exec_render_busy (h : s.env.rendererAccepts = false) :
    exec .render s = .next (s.setEnv s.env.afterRender) :=
  if_neg (Bool.eq_false_iff.1 h)

/-- Settles O40: the message lists SPEC in index order, and the renderer's answer decides whether it is
sent. -/
theorem renderSendsTheSpectrum : Obligations.RenderSendsTheSpectrum := by
  intro s
  refine ⟨fun h => ?accepted, fun h => exec_render_busy (rendererAccepts_of_busy h)⟩
  case accepted =>
    rw [exec_render_accepted (rendererAccepts_of_head h), renderMessage, specCells_eq_map]
    rfl

/-! ## The halted and the reserved phase (R103, R149) -/

/-- Settles O20: both operations are the one that holds the state. -/
theorem haltAndReservedPhasesHaveNoStep : Obligations.HaltAndReservedPhasesHaveNoStep :=
  fun _ => ⟨rfl, rfl⟩

end Sys2Proof.Machine
end

section
/-! The length check and the two table builders of the initialisation (40_init_and_window_table.md R141 to
R147). -/

namespace Sys2Proof.Machine

variable {s : State}

/-! ## CFGCHK (R141, R280) -/

/-- The condition CFGCHK tests, in plain terms (R141). -/
theorem lengthLegal_iff {c : Cfg} :
    c.lengthLegal = true ↔ (∃ k, c.len = 2 ^ k) ∧ 2 ≤ c.len ∧ c.len ≤ c.maxN := by
  simp only [Cfg.lengthLegal, Cfg.lenPow2, Bool.and_eq_true, decide_eq_true_eq, ispow2_eq_true]
  constructor
  · rintro ⟨⟨⟨-, hpow⟩, h2⟩, hmax⟩
    exact ⟨hpow, h2, hmax⟩
  · rintro ⟨hpow, h2, hmax⟩
    exact ⟨⟨⟨by omega, hpow⟩, h2⟩, hmax⟩

/-- A legal length goes on to TWINIT. -/
theorem exec_cfgchk_legal (h : s.cfg.lengthLegal = true) :
    exec .cfgchk s = .next (s.setPh P_TWINIT) :=
  if_pos h

/-- Any other length is the fatal condition InvalidLength. -/
theorem exec_cfgchk_illegal (h : ¬ s.cfg.lengthLegal = true) :
    exec .cfgchk s = .next (raiseFatal .invalidLength s) :=
  if_neg h

/-- Settles O12, by the two sides of CFGCHK's test. -/
theorem cfgchkAcceptsExactlyTheLegalLengths : Obligations.CfgchkAcceptsExactlyTheLegalLengths :=
  fun _ => ⟨fun h => exec_cfgchk_legal (lengthLegal_iff.2 h),
    fun h => exec_cfgchk_illegal (mt lengthLegal_iff.1 h)⟩

/-! ## TWINIT (R143) -/

/-- The state after TWINIT (R143). -/
def State.twiddled (s : State) : State := (s.setTw (twTable s.cfg s.tw)).setPh P_GENWIN

theorem exec_twinit (s : State) : exec .twinit s = .next s.twiddled := rfl

/-- What TW lists after TWINIT: cells `2 * m` and `2 * m + 1` are pair `m`. -/
theorem twiddled_find (s : State) (j : Nat) :
    s.twiddled.tw.find j =
      if j < 2 * (s.len / 2) then
        some (if j % 2 = 0 then (Cfg.twNomAt s.cfg (j / 2)).1 else (Cfg.twNomAt s.cfg (j / 2)).2)
      else s.tw.find j :=
  find_twTable s.cfg s.tw j

/-- The even cell of a pair holds the cosine. -/
theorem twiddled_twAt_even {m : Nat} (hm : m < s.len / 2) :
    s.twiddled.twAt (2 * m) = (Cfg.twNomAt s.cfg m).1 :=
  Memory.get_of_find <| by
    have hpair : 2 * m / 2 = m := by omega
    rw [twiddled_find, if_pos (by omega), if_pos (by omega), hpair]

/-- The odd cell of a pair holds the sine. -/
theorem twiddled_twAt_odd {m : Nat} (hm : m < s.len / 2) :
    s.twiddled.twAt (2 * m + 1) = (Cfg.twNomAt s.cfg m).2 :=
  Memory.get_of_find <| by
    have hpair : (2 * m + 1) / 2 = m := by omega
    rw [twiddled_find, if_pos (by omega), if_neg (by omega), hpair]

/-- The cells past the pairs are left alone. -/
theorem twiddled_find_of_ge {q : Nat} (hq : 2 * (s.len / 2) ≤ q) :
    s.twiddled.tw.find q = s.tw.find q := by
  rw [twiddled_find, if_neg (by omega)]

/-- Settles O15, cell by cell of the table TWINIT builds. -/
theorem twinitWritesTheTable : Obligations.TwinitWritesTheTable :=
  fun s => ⟨s.twiddled, exec_twinit s, fun _ hm => ⟨twiddled_twAt_even hm, twiddled_twAt_odd hm⟩,
    fun _ => twiddled_find_of_ge, rfl⟩

/-! ## GENWIN (R145, R147) -/

/-- The state after GENWIN (R145). -/
def State.winGenerated (s : State) : State := (s.setWin (winTable s.cfg s.win)).setPh P_START

theorem exec_genwin (s : State) : exec .genwin s = .next s.winGenerated := rfl

/-- The cells below `N` list the nominal window, which the configuration alone gives (R147). -/
theorem winGenerated_find_of_lt {i : Nat} (hi : i < s.len) :
    s.winGenerated.win.find i = some (Cfg.winNomAt s.cfg i) :=
  (find_winTable s.cfg s.win i).trans (if_pos hi)

/-- The cells from `N` on are left alone. -/
theorem winGenerated_find_of_ge {q : Nat} (hq : s.len ≤ q) :
    s.winGenerated.win.find q = s.win.find q :=
  (find_winTable s.cfg s.win q).trans (if_neg hq.not_gt)

/-- Settles O16, cell by cell of the window GENWIN builds. -/
theorem genwinWritesTheWindow : Obligations.GenwinWritesTheWindow :=
  fun s => ⟨s.winGenerated, exec_genwin s, fun _ hi => Memory.get_of_find (winGenerated_find_of_lt hi),
    fun _ => winGenerated_find_of_ge, rfl⟩

/-- Settles O17: below `N` the listed values depend on the configuration alone. -/
theorem windowTableIsIdempotent : Obligations.WindowTableIsIdempotent := by
  intro s s' hcfg
  refine ⟨s.winGenerated, s'.winGenerated, exec_genwin s, exec_genwin s', fun i hi => ?_⟩
  have hi' : i < s'.len := by rwa [State.len, ← hcfg]
  rw [winGenerated_find_of_lt hi, winGenerated_find_of_lt hi', hcfg]

end Sys2Proof.Machine
end

section
/-! NOTIFY and the frame assembly by READ (41_signal_and_frame_assembly.md R160, R161, R166 to R172). -/

namespace Sys2Proof.Machine

variable {s t u : State}

/-! ## NOTIFY (R160, R161) -/

theorem exec_notify (s : State) : exec .notify s = .next (s.setNf true) := rfl

/-- An event sets NF in one step, its move used up. -/
theorem step_event {ms : List Move} (h : s.env.sched = .irq :: ms) :
    step s = .next ((s.setEnv { s.env with sched := ms }).setNf true) := by
  rw [step_irq (nextMove_of_sched h), exec_notify, Env.afterMove, h, List.tail_cons]

/-- Settles O5: an event takes its step wherever the consumer is. -/
theorem notifySetsTheFlagAlone : Obligations.NotifySetsTheFlagAlone := by
  refine fun s => ⟨exec_notify s, fun h => ?_⟩
  obtain ⟨ms, hms⟩ := List.head?_eq_some_iff.1 h
  rw [step_event hms, hms, List.tail_cons]
  rfl

/-- Settles O6, by induction on the number of events: NF is set already when the next one comes. -/
theorem notificationsCoalesce : Obligations.NotificationsCoalesce := by
  intro n
  induction n with
  | zero =>
    intro s rest h
    rw [run_succ (step_event h)]
    rfl
  | succ n ih =>
    intro s rest h
    rw [run_succ (step_event h), ih _ rest rfl]
    rfl

/-! ## READ by the status of its response (R166, R168, R169) -/

/-- The state in which READ takes its response: the request sent, the answer used up. -/
def State.requested (s : State) : State :=
  (s.setEnv s.env.afterRead).send (.rdReq (readMaxLen s))

@[simp] theorem requested_layout (s : State) : s.requested.layout = s.layout := rfl
@[simp] theorem requested_fill (s : State) : s.requested.fill = s.fill := rfl
@[simp] theorem requested_cfg (s : State) : s.requested.cfg = s.cfg := rfl

/-- An accepted Ok response of `k` words is appended word by word. -/
theorem exec_read_ok {k : Nat}
    (hc : readContract s.layout (readMaxLen s) s.env.nextRead = none)
    (hok : s.env.nextRead.status = 0b00#2)
    (hk : s.env.nextRead.count.toNat = s.layout.wordBytes * k) :
    exec .read s =
      .next ((appendWords s.requested (sampleWords s.layout s.env.nextRead.bytes k)).setPh
        (if s.fill + k = s.len then P_WINDOW else P_WAIT)) := by
  have hbody : readBody s.requested s.env.nextRead =
      appendWords s.requested (sampleWords s.layout s.env.nextRead.bytes k) := by
    unfold readBody
    rw [hok, hk, requested_layout, Nat.mul_div_cancel_left k (layout_wordBytes_pos s)]
    rfl
  have hnext : readNext (appendWords s.requested (sampleWords s.layout s.env.nextRead.bytes k)) =
      if s.fill + k = s.len then P_WINDOW else P_WAIT := by
    rw [readNext, State.len, appendWords_fill, appendWords_cfg, sampleWords_length, requested_fill,
      requested_cfg]
  rw [← hnext, ← hbody]
  exact execRead_eq s hc

/-- Every status but Ok has a record (R105, R169). -/
theorem exists_statusRecord {c : BitVec 2} (h : c ≠ 0b00#2) :
    ∃ p, statusRecord (statusOfCode c) = some p := by
  rw [← Option.isSome_iff_exists]
  revert c
  decide

/-- An accepted response with a non-Ok status sets its bit and emits its event (R283 to R285). -/
theorem exec_read_not_ok {bit code : BitVec 4}
    (hc : readContract s.layout (readMaxLen s) s.env.nextRead = none)
    (hst : statusRecord (statusOfCode s.env.nextRead.status) = some (bit, code)) :
    exec .read s =
      .next (((s.requested.setStatBit bit).emit code 0#32).setPh
        (if s.fill = s.len then P_WINDOW else P_WAIT)) := by
  have hbody : readBody s.requested s.env.nextRead =
      (s.requested.setStatBit bit).emit code 0#32 := by
    unfold readBody
    rw [hst]
  refine (execRead_eq s hc).trans ?_
  change Host.Outcome.next ((readBody s.requested s.env.nextRead).setPh
    (readNext (readBody s.requested s.env.nextRead))) = _
  rw [hbody]
  rfl

/-- Settles O23, by the three statuses that have a record. -/
theorem readWithANonOkStatusAppendsNothing : Obligations.ReadWithANonOkStatusAppendsNothing := by
  rintro s r rfl hle hdvd hlen bit code hrow
  have hst : statusRecord (statusOfCode s.env.nextRead.status) = some (bit, code) := by
    simp only [List.mem_cons, List.not_mem_nil, or_false, Prod.mk.injEq] at hrow
    rcases hrow with ⟨h, rfl, rfl⟩ | ⟨h, rfl, rfl⟩ | ⟨h, rfl, rfl⟩ <;> rw [h] <;> rfl
  rw [exec_read_not_ok ((readContract_none_iff _ _ _).2 ⟨hle, hdvd, hlen⟩) hst, State.requested,
    List.append_cons s.out]
  rfl

/-- Settles O25: an Ok response of no words. -/
theorem readOfAnEmptyDeliveryKeepsProgress : Obligations.ReadOfAnEmptyDeliveryKeepsProgress := by
  intro s rest h
  have hr : s.env.nextRead = ⟨0b00#2, 0#32, []⟩ := by rw [Env.nextRead, h, List.headD_cons]
  have hc : readContract s.layout (readMaxLen s) s.env.nextRead = none := by
    rw [readContract_none_iff, hr]
    exact ⟨Nat.zero_le _, Nat.zero_mod _, rfl⟩
  rw [exec_read_ok (k := 0) hc (by rw [hr]) (by rw [hr]; rfl), State.requested, Env.afterRead, h]
  rfl

/-! ## What a list of sample words leaves in STAT and `out` (R170, R286) -/

/-- The report of a sample word of another channel at frame position `p` (R286). -/
def mismatchReport (s : State) (w : Word) (p : Nat) : Option PortMsg :=
  if tagMatches s w then none
  else some (.event evTagMismatch (tagMismatchArg (sampleTag s.layout w) p))

theorem tagMatches_appendWords (s : State) (ws : List Word) (w : Word) :
    tagMatches (appendWords s ws) w ↔ tagMatches s w := by
  rw [tagMatches, appendWords_layout, appendWords_cfg]

theorem mismatchReport_appendWords (s : State) (ws : List Word) (w : Word) (p : Nat) :
    mismatchReport (appendWords s ws) w p = mismatchReport s w p := by
  simp only [mismatchReport, tagMatches_appendWords, appendWords_layout]

theorem appendWord_out (s : State) (w : Word) :
    (appendWord s w).out = s.out ++ (mismatchReport s w s.fill).toList := by
  by_cases h : tagMatches s w
  · rw [appendWord_match s w h, mismatchReport, if_pos h, Option.toList_none, List.append_nil]
  · rw [appendWord_mismatch s w h, mismatchReport, if_neg h, Option.toList_some]

theorem appendWord_stat (s : State) (w : Word) :
    (appendWord s w).stat = if tagMatches s w then s.stat else s.stat ||| statTM := by
  by_cases h : tagMatches s w
  · rw [appendWord_match s w h, if_pos h]
  · rw [appendWord_mismatch s w h, if_neg h, setSticky]

/-- The last word of a response is appended after the others. -/
theorem appendWords_sampleWords_succ (s : State) (l : Layout) (bytes : List Byte) (k : Nat) :
    appendWords s (sampleWords l bytes (k + 1)) =
      appendWord (appendWords s (sampleWords l bytes k)) (sampleWord l bytes k) :=
  appendWords_append s _ [_]

/-- One report per mismatch, in sample order. -/
theorem appendWords_sampleWords_out (s : State) (bytes : List Byte) (k : Nat) :
    (appendWords s (sampleWords s.layout bytes k)).out =
      s.out ++ (List.range k).filterMap
        fun j => mismatchReport s (sampleWord s.layout bytes j) (s.fill + j) := by
  induction k with
  | zero => exact (List.append_nil _).symm
  | succ k ih =>
    rw [appendWords_sampleWords_succ, appendWord_out, ih, mismatchReport_appendWords, appendWords_fill,
      sampleWords_length, List.range_succ, List.filterMap_append, List.append_assoc]
    cases h : mismatchReport s (sampleWord s.layout bytes k) (s.fill + k) <;> simp [h]

/-- `STAT.TM` is set exactly when some word is a mismatch, and is sticky (R36). -/
theorem appendWords_sampleWords_stat (s : State) (bytes : List Byte) (k : Nat) :
    (appendWords s (sampleWords s.layout bytes k)).stat =
      if ∀ j, j < k → tagMatches s (sampleWord s.layout bytes j) then s.stat
      else s.stat ||| statTM := by
  induction k with
  | zero => exact (if_pos fun j hj => absurd hj (Nat.not_lt_zero j)).symm
  | succ k ih =>
    rw [appendWords_sampleWords_succ, appendWord_stat, ih]
    simp only [tagMatches_appendWords, Nat.forall_lt_succ_right]
    by_cases hw : tagMatches s (sampleWord s.layout bytes k)
    · rw [if_pos hw]
      exact if_congr (and_iff_left hw).symm rfl rfl
    · rw [if_neg hw, if_neg (not_and_of_not_right _ hw)]
      split
      · rfl
      · rw [BitVec.or_assoc, BitVec.or_self]

/-! ## FRAME after the words of a response (R166, R170) -/

/-- Position `FILL + j` takes the code of word `j`, or keeps its value if the word is a mismatch. -/
theorem appendWords_sampleWords_find (s : State) (bytes : List Byte) {k j : Nat} (hj : j < k) :
    (appendWords s (sampleWords s.layout bytes k)).frame.find (s.fill + j) =
      if tagMatches s (sampleWord s.layout bytes j)
      then some (sampleCode s.layout (sampleWord s.layout bytes j))
      else s.frame.find (s.fill + j) := by
  rw [appendWords_find, if_pos (Nat.le_add_right _ _), Nat.add_sub_cancel_left,
    sampleWords_getElem?, if_pos hj]

/-- The positions outside `FILL` to `FILL + k - 1` keep their values. -/
theorem appendWords_sampleWords_find_other (s : State) (l : Layout) (bytes : List Byte) {k p : Nat}
    (hp : p < s.fill ∨ s.fill + k ≤ p) :
    (appendWords s (sampleWords l bytes k)).frame.find p = s.frame.find p := by
  have hnone : (if s.fill ≤ p then (sampleWords l bytes k)[p - s.fill]? else none) = none := by
    split
    · rw [sampleWords_getElem?, if_neg (by omega)]
    · rfl
  rw [appendWords_find, hnone]

/-- Settles O22, field by field of the words appended. -/
theorem readAppendsMatchingSamples : Obligations.ReadAppendsMatchingSamples := by
  rintro s r k rfl hok hle hk hlen
  have hc : readContract s.layout (readMaxLen s) s.env.nextRead = none :=
    (readContract_none_iff _ _ _).2 ⟨hle, by rw [hk, Nat.mul_mod_right], hlen⟩
  have hstat := appendWords_sampleWords_stat s.requested s.env.nextRead.bytes k
  refine ⟨_, exec_read_ok hc hok hk, ?fill, fun j hj => appendWords_sampleWords_find s.requested _ hj,
    fun p hp => appendWords_sampleWords_find_other s.requested _ _ hp,
    fun h => hstat.trans (if_pos h), fun ⟨j, hj, hne⟩ => hstat.trans (if_neg fun h => hne (h j hj)),
    ?out, rfl, ?frame⟩
  case fill =>
    rw [State.setPh_fill, appendWords_fill, sampleWords_length, requested_fill]
  case out =>
    exact (appendWords_sampleWords_out s.requested _ k).trans (List.append_assoc _ [_] _)
  case frame =>
    conv_lhs => rw [appendWords_frame, ← appendWords_fill]
    rfl

/-! ## READ after READ (R172) -/

theorem layout_congr (hcfg : t.cfg = s.cfg) : t.layout = s.layout := by
  rw [State.layout, hcfg, State.layout]

/-- FRAME after a list of sample words depends on the configuration, FILL and FRAME alone. -/
theorem appendWords_frame_congr {ws : List Word} (hcfg : t.cfg = s.cfg) (hfill : t.fill = s.fill)
    (hframe : t.frame = s.frame) : (appendWords t ws).frame = (appendWords s ws).frame := by
  induction ws generalizing s t with
  | nil => exact hframe
  | cons w ws ih =>
    have hlay := layout_congr hcfg
    refine ih (by simpa using hcfg) (by simpa using hfill) ?_
    by_cases hw : tagMatches s w
    · have hw' : tagMatches t w := by rwa [tagMatches, hlay, hcfg]
      rw [appendWord_match s w hw, appendWord_match t w hw', hframe, hfill, hlay]
    · have hw' : ¬ tagMatches t w := by rwa [tagMatches, hlay, hcfg]
      rw [appendWord_mismatch s w hw, appendWord_mismatch t w hw']
      exact hframe

/-- The bytes a response adds to the frame's sample sequence: the payload of an Ok response (R169). -/
def RdRsp.delivered (r : RdRsp) : List Byte := if r.status == 0b00#2 then r.bytes else []

/-- From `s` to `t`, the whole words of `bytes` have been appended, within the remaining capacity that
`s` asks for. -/
def Appended (s : State) (bytes : List Byte) (t : State) : Prop :=
  ∃ k, bytes.length = s.layout.wordBytes * k ∧ bytes.length ≤ (readMaxLen s).toNat ∧
    t.cfg = s.cfg ∧ t.fill = s.fill + k ∧
      t.frame = (appendWords s (sampleWords s.layout bytes k)).frame

/-- Nothing is appended where FRAME and FILL stay. -/
theorem appended_nil (hcfg : t.cfg = s.cfg) (hfill : t.fill = s.fill) (hframe : t.frame = s.frame) :
    Appended s [] t :=
  ⟨0, rfl, Nat.zero_le _, hcfg, hfill, hframe⟩

/-- The capacity left after `k` words is the capacity before without their bytes: the 32 bits of the
request cut neither, since the words were within the request. -/
theorem readMaxLen_sub {k : Nat} (hcfg : t.cfg = s.cfg) (hfill : t.fill = s.fill + k)
    (hk : s.layout.wordBytes * k ≤ (readMaxLen s).toNat) :
    (readMaxLen t).toNat = (readMaxLen s).toNat - s.layout.wordBytes * k := by
  have hcap : (t.len - t.fill) * t.layout.wordBytes =
      (s.len - s.fill) * s.layout.wordBytes - s.layout.wordBytes * k := by
    rw [State.len, hcfg, hfill, layout_congr hcfg, Nat.sub_add_eq, Nat.sub_mul, Nat.mul_comm k]
  simp only [readMaxLen, BitVec.toNat_ofNat] at hk ⊢
  rw [hcap]
  omega

/-- Two deliveries one after the other are one delivery of the bytes joined. -/
theorem Appended.append {b b' : List Byte} (h : Appended s b t) (h' : Appended t b' u) :
    Appended s (b ++ b') u := by
  obtain ⟨k, hlen, hle, hcfg, hfill, hframe⟩ := h
  obtain ⟨k', hlen', hle', hcfg', hfill', hframe'⟩ := h'
  rw [layout_congr hcfg] at hlen' hframe'
  rw [readMaxLen_sub hcfg hfill (hlen ▸ hle), ← hlen] at hle'
  refine ⟨k + k', ?_, ?_, hcfg'.trans hcfg, by omega, ?_⟩
  · rw [List.length_append, hlen, hlen', Nat.mul_add]
  · rw [List.length_append]
    omega
  · rw [sampleWords_append _ _ _ _ hlen, appendWords_append, hframe']
    exact appendWords_frame_congr (by rw [hcfg, appendWords_cfg])
      (by rw [hfill, appendWords_fill, sampleWords_length]) hframe

/-- An accepted READ appends what its response delivers. -/
theorem exec_read_appended (h : exec .read s = .next t) : Appended s s.env.nextRead.delivered t := by
  obtain ⟨hc, -⟩ := execRead_next s h
  obtain ⟨hle, hdvd, hlen⟩ := (readContract_none_iff _ _ _).1 hc
  by_cases hok : s.env.nextRead.status = 0b00#2
  · have hk := (Nat.mul_div_cancel' (Nat.dvd_of_mod_eq_zero hdvd)).symm
    rw [exec_read_ok hc hok hk] at h
    cases h
    rw [RdRsp.delivered, if_pos (beq_iff_eq.2 hok)]
    exact ⟨_, hlen.trans hk, hlen.trans_le hle, appendWords_cfg _ _,
      by rw [State.setPh_fill, appendWords_fill, sampleWords_length, requested_fill],
      appendWords_frame_congr rfl rfl rfl⟩
  · obtain ⟨⟨bit, code⟩, hst⟩ := exists_statusRecord hok
    rw [exec_read_not_ok hc hst] at h
    cases h
    rw [RdRsp.delivered, if_neg (mt beq_iff_eq.1 hok)]
    exact appended_nil rfl rfl rfl

/-- READ after READ appends what the responses deliver, joined. -/
theorem execSeq_read_appended {rs : List RdRsp} (hreads : s.env.reads = rs)
    (h : Safety.execSeq (List.replicate rs.length .read) s = .next t) :
    Appended s (rs.flatMap RdRsp.delivered) t := by
  induction rs generalizing s with
  | nil =>
    cases h
    exact appended_nil rfl rfl rfl
  | cons r rs ih =>
    have hr : s.env.nextRead = r := by rw [Env.nextRead, hreads, List.headD_cons]
    rw [List.length_cons, List.replicate_succ, Safety.execSeq] at h
    cases hread : exec .read s with
    | fault x => rw [hread] at h; cases h
    | refused x => rw [hread] at h; cases h
    | next v =>
      rw [hread] at h
      obtain ⟨-, henv, -⟩ := Safety.execRead_progress hread
      have htail : v.env.reads = rs := by rw [henv, Env.afterRead, hreads, List.tail_cons]
      rw [List.flatMap_cons, ← hr]
      exact (exec_read_appended hread).append (ih htail h)

/-- The Ok payloads of a list of responses, joined, are what the responses deliver. -/
theorem flatMap_delivered (rs : List RdRsp) :
    rs.flatMap RdRsp.delivered = (rs.filter (fun r => r.status == 0b00#2)).flatMap RdRsp.bytes := by
  induction rs with
  | nil => rfl
  | cons r rs ih =>
    rw [List.flatMap_cons, ih, RdRsp.delivered, List.filter_cons]
    by_cases hok : (r.status == 0b00#2) = true
    · rw [if_pos hok, if_pos hok, List.flatMap_cons]
    · rw [if_neg hok, if_neg hok, List.nil_append]

/-- What has been appended, one READ of an Ok response can append, whatever else is queued. -/
theorem Appended.single_read {bytes : List Byte} {e : Env} (h : Appended s bytes t)
    (hr : e.nextRead = ⟨0b00#2, BitVec.ofNat 32 bytes.length, bytes⟩) :
    ∃ u, exec .read (s.setEnv e) = .next u ∧ u.frame = t.frame ∧ u.fill = t.fill := by
  obtain ⟨k, hlen, hle, -, hfill, hframe⟩ := h
  have hcount : e.nextRead.count.toNat = bytes.length := by
    rw [hr, BitVec.toNat_ofNat, Nat.mod_eq_of_lt (hle.trans_lt (readMaxLen s).isLt)]
  have hc : readContract s.layout (readMaxLen s) e.nextRead = none :=
    (readContract_none_iff _ _ _).2
      ⟨hcount.trans_le hle, by rw [hcount, hlen, Nat.mul_mod_right], by rw [hcount, hr]⟩
  refine ⟨_, exec_read_ok (s := s.setEnv e) hc (congrArg RdRsp.status hr) (hcount.trans hlen), ?_, ?_⟩
  · rw [hframe, State.setPh_frame, State.setEnv_env, hr]
    exact appendWords_frame_congr rfl rfl rfl
  · rw [hfill, State.setPh_fill, appendWords_fill, sampleWords_length, requested_fill,
      State.setEnv_fill]

/-- Settles O26: the chunks append what the whole appends. -/
theorem frameIsDeterminedByTheSampleSequence :
    Obligations.FrameIsDeterminedByTheSampleSequence := by
  intro s rs t h
  have happ := execSeq_read_appended (s := s.setEnv { s.env with reads := rs }) rfl h
  rw [flatMap_delivered] at happ
  exact happ.single_read (e := { s.env with reads := [_] }) rfl

end Sys2Proof.Machine
end

section
/-! The windowing stage (42_windowing.md R190 to R193). -/

namespace Sys2Proof.Machine

variable {s : State}

/-- Past the pairs the windowed frame is the old CBUF. -/
theorem windowed_find_of_ge {q : Nat} (hq : 2 * s.len ≤ q) :
    s.windowed.cbuf.find q = s.cbuf.find q :=
  (find_windowedFrame s q).trans (if_neg hq.not_gt)

/-- The even cell of a pair holds the real part (R190). -/
theorem windowed_find_even {i : Nat} (hi : i < s.len) :
    s.windowed.cbuf.find (2 * i) = some (windowedSample s i) := by
  have hpair : 2 * i / 2 = i := by omega
  refine (find_windowedFrame s (2 * i)).trans ?_
  rw [if_pos (by omega), if_pos (by omega), hpair]

/-- The odd cell of a pair holds the imaginary part (R193). -/
theorem windowed_find_odd {i : Nat} (hi : i < s.len) :
    s.windowed.cbuf.find (2 * i + 1) = some posZero := by
  refine (find_windowedFrame s (2 * i + 1)).trans ?_
  rw [if_pos (by omega), if_neg (by omega)]

/-- Settles O28, cell by cell of the complex frame; the product's site is the one WINDOW draws from. -/
theorem windowFormsTheComplexFrame : Obligations.WindowFormsTheComplexFrame :=
  fun s => ⟨s.windowed, exec_window s,
    fun _ hi => ⟨⟨_, windowed_find_even hi⟩, windowed_find_odd hi⟩,
    fun _ => windowed_find_of_ge, rfl⟩

end Sys2Proof.Machine
end

section
/-! The transform engine (43_transform.md R200 to R217): the lengths it is defined on, one butterfly, loops
whose passes touch disjoint cells, the butterfly network of FFT, BITREV and UNPACK. -/

namespace Sys2Proof.Machine

variable {s : State}

/-! ## The length (R201) -/

/-- `LOGN` is the exponent of a length that is a power of two (R40). -/
theorem logn_of_len_eq {c : Cfg} {k : Nat} (h : c.len = 2 ^ k) : c.logn = k :=
  (congrArg Nat.log2 h).trans Nat.log2_two_pow

/-- Settles O31: a length that meets the engine's precondition is a power of two of at least 2. -/
theorem engineFaultsOnAnUndefinedLength : Obligations.EngineFaultsOnAnUndefinedLength := by
  intro s hlen
  have hp : ¬ s.cfg.lenPow2 = true := fun hp =>
    hlen ⟨s.logn, (lenPow2_spec hp).2, (lenPow2_spec hp).1⟩
  exact ⟨if_neg hp, if_neg hp, if_neg hp⟩

/-! ## One butterfly (R205) -/

/-- Settles O29: each written cell is the last write to it, since the two elements differ. -/
theorem butterflyComputesBothElements : Obligations.ButterflyComputesBothElements := by
  intro d st c sn a b m hab
  have hfind := find_butterfly d st c sn a b m
  refine ⟨_, rotRe d st c sn b m, rotIm d st c sn b m, rfl, ⟨_, _, _, rfl⟩, ⟨_, _, _, rfl⟩,
    ⟨st 6, ?_⟩, ⟨st 7, ?_⟩, ⟨st 8, ?_⟩, ⟨st 9, ?_⟩, fun q ha hb => ?_⟩
  · rw [hfind, if_neg (by omega), if_neg (by omega), if_neg (by omega), if_pos rfl]
  · rw [hfind, if_neg (by omega), if_neg (by omega), if_pos rfl]
  · rw [hfind, if_neg (by omega), if_pos rfl]
  · rw [hfind, if_pos rfl]
  · rw [hfind, if_neg (by omega), if_neg (by omega), if_neg (by omega), if_neg (by omega)]

/-! ## Loops whose passes touch disjoint cells -/

/-- `f` reads and writes no other cells than `cells`. -/
structure ActsOn (cells : Nat → Prop) (f : Memory 32 → Memory 32) : Prop where
  frame : ∀ m q, ¬ cells q → (f m).find q = m.find q
  congr : ∀ m m', (∀ q, cells q → m.find q = m'.find q) →
    ∀ q, cells q → (f m).find q = (f m').find q

section Passes

variable {n : Nat} {body : Nat → Memory 32 → Memory 32} {cells : Nat → Nat → Prop}
  (hact : ∀ i, i < n → ActsOn (cells i) (body i))
include hact

/-- A cell of no pass keeps its value. -/
theorem find_forUp_of_no_pass {q : Nat} (hq : ∀ i, i < n → ¬ cells i q) (m : Memory 32) :
    (forUp n body m).find q = m.find q :=
  forUp_keeps (fun y => y.find q = m.find q) rfl
    fun i y hi hy => ((hact i hi).frame y q (hq i hi)).trans hy

variable (hdisj : ∀ i i' q, i < n → i' < n → cells i q → cells i' q → i = i')
include hdisj

/-- A cell of pass `i` ends as that pass alone leaves it, whatever the order of the passes. -/
theorem find_forUp_of_pass {i q : Nat} (hi : i < n) (hq : cells i q) (m : Memory 32) :
    (forUp n body m).find q = (body i m).find q := by
  induction n with
  | zero => omega
  | succ n ih =>
    have hact' : ∀ i, i < n → ActsOn (cells i) (body i) := fun i hi => hact i (by omega)
    rcases Nat.lt_succ_iff_lt_or_eq.1 hi with hlt | rfl
    · have hlast : ¬ cells n q := fun hn => hlt.ne (hdisj i n q hi (by omega) hq hn)
      exact ((hact n (by omega)).frame _ q hlast).trans
        (ih hact' (fun i i' q hi hi' => hdisj i i' q (by omega) (by omega)) hlt)
    · refine (hact i hi).congr _ _ (fun r hr => find_forUp_of_no_pass hact' ?_ m) q hq
      exact fun i' hi' hr' => hi'.ne (hdisj i' i r (by omega) hi hr' hr)

/-- The loop touches the cells of its passes. -/
theorem actsOn_forUp : ActsOn (fun q => ∃ i, i < n ∧ cells i q) (forUp n body) where
  frame m _ hq := find_forUp_of_no_pass hact (fun i hi hc => hq ⟨i, hi, hc⟩) m
  congr m m' h q := by
    rintro ⟨i, hi, hq⟩
    rw [find_forUp_of_pass hact hdisj hi hq, find_forUp_of_pass hact hdisj hi hq]
    exact (hact i hi).congr m m' (fun r hr => h r ⟨i, hi, hr⟩) q hq

end Passes

/-- A butterfly touches the cells of its two elements (R205). -/
theorem actsOn_butterfly (d : Nat → Word) (st : Nat → Site) (c sn : Word) (a b : Nat) :
    ActsOn (fun q => q / 2 = a ∨ q / 2 = b) (butterfly d st c sn a b) where
  frame m q hq := by
    rw [find_butterfly, if_neg (by omega), if_neg (by omega), if_neg (by omega), if_neg (by omega)]
  congr m m' h q hq := by
    have hget (r : Nat) (hr : r / 2 = a ∨ r / 2 = b) : m.get d r = m'.get d r :=
      Memory.get_congr (h r hr)
    have hre : rotRe d st c sn b m = rotRe d st c sn b m' := by
      rw [rotRe, rotRe, hget (2 * b) (by omega), hget (2 * b + 1) (by omega)]
    have him : rotIm d st c sn b m = rotIm d st c sn b m' := by
      rw [rotIm, rotIm, hget (2 * b) (by omega), hget (2 * b + 1) (by omega)]
    rw [find_butterfly, find_butterfly, hre, him, hget (2 * a) (by omega),
      hget (2 * a + 1) (by omega), h q hq]

/-- A butterfly writes every cell of its two elements. -/
theorem find_butterfly_of_elem {d : Nat → Word} {st : Nat → Site} {c sn : Word} {a b q : Nat}
    {m : Memory 32} (hq : q / 2 = a ∨ q / 2 = b) : ∃ v, (butterfly d st c sn a b m).find q = some v := by
  rw [find_butterfly]
  iterate 4
    split
    · exact ⟨_, rfl⟩
  omega

/-! ## The butterfly network (R204, R206) -/

/-- The upper element of butterfly `i` in group `j` (R204). -/
def fftElem (n stage j i : Nat) : Nat := j * 2 * fftSpan n stage + i

/-- Cell `q` belongs to one of the two elements of butterfly `i` in group `j`. -/
def FftCell (n stage j i q : Nat) : Prop :=
  q / 2 = fftElem n stage j i ∨ q / 2 = fftElem n stage j i + fftSpan n stage

/-- Butterfly `i` of group `j`, with the group's table pair (R204, R206). -/
def fftButterfly (d tw : Nat → Word) (draw logn n stage j i : Nat) : Memory 32 → Memory 32 :=
  butterfly d (fun k => ⟨draw, stage, fftElem n stage j i, k⟩) (tw (2 * fftPair logn j))
    (tw (2 * fftPair logn j + 1)) (fftElem n stage j i) (fftElem n stage j i + fftSpan n stage)

section Network

variable (d tw : Nat → Word) (draw logn n stage : Nat)

theorem actsOn_fftButterfly (j i : Nat) :
    ActsOn (FftCell n stage j i) (fftButterfly d tw draw logn n stage j i) :=
  actsOn_butterfly ..

variable {n stage}

/-- The butterflies of a group touch different cells. -/
theorem fftCell_butterfly_unique {j i i' q : Nat} (hi : i < fftSpan n stage) (hi' : i' < fftSpan n stage)
    (h : FftCell n stage j i q) (h' : FftCell n stage j i' q) : i = i' := by
  unfold FftCell at h h'
  unfold fftElem at h h'
  omega

/-- The cells of group `j` are those of its `2h` elements. -/
theorem group_of_fftCell {j i q : Nat} (hi : i < fftSpan n stage) (h : FftCell n stage j i q) :
    q / 2 / (2 * fftSpan n stage) = j := by
  have hnext : (j + 1) * (2 * fftSpan n stage) = j * 2 * fftSpan n stage + 2 * fftSpan n stage := by
    ring
  have hfirst : j * (2 * fftSpan n stage) = j * 2 * fftSpan n stage := by ring
  unfold FftCell at h
  unfold fftElem at h
  exact Nat.div_eq_of_lt_le (by omega) (by omega)

/-- A group touches the cells of its butterflies. -/
theorem actsOn_fftGroup (j : Nat) :
    ActsOn (fun q => ∃ i, i < fftSpan n stage ∧ FftCell n stage j i q)
      (fftGroup d tw draw logn n stage j) :=
  actsOn_forUp (fun i _ => actsOn_fftButterfly d tw draw logn n stage j i)
    fun _ _ _ => fftCell_butterfly_unique

/-- A stage leaves each cell as the one butterfly it belongs to leaves it (R204). -/
theorem find_fftStage {j i q : Nat} (hj : j < 2 ^ stage) (hi : i < fftSpan n stage)
    (hq : FftCell n stage j i q) (m : Memory 32) :
    (fftStage d tw draw logn n stage m).find q =
      (fftButterfly d tw draw logn n stage j i m).find q := by
  have hgroup : (fftStage d tw draw logn n stage m).find q =
      (fftGroup d tw draw logn n stage j m).find q :=
    find_forUp_of_pass (fun j _ => actsOn_fftGroup d tw draw logn j)
      (fun _ _ _ _ _ ⟨_, hi, hc⟩ ⟨_, hi', hc'⟩ =>
        (group_of_fftCell hi hc).symm.trans (group_of_fftCell hi' hc'))
      (by rwa [Nat.one_shiftLeft]) ⟨i, hi, hq⟩ m
  exact hgroup.trans (find_forUp_of_pass
    (fun i _ => actsOn_fftButterfly d tw draw logn n stage j i)
    (fun _ _ _ => fftCell_butterfly_unique) hi hq m)

/-- The last stage writes every cell of the buffer: its butterflies pair neighbouring elements. -/
theorem last_fftStage_full (m : Memory 32) :
    (fftStage d tw draw logn (2 ^ (stage + 1)) stage m).full (2 * 2 ^ (stage + 1)) := by
  intro q hq
  have hspan : fftSpan (2 ^ (stage + 1)) stage = 1 := by
    rw [fftSpan_pow (Nat.lt_succ_self stage), Nat.succ_sub_one, Nat.sub_self, pow_zero]
  have hcell : FftCell (2 ^ (stage + 1)) stage (q / 2 / 2) 0 q := by
    unfold FftCell fftElem
    rw [hspan]
    omega
  rw [find_fftStage d tw draw logn (by omega) (by omega) hcell]
  exact find_butterfly_of_elem hcell

end Network

/-- CBUF before stage `stage` of FFT, and after the last stage at `stage = LOGN` (R204). -/
def State.fftBuffer (s : State) (stage : Nat) : Memory 32 :=
  forUp stage (fftStage (Config.unwrittenWord s.launch .cbuf) s.twAt s.draws s.logn s.len) s.cbuf

/-- Cell `q` of that buffer. -/
def State.fftCellAt (s : State) (stage q : Nat) : Word :=
  (s.fftBuffer stage).get (Config.unwrittenWord s.launch .cbuf) q

theorem fftBuffer_succ (s : State) (stage : Nat) : s.fftBuffer (stage + 1) =
    fftStage (Config.unwrittenWord s.launch .cbuf) s.twAt s.draws s.logn s.len stage
      (s.fftBuffer stage) := rfl

theorem transformed_cbuf (s : State) : s.transformed.cbuf = s.fftBuffer s.logn := rfl

theorem fftCellAt_zero (s : State) (q : Nat) : s.fftCellAt 0 q = s.cbufAt q := rfl

/-- FFT leaves the cells that its last stage leaves. -/
theorem transformed_find_of_lt (h : s.cfg.lenPow2 = true) {q : Nat} (hq : q < 2 * s.len) :
    s.transformed.cbuf.find q = some (s.fftCellAt s.logn q) := by
  obtain ⟨hlen, hlogn⟩ : s.len = 2 ^ s.logn ∧ 1 ≤ s.logn := lenPow2_spec h
  obtain ⟨stage, hstage⟩ : ∃ stage, s.logn = stage + 1 := ⟨s.logn - 1, by omega⟩
  have hfull := last_fftStage_full (stage := stage) (Config.unwrittenWord s.launch .cbuf) s.twAt
    s.draws s.logn (s.fftBuffer stage)
  rw [← hstage, ← hlen, ← fftBuffer_succ, ← hstage, ← transformed_cbuf] at hfull
  obtain ⟨v, hv⟩ := hfull q hq
  exact hv.trans (congrArg some (Memory.get_of_find hv).symm)

/-- FFT leaves the cells past the buffer alone. -/
theorem transformed_find_of_ge (h : s.cfg.lenPow2 = true) {q : Nat} (hq : 2 * s.len ≤ q) :
    s.transformed.cbuf.find q = s.cbuf.find q :=
  fftCbuf_keeps_of_lenPow2 (P := fun m => m.find q = s.cbuf.find q) h
    (fun m _ v hi hm => (m.find_write_other v (by omega)).trans hm) rfl

/-- A cell after a stage is what its one butterfly makes of the cells before the stage. -/
theorem fftCellAt_succ {stage j i q : Nat} {v : Word} (hj : j < 2 ^ stage) (hi : i < fftSpan s.len stage)
    (hq : FftCell s.len stage j i q)
    (hv : (fftButterfly (Config.unwrittenWord s.launch .cbuf) s.twAt s.draws s.logn s.len stage j i
      (s.fftBuffer stage)).find q = some v) :
    s.fftCellAt (stage + 1) q = v :=
  Memory.get_of_find ((find_fftStage _ _ _ _ hj hi hq _).trans hv)

/-- Settles O30: every cell of a stage comes from one butterfly, and that butterfly computes what O29
says of the stage before. -/
theorem fftIsItsButterflyNetwork : Obligations.FftIsItsButterflyNetwork := by
  intro s k hlen hk
  have hp : s.cfg.lenPow2 = true := lenPow2_of_len_eq hlen hk
  obtain rfl : s.logn = k := logn_of_len_eq hlen
  refine ⟨s.transformed, exec_fft hp,
    ⟨s.fftCellAt, fun q hq => ⟨fftCellAt_zero s q, transformed_find_of_lt hp hq⟩, ?_⟩,
    fun q hq => transformed_find_of_ge hp hq, rfl⟩
  intro stage _ j hj i hi h a b m hh ha hb hm
  rw [← Nat.shiftRight_eq_div_pow] at hi hh
  obtain rfl : h = fftSpan s.len stage := hh
  obtain rfl : a = fftElem s.len stage j i := ha
  obtain rfl : m = fftPair s.logn j := hm
  have hspan : 0 < fftSpan s.len stage := Nat.zero_lt_of_lt hi
  subst hb
  obtain ⟨_, reT, imT, rfl, hre, him, ⟨s6, h6⟩, ⟨s7, h7⟩, ⟨s8, h8⟩, ⟨s9, h9⟩, -⟩ :=
    butterflyComputesBothElements (Config.unwrittenWord s.launch .cbuf)
      (fun n => ⟨s.draws, stage, fftElem s.len stage j i, n⟩) (s.twAt (2 * fftPair s.logn j))
      (s.twAt (2 * fftPair s.logn j + 1)) (fftElem s.len stage j i)
      (fftElem s.len stage j i + fftSpan s.len stage)
      (s.fftBuffer stage) (by omega)
  exact ⟨reT, imT, hre, him,
    ⟨s6, fftCellAt_succ hj hi (.inr (by omega)) h6⟩,
    ⟨s7, fftCellAt_succ hj hi (.inr (by omega)) h7⟩,
    ⟨s8, fftCellAt_succ hj hi (.inl (by omega)) h8⟩,
    ⟨s9, fftCellAt_succ hj hi (.inl (by omega)) h9⟩⟩

/-! ## BITREV (R210) -/

/-- BITREV lists both parts of element `e` as those of element `brev e`. -/
theorem bitreversed_find_of_lt {q : Nat} (hq : q < 2 * s.len) :
    s.bitreversed.cbuf.find q = some (s.cbufAt (2 * brev s.logn (q / 2) + q % 2)) := by
  refine (find_bitrevCbuf s.cbufAt s.logn s.len s.cbuf q).trans ?_
  rw [if_pos hq]
  rcases Nat.mod_two_eq_zero_or_one q with h | h <;> simp [h]

theorem bitreversed_find_of_ge {q : Nat} (hq : 2 * s.len ≤ q) :
    s.bitreversed.cbuf.find q = s.cbuf.find q :=
  (find_bitrevCbuf s.cbufAt s.logn s.len s.cbuf q).trans (if_neg hq.not_gt)

/-- Settles O32, at the even and the odd cell of each element. -/
theorem bitrevPermutesTheElements : Obligations.BitrevPermutesTheElements := by
  intro s k hlen hk
  obtain rfl : s.logn = k := logn_of_len_eq hlen
  refine ⟨s.bitreversed, exec_bitrev (lenPow2_of_len_eq hlen hk), fun e he => ⟨?_, ?_⟩,
    fun q => bitreversed_find_of_ge, rfl⟩
  · rw [bitreversed_find_of_lt (by omega), Nat.mul_mod_right, Nat.mul_div_cancel_left e two_pos,
      Nat.add_zero]
  · have hdiv : (2 * e + 1) / 2 = e := by omega
    rw [bitreversed_find_of_lt (by omega), hdiv, Nat.mul_add_mod]

/-! ## UNPACK (R216) -/

section Unpack

variable (hn : 2 ≤ s.len)
include hn

theorem unpacked_find_zero : s.unpacked.cbuf.find 0 = some (s.cbufAt 0) := by
  refine (find_unpackCbuf s.cbufAt s.draws s.len hn s.cbuf 0).trans ?_
  rw [if_neg (by omega), if_neg (by omega), if_neg (by omega), if_pos rfl]

theorem unpacked_find_one : s.unpacked.cbuf.find 1 = some posZero := by
  refine (find_unpackCbuf s.cbufAt s.draws s.len hn s.cbuf 1).trans ?_
  rw [if_neg (by omega), if_neg (by omega), if_pos rfl]

/-- The real part of a bin above 0 is the sum with its mirror's. -/
theorem unpacked_find_even {e : Nat} (h1 : 1 ≤ e) (he : e ≤ s.len / 2 - 1) :
    s.unpacked.cbuf.find (2 * e) =
      some (fadd ⟨s.draws, 0, e, 0⟩ (s.cbufAt (2 * e)) (s.cbufAt (2 * (s.len - e)))) := by
  have hdiv : 2 * e / 2 = e := by omega
  refine (find_unpackCbuf s.cbufAt s.draws s.len hn s.cbuf (2 * e)).trans ?_
  rw [if_neg (by omega), if_pos (by omega), if_pos (by omega), hdiv]

/-- The imaginary part of a bin above 0 is the difference to its mirror's. -/
theorem unpacked_find_odd {e : Nat} (h1 : 1 ≤ e) (he : e ≤ s.len / 2 - 1) :
    s.unpacked.cbuf.find (2 * e + 1) =
      some (fsub ⟨s.draws, 0, e, 1⟩ (s.cbufAt (2 * e + 1)) (s.cbufAt (2 * (s.len - e) + 1))) := by
  have hdiv : (2 * e + 1) / 2 = e := by omega
  refine (find_unpackCbuf s.cbufAt s.draws s.len hn s.cbuf (2 * e + 1)).trans ?_
  rw [if_neg (by omega), if_pos (by omega), if_neg (by omega), hdiv]

theorem unpacked_find_of_ge {q : Nat} (hq : 2 * s.len ≤ q) :
    s.unpacked.cbuf.find q = s.cbuf.find q := by
  refine (find_unpackCbuf s.cbufAt s.draws s.len hn s.cbuf q).trans ?_
  rw [if_neg (by omega), if_neg (by omega), if_neg (by omega), if_neg (by omega)]

end Unpack

/-- Settles O34, cell by cell of the lower half. -/
theorem unpackFormsTheOneSidedSpectrum : Obligations.UnpackFormsTheOneSidedSpectrum := by
  intro s k hlen hk
  have hp : s.cfg.lenPow2 = true := lenPow2_of_len_eq hlen hk
  have hn : 2 ≤ s.len := two_le_len hp
  exact ⟨s.unpacked, exec_unpack hp, unpacked_find_zero hn, unpacked_find_one hn,
    fun e h1 he => ⟨⟨_, unpacked_find_even hn h1 he⟩, ⟨_, unpacked_find_odd hn h1 he⟩⟩,
    fun q => unpacked_find_of_ge hn, rfl⟩

/-! ## The gains of UNPACK (R217) -/

/-- The infinity's magnitude counts as 2^128. -/
theorem magUnits_infMag : magUnits infMag = 2 ^ 23 * 2 ^ 254 :=
  magUnits_eq 254 (2 ^ 23) (by decide) (.inr le_rfl)

/-- The size of a value, from its low 31 bits. -/
theorem abs_toRat (w : Word) : |toRat w| = (magUnits (w.toNat % 2 ^ 31) : ℚ) / 2 ^ 149 := by
  rw [toRat_eq, abs_div, abs_mul, abs_of_nonneg (by positivity : (0 : ℚ) ≤ 2 ^ 149), Nat.abs_cast]
  cases signBit w <;> simp

/-- Twice the units of a pattern are those of another: the significand a bit to the left, or the next
exponent. -/
theorem exists_magUnits_eq_two_mul (p : Nat) : ∃ p', magUnits p' = 2 * magUnits p := by
  obtain ⟨j, g, rfl, hg, h⟩ := mag_split p
  rw [magUnits_eq j g hg.le h]
  by_cases hlow : g < 2 ^ 23
  · obtain rfl : j = 0 := by omega
    refine ⟨0 * 2 ^ 23 + 2 * g, ?_⟩
    rw [magUnits_eq 0 (2 * g) (by omega) (.inl rfl)]
    ring
  · refine ⟨(j + 1) * 2 ^ 23 + g, ?_⟩
    rw [magUnits_eq (j + 1) g hg.le (.inr (by omega))]
    ring

/-- The double of a value below 2^127 in size is representable. -/
theorem exists_toRat_eq_two_mul {w : Word} (hlt : |toRat w| < 2 ^ 127) :
    ∃ v, isFinite v = true ∧ toRat v = 2 * toRat w := by
  obtain ⟨p, hp⟩ := exists_magUnits_eq_two_mul (w.toNat % 2 ^ 31)
  have hunits : magUnits (w.toNat % 2 ^ 31) < 2 ^ 127 * 2 ^ 149 := by
    rw [abs_toRat, div_lt_iff₀ (by positivity)] at hlt
    exact_mod_cast hlt
  have hpinf : p < infMag := by
    rw [← magUnits_strictMono.lt_iff_lt, magUnits_infMag, hp]
    omega
  have hp31 : p < 2 ^ 31 := hpinf.trans (by decide)
  refine ⟨ofSignMag (signBit w) p, (isFinite_iff _).2 (by rwa [ofSignMag_mod _ hp31]), ?_⟩
  rw [toRat_ofSignMag _ hp31, hp, toRat_eq]
  push_cast
  ring

/-- A finite value lies below the point from which rounding overflows. -/
theorem abs_toRat_lt_of_isFinite {v : Word} (hv : isFinite v = true) :
    |toRat v| < 2 ^ 128 - 2 ^ 103 := by
  have hmax : magUnits (253 * 2 ^ 23 + 0xFFFFFF) = 0xFFFFFF * 2 ^ 253 :=
    magUnits_eq 253 0xFFFFFF (by decide) (.inr (by decide))
  have hle : magUnits (v.toNat % 2 ^ 31) ≤ 0xFFFFFF * 2 ^ 253 := by
    have hfin : v.toNat % 2 ^ 31 < 255 * 2 ^ 23 := (isFinite_iff v).1 hv
    rw [← hmax]
    exact magUnits_strictMono.monotone (by omega)
  have hleQ : (magUnits (v.toNat % 2 ^ 31) : ℚ) ≤ 0xFFFFFF * 2 ^ 253 := by exact_mod_cast hle
  rw [abs_toRat, div_lt_iff₀ (by positivity)]
  exact hleQ.trans_lt (by norm_num)

/-- A representable result is exact. -/
theorem RoundedOnce.eq {w v : Word} (h : RoundedOnce ((toRat v : ℚ) : ℝ) w) (hv : isFinite v = true) :
    toRat w = toRat v :=
  (h.1 (by exact_mod_cast abs_toRat_lt_of_isFinite hv)).eq hv

/-- Doubling a finite value below 2^127 in size is exact. -/
theorem toRat_of_roundedOnce_two_mul {x : ℚ} {w r : Word} (hx : x = 2 * toRat w)
    (hlt : |toRat w| < 2 ^ 127) (h : RoundedOnce (x : ℝ) r) :
    toRat r = Config.unpackGain * toRat w := by
  obtain ⟨v, hv, hval⟩ := exists_toRat_eq_two_mul hlt
  rw [hx, ← hval] at h
  exact (h.eq hv).trans hval

/-- Settles O35: the mirror of a real bin adds the same value again, and the double is representable. -/
theorem unpackDoublesARealBin : Obligations.UnpackDoublesARealBin := by
  intro s k e hlen h1 he hre him hltre hltim hfre hfim
  have hk : 1 ≤ k := Nat.pos_of_ne_zero (by rintro rfl; omega)
  have hp : s.cfg.lenPow2 = true := lenPow2_of_len_eq hlen hk
  have hn : 2 ≤ s.len := two_le_len hp
  have hsum := (sumsAreRoundedOnce ⟨s.draws, 0, e, 0⟩ _ _ hfre hfre).1
  have hdiff := (sumsAreRoundedOnce ⟨s.draws, 0, e, 1⟩ _ _ hfim ((isFinite_negate _).trans hfim)).2
  rw [toRat_negate] at hdiff
  have heven : s.unpacked.cbufAt (2 * e) =
      fadd ⟨s.draws, 0, e, 0⟩ (s.cbufAt (2 * e)) (s.cbufAt (2 * e)) := by
    rw [State.cbufAt, Memory.get_of_find (unpacked_find_even hn h1 he), hre]
  have hodd : s.unpacked.cbufAt (2 * e + 1) =
      fsub ⟨s.draws, 0, e, 1⟩ (s.cbufAt (2 * e + 1)) (negate (s.cbufAt (2 * e + 1))) := by
    rw [State.cbufAt, Memory.get_of_find (unpacked_find_odd hn h1 he), him]
  have hzero : s.unpacked.cbufAt 0 = s.cbufAt 0 := Memory.get_of_find (unpacked_find_zero hn)
  refine ⟨s.unpacked, exec_unpack hp, ?_, ?_, ?_⟩
  · rw [heven]
    exact toRat_of_roundedOnce_two_mul (by ring) hltre hsum
  · rw [hodd]
    exact toRat_of_roundedOnce_two_mul (by ring) hltim hdiff
  · rw [hzero, Config.unpackGainZero, Nat.cast_one, one_mul]

end Sys2Proof.Machine
end

section
/-! The Spectrum Reducer (44_reducer.md R230 to R239): the magnitudes MAG writes and their sign, the cells it
reads, the bins SUPPRESS clears, and the zero spectrum of a silent frame. -/

namespace Sys2Proof.Machine

variable {s : State}

/-! ## MAG (R231, R232) -/

theorem reduced_find (s : State) (q : Nat) :
    s.reduced.spec.find q = if q < s.len / 2 then some (magnitude s q) else s.spec.find q :=
  find_forUp_write_zero (magnitude s) s.spec _ q

/-- Settles O36: the loop of MAG writes cell `i` in pass `i`; each primitive has a site of its own. -/
theorem magComputesTheMagnitudes : Obligations.MagComputesTheMagnitudes :=
  fun s => ⟨s.reduced, exec_mag s,
    fun i hi => ⟨_, _, _, _, _, (reduced_find s i).trans (if_pos hi)⟩,
    fun q hq => (reduced_find s q).trans (if_neg hq.not_gt), rfl⟩

/-- Loops whose passes agree give the same result. -/
theorem forUp_congr {σ : Type} {n : Nat} {f g : Nat → σ → σ} (h : ∀ i, i < n → f i = g i) (x : σ) :
    forUp n f x = forUp n g x := by
  induction n with
  | zero => rfl
  | succ n ih => rw [forUp, forUp, h n n.lt_succ_self, ih fun i hi => h i (by omega)]

/-- A magnitude depends on the two cells of its element (R231). -/
theorem magnitude_setCbuf {m : Memory 32} {i : Nat} (hre : m.find (2 * i) = s.cbuf.find (2 * i))
    (him : m.find (2 * i + 1) = s.cbuf.find (2 * i + 1)) :
    magnitude (s.setCbuf m) i = magnitude s i := by
  have hcre : (s.setCbuf m).cbufAt (2 * i) = s.cbufAt (2 * i) := Memory.get_congr hre
  have hcim : (s.setCbuf m).cbufAt (2 * i + 1) = s.cbufAt (2 * i + 1) := Memory.get_congr him
  unfold magnitude
  rw [hcre, hcim, State.setCbuf_draws, State.setCbuf_len]

/-- Settles O38: the elements of the bins below `N/2` lie in the first `N` cells. -/
theorem upperHalfIsNeverRead : Obligations.UpperHalfIsNeverRead := by
  intro s m hm
  refine ⟨s.reduced, (s.setCbuf m).reduced, exec_mag s, exec_mag _, forUp_congr (fun i hi => ?_) s.spec⟩
  have hi' : i < s.len / 2 := hi
  have hmag : magnitude (s.setCbuf m) i = magnitude s i :=
    magnitude_setCbuf (hm _ (by omega)) (hm _ (by omega))
  funext spec
  exact congrArg (spec.write i) hmag.symm

/-! ## The sign of a magnitude (R231) -/

section Signs

variable (st : Site) {a b : Word}

theorem signBit_fadd_of_not_isNaN (hsa : signBit a = false) (hsb : signBit b = false)
    (h : isNaN (fadd st a b) = false) : signBit (fadd st a b) = false := by
  obtain ⟨ha, hb⟩ := operands_not_isNaN st (fadd_of_isNaN st) h
  rcases isInf_or_isFinite ha with hia | hfa
  · rcases isInf_or_isFinite hb with hib | hfb
    · rwa [fadd_of_isInf_of_signBit_eq st hia hib (hsa.trans hsb.symm)]
    · rwa [fadd_of_isInf_of_isFinite st hia hfb]
  · rcases isInf_or_isFinite hb with hib | hfb
    · rwa [fadd_of_isFinite_of_isInf st hfa hib]
    · exact signBit_fadd_eq_false st hfa hfb hsa hsb

theorem signBit_fsqrt (hs : signBit a = false) (ha : isNaN a = false) :
    signBit (fsqrt st a) = false := by
  cases hz : isZero a with
  | true => rwa [fsqrt_of_isZero st hz]
  | false =>
    rcases isInf_or_isFinite ha with hia | hfa
    · rwa [fsqrt_of_isInf st hia hs]
    · rw [fsqrt_of_isFinite st hfa hz hs, signBit_roundWord]

/-- A root that is no NaN has an operand that is none. -/
theorem fsqrt_operand_not_isNaN (h : isNaN (fsqrt st a) = false) : isNaN a = false := by
  by_contra ha
  rw [fsqrt_of_isNaN st (Bool.eq_true_of_not_eq_false ha), isNaN_nanWord] at h
  cases h

theorem signBit_square (h : isNaN (fmul st a a) = false) : signBit (fmul st a a) = false :=
  (signBit_fmul st h).trans (Bool.xor_self _)

end Signs

/-- A NaN anywhere in the five roundings ends in a NaN; otherwise each keeps sign bit 0 (R231). -/
theorem signBit_magnitude {i : Nat} (h : isNaN (magnitude s i) = false) :
    signBit (magnitude s i) = false := by
  have hroot := (operands_not_isNaN _ (fdiv_of_isNaN _) h).1
  have hsum := fsqrt_operand_not_isNaN _ hroot
  obtain ⟨hsqre, hsqim⟩ := operands_not_isNaN _ (fadd_of_isNaN _) hsum
  have hsign := signBit_fsqrt ⟨s.draws, 0, i, 3⟩
    (signBit_fadd_of_not_isNaN _ (signBit_square _ hsqre) (signBit_square _ hsqim) hsum) hsum
  refine (signBit_fdiv _ h).trans ?_
  rw [hsign, u2f, signBit_roundWord, Bool.xor_self]

/-- Settles O37: a SPEC cell below `N/2` is a magnitude, and those have sign bit 0 or are NaNs. -/
theorem magnitudesAreNeverNegative : Obligations.MagnitudesAreNeverNegative := by
  refine fun s => ⟨s.reduced, exec_mag s, fun i hi => ?_⟩
  rw [reduced_specAt hi]
  exact signBit_magnitude

/-! ## SUPPRESS (R236, R237) -/

/-- The state after SUPPRESS (R236). -/
def State.lowBinsCleared (s : State) : State :=
  (s.setSpec (forUp (suppressLimit s.cfg) (fun i m => m.write i posZero) s.spec)).setPh P_RENDER

theorem exec_suppress (s : State) : exec .suppress s = .next s.lowBinsCleared := rfl

theorem lowBinsCleared_find (s : State) (q : Nat) : s.lowBinsCleared.spec.find q =
    if q < suppressLimit s.cfg then some posZero else s.spec.find q :=
  find_forUp_write_zero (fun _ => posZero) s.spec _ q

theorem lowBinsCleared_specAt (s : State) (q : Nat) : s.lowBinsCleared.specAt q =
    if q < suppressLimit s.cfg then posZero else s.specAt q := by
  by_cases hq : q < suppressLimit s.cfg
  · rw [if_pos hq]
    exact Memory.get_of_find ((lowBinsCleared_find s q).trans (if_pos hq))
  · rw [if_neg hq]
    exact Memory.get_congr ((lowBinsCleared_find s q).trans (if_neg hq))

/-- Settles O39: the loop bound is the smaller of `K` and `N/2`. -/
theorem suppressZeroesTheLowBins : Obligations.SuppressZeroesTheLowBins :=
  fun s => ⟨s.lowBinsCleared, exec_suppress s,
    fun i hk hn => (lowBinsCleared_find s i).trans (if_pos (lt_min hk hn)),
    fun q hq => (lowBinsCleared_find s q).trans (if_neg hq.not_gt), rfl⟩

/-! ## Zeros through the primitives (R21) -/

section Zeros

variable (st : Site) {a b : Word}

theorem isZero_zeroWord (t : Bool) : isZero (zeroWord t) = true := by cases t <;> decide

theorem signif_of_isZero (h : isZero a = true) : signif a = 0 := by
  rw [eq_zeroWord h]
  cases signBit a <;> decide

/-- A zero factor gives the zero of the product's sign. -/
theorem fmul_of_isZero (ha : isFinite a = true) (hb : isFinite b = true)
    (h : isZero a = true ∨ isZero b = true) :
    fmul st a b = zeroWord (xor (signBit a) (signBit b)) := by
  have hsig : signif a * signif b = 0 := Nat.mul_eq_zero.2 (h.imp signif_of_isZero signif_of_isZero)
  rw [fmul_of_isFinite st ha hb, hsig]
  rfl

theorem isZero_fmul_right (ha : isFinite a = true) (hb : isZero b = true) :
    isZero (fmul st a b) = true := by
  rw [fmul_of_isZero st ha (isFinite_of_isZero hb) (.inr hb)]
  exact isZero_zeroWord _

theorem fmul_self_of_isZero (h : isZero a = true) : fmul st a a = posZero := by
  rw [fmul_of_isZero st (isFinite_of_isZero h) (isFinite_of_isZero h) (.inl h), Bool.xor_self]
  rfl

theorem fadd_of_isZero (ha : isZero a = true) (hb : isZero b = true) :
    fadd st a b = zeroWord (signBit a && signBit b) :=
  fadd_of_toRat_add_eq_zero st (isFinite_of_isZero ha) (isFinite_of_isZero hb)
    (by rw [(toRat_eq_zero_iff a).2 ha, (toRat_eq_zero_iff b).2 hb, add_zero])

theorem isZero_fadd (ha : isZero a = true) (hb : isZero b = true) : isZero (fadd st a b) = true := by
  rw [fadd_of_isZero st ha hb]
  exact isZero_zeroWord _

theorem isZero_fsub (ha : isZero a = true) (hb : isZero b = true) : isZero (fsub st a b) = true :=
  isZero_fadd st ha ((isZero_negate b).trans hb)

/-- A zero divided by a number gives the zero of the quotient's sign. -/
theorem fdiv_zero_left (ha : isZero a = true) (hb : isFinite b = true) (hz : isZero b = false) :
    fdiv st a b = zeroWord (xor (signBit a) (signBit b)) := by
  rw [fdiv_of_isFinite st (isFinite_of_isZero ha) hb hz, signif_of_isZero ha, Nat.zero_mul,
    Nat.zero_div]
  rfl

end Zeros

/-! ## The length as a binary32 value (R231) -/

/-- A power of two converts exactly, also above 2^24. -/
theorem u2f_two_pow {k : Nat} (hk : k ≤ 127) :
    isFinite (u2f (2 ^ k)) = true ∧ toRat (u2f (2 ^ k)) = 2 ^ k := by
  obtain ⟨v, hf, hv⟩ := exists_toRat_eq_two_pow hk
  have hround : RoundedOnce ((toRat v : ℚ) : ℝ) (u2f (2 ^ k)) := by
    have h := roundWord_exact false (2 ^ k) 600
    rw [if_neg Bool.false_ne_true, one_mul, mul_div_assoc, div_self (by positivity), mul_one] at h
    rw [hv]
    exact_mod_cast h
  exact ⟨(hround.1 (by exact_mod_cast abs_toRat_lt_of_isFinite hf)).1, (hround.eq hf).trans hv⟩

theorem isZero_u2f_two_pow {k : Nat} (hk : k ≤ 127) : isZero (u2f (2 ^ k)) = false := by
  rw [Bool.eq_false_iff, ne_eq, ← toRat_eq_zero_iff, (u2f_two_pow hk).2]
  positivity

/-- The exponent of a length that is a power of two is below 32 (R40). -/
theorem exponent_lt_of_len_eq {c : Cfg} {k : Nat} (h : c.len = 2 ^ k) : k < 32 :=
  (Nat.pow_lt_pow_iff_right one_lt_two).1 (h ▸ c.n.isLt)

/-! ## Zeros through WINDOW, FFT, BITREV, UNPACK and MAG (R190, R204, R210, R216, R231) -/

/-- Every CBUF cell below `n` is a zero, of either sign (93 U29). -/
def State.CbufZero (s : State) (n : Nat) : Prop := ∀ q, q < n → isZero (s.cbufAt q) = true

theorem windowedSample_of_silent {i : Nat} (hf : s.frameAt i = 0#12)
    (hw : isFinite (s.winAt i) = true) : windowedSample s i = zeroWord (signBit (s.winAt i)) := by
  have hu : u2f (s.frameAt i).toNat = zeroWord false := by
    rw [hf]
    rfl
  rw [windowedSample, hu, fmul_of_isZero _ (isFinite_zeroWord _) hw (.inl (isZero_zeroWord _)),
    signBit_zeroWord, Bool.false_xor]

theorem windowed_cbufZero (hf : ∀ i, i < s.len → s.frameAt i = 0#12)
    (hw : ∀ i, i < s.len → isFinite (s.winAt i) = true) : s.windowed.CbufZero (2 * s.len) := by
  intro q hq
  rw [windowed_cbufAt hq]
  split
  · rw [windowedSample_of_silent (hf _ (by omega)) (hw _ (by omega))]
    exact isZero_zeroWord _
  · rfl

/-- Every cell below `n` reads as a zero, of either sign. -/
def ZeroBelow (d : Nat → Word) (n : Nat) (m : Memory 32) : Prop :=
  ∀ q, q < n → isZero (m.get d q) = true

/-- A butterfly with a finite rotation keeps a buffer of zeros. -/
theorem butterfly_keeps_zeros {d : Nat → Word} {st : Nat → Site} {c sn : Word} {a b n : Nat}
    {m : Memory 32} (hc : isFinite c = true) (hsn : isFinite sn = true) (ha : a < n) (hb : b < n)
    (hm : ZeroBelow d (2 * n) m) : ZeroBelow d (2 * n) (butterfly d st c sn a b m) := by
  have hprod {i q : Nat} {x : Word} (hx : isFinite x = true) (hq : q < 2 * n) :
      isZero (fmul (st i) x (m.get d q)) = true := isZero_fmul_right _ hx (hm q hq)
  have hre : isZero (rotRe d st c sn b m) = true :=
    isZero_fadd _ (hprod hc (by omega)) (hprod hsn (by omega))
  have him : isZero (rotIm d st c sn b m) = true :=
    isZero_fsub _ (hprod hc (by omega)) (hprod hsn (by omega))
  intro q hq
  rw [get_butterfly]
  split
  · exact isZero_fadd _ (hm _ (by omega)) him
  split
  · exact isZero_fadd _ (hm _ (by omega)) hre
  split
  · exact isZero_fsub _ (hm _ (by omega)) him
  split
  · exact isZero_fsub _ (hm _ (by omega)) hre
  · exact hm q hq

/-- FFT with finite twiddles keeps a buffer of zeros: every butterfly does. -/
theorem fftCbuf_keeps_zeros {d tw : Nat → Word} {logn : Nat} {m : Memory 32} (draw : Nat)
    (htw : ∀ q, q < 2 ^ logn → isFinite (tw q) = true)
    (hm : ZeroBelow d (2 * 2 ^ logn) m) :
    ZeroBelow d (2 * 2 ^ logn) (fftCbuf d tw draw logn (2 ^ logn) m) := by
  refine forUp_keeps (ZeroBelow d (2 * 2 ^ logn)) hm fun stage m hs hm => ?_
  refine forUp_keeps (ZeroBelow d (2 * 2 ^ logn)) hm fun j m hj hm => ?_
  refine forUp_keeps (ZeroBelow d (2 * 2 ^ logn)) hm fun i m hi hm => ?_
  have hj' : j < 2 ^ stage := by rwa [Nat.one_shiftLeft] at hj
  have hlt := fft_index_lt hs hj' hi
  have hcell := fftPair_cell_lt j (Nat.zero_lt_of_lt hs)
  exact butterfly_keeps_zeros (htw _ (by omega)) (htw _ hcell) (by omega) hlt hm

theorem transformed_cbufZero (hn : s.len = 2 ^ s.logn)
    (htw : ∀ q, q < s.len → isFinite (s.twAt q) = true) (hs : s.CbufZero (2 * s.len)) :
    s.transformed.CbufZero (2 * s.len) := by
  have hfft := fftCbuf_keeps_zeros (d := Config.unwrittenWord s.launch .cbuf) (tw := s.twAt)
    (logn := s.logn) (m := s.cbuf) s.draws (fun q hq => htw q (by rwa [hn]))
    (fun q hq => hs q (by rwa [hn]))
  rwa [← hn] at hfft

theorem bitreversed_cbufZero (hn : s.len = 2 ^ s.logn) (hs : s.CbufZero (2 * s.len)) :
    s.bitreversed.CbufZero (2 * s.len) := by
  intro q hq
  rw [bitreversed_cbufAt_of_lt hq]
  exact hs _ (hn ▸ two_mul_brev_add_lt q)

theorem unpacked_cbufZero (hp : s.cfg.lenPow2 = true) (hs : s.CbufZero (2 * s.len)) :
    s.unpacked.CbufZero s.len := by
  intro q hq
  rw [unpacked_cbufAt (two_le_len hp) (two_mul_half_len hp) hq]
  split
  · exact hs _ (by omega)
  split
  · rfl
  split
  · exact isZero_fadd _ (hs _ (by omega)) (hs _ (by omega))
  · exact isZero_fsub _ (hs _ (by omega)) (hs _ (by omega))

/-- The squares of zeros of either sign are +0.0, and so is all that MAG computes from them (R238). -/
theorem magnitude_of_isZero {k i : Nat} (hlen : s.len = 2 ^ k)
    (hre : isZero (s.cbufAt (2 * i)) = true) (him : isZero (s.cbufAt (2 * i + 1)) = true) :
    magnitude s i = posZero := by
  have hk : k ≤ 127 := by
    have hlt := exponent_lt_of_len_eq hlen
    omega
  have hz : isZero posZero = true := rfl
  rw [magnitude, fmul_self_of_isZero _ hre, fmul_self_of_isZero _ him, fadd_of_isZero _ hz hz,
    fsqrt_of_isZero _ (isZero_zeroWord _), hlen,
    fdiv_zero_left _ (isZero_zeroWord _) (u2f_two_pow hk).1 (isZero_u2f_two_pow hk), u2f,
    signBit_roundWord, signBit_zeroWord]
  rfl

/-- Settles O44: a zero times a finite table value is a zero, a sum of zeros is a zero, and squaring
forgets the sign. -/
theorem silentFrameGivesAZeroSpectrum : Obligations.SilentFrameGivesAZeroSpectrum := by
  intro s k hlen hk hframe hwin htw
  have hp : s.cfg.lenPow2 = true := lenPow2_of_len_eq hlen hk
  have hn : s.len = 2 ^ s.logn := (lenPow2_spec hp).1
  have h1 : s.windowed.CbufZero (2 * s.len) := windowed_cbufZero hframe hwin
  have h2 : s.windowed.transformed.CbufZero (2 * s.len) :=
    transformed_cbufZero (s := s.windowed) hn htw h1
  have h3 : s.windowed.transformed.bitreversed.CbufZero (2 * s.len) :=
    bitreversed_cbufZero (s := s.windowed.transformed) hn h2
  have h4 : s.windowed.transformed.bitreversed.unpacked.CbufZero s.len :=
    unpacked_cbufZero (s := s.windowed.transformed.bitreversed) hp h3
  have hre {i : Nat} (hi : i < s.len) :
      s.windowed.cbufAt (2 * i) = zeroWord (signBit (s.winAt i)) :=
    (Memory.get_of_find (windowed_find_even hi)).trans
      (windowedSample_of_silent (hframe i hi) (hwin i hi))
  have him {i : Nat} (hi : i < s.len) : s.windowed.cbufAt (2 * i + 1) = posZero :=
    Memory.get_of_find (windowed_find_odd hi)
  refine ⟨_, _, _, _, _, _, exec_window s, exec_fft hp, exec_bitrev hp, exec_unpack hp, exec_mag _,
    exec_suppress _, fun i hi => ⟨hre hi, him hi⟩, fun hsign q hq => ?_,
    fun q hq => ⟨h1 q hq, h2 q hq⟩, h4, fun i hi => ?_⟩
  · have hi : q / 2 < s.len := by omega
    rcases Nat.mod_two_eq_zero_or_one q with h | h
    · rw [show q = 2 * (q / 2) by omega, hre hi, hsign _ hi]
      rfl
    · rw [show q = 2 * (q / 2) + 1 by omega]
      exact him hi
  · have hmag : s.windowed.transformed.bitreversed.unpacked.reduced.specAt i = posZero :=
      (reduced_specAt (s := s.windowed.transformed.bitreversed.unpacked) hi).trans
        (magnitude_of_isZero hlen (h4 _ (by omega)) (h4 _ (by omega)))
    refine ⟨hmag, (lowBinsCleared_specAt _ i).trans ?_⟩
    split
    · rfl
    · exact hmag

end Sys2Proof.Machine
end

section
/-! The Pipeline Driver (45_driver.md R246 to R255): YIELD, the successor table, and the eight steps from a
complete frame to the iteration boundary. -/

namespace Sys2Proof.Machine

variable {i : Instr} {s t : State}

/-! ## RENDER and YIELD (R246, R248) -/

/-- The state after a RENDER whose message is accepted (R246). -/
def State.displayed (s : State) : State :=
  ((s.setEnv s.env.afterRender).send (.rndr (renderMessage s))).setPh P_YIELD

/-- The state after YIELD (R248). -/
def State.yielded (s : State) : State := (s.send .yieldEvt).setPh P_WAIT

theorem exec_yield (s : State) : exec .yield s = .next s.yielded := rfl

/-- Settles O41: YIELD writes PH and the list of messages. -/
theorem yieldPulsesOnce : Obligations.YieldPulsesOnce := exec_yield

/-! ## The successor table (R251) -/

/-- Settles O42: in each row the phase selects one operation, and what that operation can do says where PH
goes. -/
theorem successorTable : Obligations.SuccessorTable := by
  intro s t hm h
  rw [step_consumer hm] at h
  have runs {p : Phase} (hp : s.ph = p) :
      exec (decodePhase p) (s.setEnv s.env.afterMove) = .next t := hp ▸ h
  have row {p q : Phase} {u : State} (hp : s.ph = p)
      (hu : exec (decodePhase p) (s.setEnv s.env.afterMove) = .next u) (hq : u.ph = q) : t.ph = q := by
    cases (runs hp).symm.trans hu
    exact hq
  refine ⟨fun hp => ?cfgchk, fun hp => row hp (exec_twinit _) rfl, fun hp => row hp (exec_genwin _) rfl,
    fun hp ha => ?started, fun hp ha => ?refused, fun hp hnf => row hp (exec_wait_notified hnf) rfl,
    fun hp => ?read, fun hp => row hp (exec_window _) rfl, fun hp => ?fft, fun hp => ?bitrev,
    fun hp => ?unpack, fun hp => row hp (exec_mag _) rfl, fun hp => row hp (exec_suppress _) rfl,
    fun hp ha => row hp (exec_render_accepted ha) rfl, fun hp => row hp (exec_yield _) rfl,
    fun hp => row hp rfl hp, fun hp => row hp rfl hp⟩
  case cfgchk =>
    split
    · exact row hp (exec_cfgchk_legal ‹_›) rfl
    · exact row hp (exec_cfgchk_illegal ‹_›) rfl
  case started =>
    obtain ⟨rest, hs⟩ := List.head?_eq_some_iff.1 ha
    exact row hp (exec_start_accepted hs) rfl
  case refused =>
    obtain ⟨rest, hs⟩ := List.head?_eq_some_iff.1 ha
    exact row hp (exec_start_refused hs) rfl
  case read =>
    obtain ⟨-, rfl⟩ := execRead_next _ (runs hp)
    rfl
  case fft =>
    obtain ⟨-, rfl⟩ := execFft_next (runs hp)
    rfl
  case bitrev =>
    obtain ⟨-, rfl⟩ := execBitrev_next (runs hp)
    rfl
  case unpack =>
    obtain ⟨-, rfl⟩ := execUnpack_next (runs hp)
    rfl

/-! ## The consumer alone (R14, log 1) -/

/-- An empty schedule moves the consumer. -/
theorem nextMove_of_sched_nil {e : Env} (h : e.sched = []) : e.nextMove = .consumer := by
  rw [Env.nextMove, h, List.headD_nil]

/-- An empty schedule stays empty: the consumer's step is its operation alone. -/
theorem step_of_sched_nil (h : s.env.sched = []) : step s = exec (decodePhase s.ph) s := by
  have hafter : s.env.afterMove = s.env := by rw [Env.afterMove, h, List.tail_nil, ← h]
  rw [step_consumer (nextMove_of_sched_nil h), hafter]
  rfl

/-- With an empty schedule a run goes on by the operation of PH. -/
theorem run_exec {k : Nat} (h : s.env.sched = []) (hd : decodePhase s.ph = i)
    (he : exec i s = .next t) : Host.Core.run core (k + 1) s = Host.Core.run core k t :=
  run_succ ((step_of_sched_nil h).trans (hd ▸ he))

/-! ## The message of a written spectrum (R109, R236) -/

/-- After MAG and SUPPRESS every bin is written. -/
theorem lowBinsCleared_spec_full (s : State) :
    s.reduced.lowBinsCleared.spec.full (s.reduced.lowBinsCleared.len / 2) :=
  forUp_keeps (Memory.full · (s.len / 2)) (Memory.full_of_find (reduced_find s) fun _ => rfl)
    fun _ _ _ hm => Memory.full_write _ hm

theorem renderMessage_magnitudes_length (s : State) :
    (renderMessage s).magnitudes.length = s.len / 2 := by
  simp [renderMessage, specCells_eq_map]

theorem renderMessage_length_toNat (s : State) : (renderMessage s).length.toNat = s.len / 2 := by
  have hlt : s.len / 2 < 2 ^ 32 := (Nat.div_le_self _ _).trans_lt s.cfg.n.isLt
  exact Nat.mod_eq_of_lt hlt

/-- The message lists a bin that is written as SPEC does. -/
theorem renderMessage_magnitudes_getElem? {s : State} (hs : s.spec.full (s.len / 2)) {q : Nat}
    (hq : q < s.len / 2) : (renderMessage s).magnitudes[q]? = s.spec.find q := by
  obtain ⟨v, hv⟩ := hs q hq
  have hat : s.specAt q = v := Memory.get_of_find hv
  simp [renderMessage, specCells_eq_map, hq, hat, hv]

/-! ## What an iteration writes (R190 to R237, R246, R248) -/

/-- `t` differs from `s` in PH, CBUF, SPEC and the number of draws at most. -/
def State.WritesBuffers (s t : State) : Prop :=
  ∃ ph cbuf spec draws, t = { s with ph := ph, cbuf := cbuf, spec := spec, draws := draws }

theorem State.WritesBuffers.trans {u : State} (h : s.WritesBuffers t) (h' : t.WritesBuffers u) :
    s.WritesBuffers u := by
  obtain ⟨_, _, _, _, rfl⟩ := h
  obtain ⟨ph, cbuf, spec, draws, rfl⟩ := h'
  exact ⟨ph, cbuf, spec, draws, rfl⟩

theorem windowed_writesBuffers (s : State) : (s.setFill 0).WritesBuffers s.windowed :=
  ⟨_, _, _, _, rfl⟩

theorem transformed_writesBuffers (s : State) : s.WritesBuffers s.transformed := ⟨_, _, _, _, rfl⟩

theorem bitreversed_writesBuffers (s : State) : s.WritesBuffers s.bitreversed := ⟨_, _, _, _, rfl⟩

theorem unpacked_writesBuffers (s : State) : s.WritesBuffers s.unpacked := ⟨_, _, _, _, rfl⟩

theorem reduced_writesBuffers (s : State) : s.WritesBuffers s.reduced := ⟨_, _, _, _, rfl⟩

theorem lowBinsCleared_writesBuffers (s : State) : s.WritesBuffers s.lowBinsCleared :=
  ⟨_, _, _, _, rfl⟩

/-- The state in which RENDER finds the spectrum of the frame: after WINDOW, FFT, BITREV, UNPACK, MAG and
SUPPRESS. -/
def State.analysed (s : State) : State :=
  s.windowed.transformed.bitreversed.unpacked.reduced.lowBinsCleared

/-- The six operations consume the frame (R192) and write nothing else but the two buffers. -/
theorem analysed_writesBuffers (s : State) : (s.setFill 0).WritesBuffers s.analysed :=
  (windowed_writesBuffers s).trans <| (transformed_writesBuffers _).trans <|
    (bitreversed_writesBuffers _).trans <| (unpacked_writesBuffers _).trans <|
      (reduced_writesBuffers _).trans (lowBinsCleared_writesBuffers _)

/-- Every bin is written (R231), and those below `min(K, N/2)` are +0.0 (R236). -/
theorem analysed_spec (s : State) : s.analysed.spec.full (s.analysed.len / 2) ∧
    ∀ q, q < suppressLimit s.analysed.cfg → s.analysed.spec.find q = some posZero :=
  ⟨lowBinsCleared_spec_full _, fun q hq => (lowBinsCleared_find _ q).trans (if_pos hq)⟩

/-- The operations before RENDER leave the configuration and the environment. -/
theorem State.WritesBuffers.cfg_env (h : (s.setFill 0).WritesBuffers t) :
    t.cfg = s.cfg ∧ t.env = s.env := by
  obtain ⟨_, _, _, _, rfl⟩ := h
  exact ⟨rfl, rfl⟩

/-- The state after YIELD, when the operations before RENDER wrote the two buffers alone. -/
theorem State.WritesBuffers.displayed_yielded (h : (s.setFill 0).WritesBuffers t) :
    t.displayed.yielded = { s with
      ph := P_WAIT, fill := 0, cbuf := t.displayed.yielded.cbuf, spec := t.displayed.yielded.spec
      out := t.displayed.yielded.out, draws := t.displayed.yielded.draws, env := s.env.afterRender } := by
  obtain ⟨_, _, _, _, rfl⟩ := h
  rfl

/-- RENDER and YIELD send one message each. -/
theorem State.WritesBuffers.displayed_yielded_out (h : (s.setFill 0).WritesBuffers t) :
    t.displayed.yielded.out = s.out ++ [.rndr (renderMessage t), .yieldEvt] := by
  obtain ⟨_, _, _, _, rfl⟩ := h
  exact List.append_assoc ..

/-! ## One iteration from a complete frame (R254, R255) -/

/-- The six operations from a complete frame to RENDER (R251). -/
theorem run_analysed {k : Nat} (hph : s.ph = P_WINDOW) (hlen : s.cfg.lenPow2 = true)
    (hsched : s.env.sched = []) :
    Host.Core.run core (k + 6) s = Host.Core.run core k s.analysed := by
  calc Host.Core.run core (k + 6) s
      = Host.Core.run core (k + 5) s.windowed :=
        run_exec hsched (congrArg decodePhase hph) (exec_window s)
    _ = Host.Core.run core (k + 4) s.windowed.transformed :=
        run_exec hsched rfl (exec_fft hlen)
    _ = Host.Core.run core (k + 3) s.windowed.transformed.bitreversed :=
        run_exec hsched rfl (exec_bitrev hlen)
    _ = Host.Core.run core (k + 2) s.windowed.transformed.bitreversed.unpacked :=
        run_exec hsched rfl (exec_unpack hlen)
    _ = Host.Core.run core (k + 1) s.windowed.transformed.bitreversed.unpacked.reduced :=
        run_exec hsched rfl (exec_mag _)
    _ = Host.Core.run core k s.analysed :=
        run_exec hsched rfl (exec_suppress _)

/-- RENDER's step, once the renderer accepts (R246, R247). -/
theorem step_render_displayed (hph : s.ph = P_RENDER) (hsched : s.env.sched = [])
    (hacc : s.env.rendererAccepts = true) : step s = .next s.displayed := by
  rw [step_of_sched_nil hsched, hph]
  exact exec_render_accepted hacc

/-- Settles O43: six operations form the spectrum, RENDER sends it, and YIELD makes the boundary. -/
theorem iterationReachesItsBoundary : Obligations.IterationReachesItsBoundary := by
  intro s hph hlegal hcause hsched hacc
  have hwrites : (s.setFill 0).WritesBuffers s.analysed := analysed_writesBuffers s
  have hrun (k : Nat) : Host.Core.run core (k + 6) s = Host.Core.run core k s.analysed :=
    run_analysed hph (lenPow2_of_lengthLegal hlegal) hsched
  have hrender : s.analysed.ph = P_RENDER := rfl
  obtain ⟨hfull, hzero⟩ := analysed_spec s
  -- from here on only these facts about the analysed state are used, not its six operations
  generalize s.analysed = r at hwrites hrun hrender hfull hzero
  obtain ⟨hcfg, henv⟩ := hwrites.cfg_env
  rw [← henv] at hsched hacc
  have hdisplayed : step r = .next r.displayed := step_render_displayed hrender hsched hacc
  have hyield : step r.displayed = .next r.displayed.yielded :=
    step_of_sched_nil (s := r.displayed) hsched
  have hlen : r.len = s.len := congrArg Cfg.len hcfg
  have hmsg (q : Nat) (hq : q < s.len / 2) : (renderMessage r).magnitudes[q]? = r.spec.find q :=
    renderMessage_magnitudes_getElem? hfull (hlen ▸ hq)
  refine ⟨r.displayed, r.displayed.yielded, renderMessage r, (hrun 1).trans (run_succ hdisplayed),
    ⟨nextMove_of_sched_nil hsched, rfl, hyield⟩,
    (hrun 2).trans ((run_succ hdisplayed).trans (run_succ hyield)), ?registers,
    hwrites.displayed_yielded_out, hlen ▸ renderMessage_length_toNat r,
    hlen ▸ renderMessage_magnitudes_length r, fun q hk hq => ?zeros, hmsg, hwrites.displayed_yielded⟩
  case registers =>
    rw [hwrites.displayed_yielded]
    simp [Safety.boundaryRegisters, hcause]
  case zeros =>
    rw [hmsg q hq]
    exact hzero q (hcfg ▸ lt_min hk hq)

end Sys2Proof.Machine
end

section
/-! Progress (45_driver.md R253; 60_exceptions.md R271): where the consumer waits, where initialisation
ends, and that a step of a state that meets the invariant is answered. -/

namespace Sys2Proof.Machine

variable {i : Instr} {s : State} {e : Env}

/-! ## A schedule that leaves a move out (R14, log 1) -/

/-- The next move is among the first moves of the schedule, unless the consumer moves. -/
theorem nextMove_ne_of_not_mem_take {m : Move} {k : Nat} (hm : m ≠ .consumer)
    (h : m ∉ e.sched.take (k + 1)) : e.nextMove ≠ m := by
  rintro rfl
  cases hs : e.sched with
  | nil => exact hm (nextMove_of_sched_nil hs)
  | cons m' ms =>
    rw [nextMove_of_sched hs, hs, List.take_succ_cons] at h
    exact h List.mem_cons_self

/-- A move left out stays out once the first move is used up. -/
theorem not_mem_take_afterMove {m : Move} {k : Nat} (h : m ∉ e.sched.take (k + 1)) :
    m ∉ e.afterMove.sched.take k := by
  have htail : (e.sched.take (k + 1)).tail = e.afterMove.sched.take k :=
    List.tail_take_eq_take_tail ..
  rw [← htail]
  exact fun hm => h (List.mem_of_mem_tail hm)

/-! ## The blocked consumer (R164) -/

/-- With neither an event nor a reset, a step of the blocked consumer uses up its move alone. -/
theorem step_blocked (hph : s.ph = P_WAIT) (hnf : s.nf = false) (hirq : s.env.nextMove ≠ .irq)
    (hreset : s.env.nextMove ≠ .reset) : step s = .next (s.setEnv s.env.afterMove) := by
  cases hm : s.env.nextMove with
  | consumer =>
    rw [step_consumer hm, hph]
    exact exec_wait_blocked (s := s.setEnv s.env.afterMove) hnf
  | irq => exact absurd hm hirq
  | reset => exact absurd hm hreset
  | idle => exact step_idle hm

/-- Settles O8, by induction on the number of moves. -/
theorem blockedWaitChangesNothing : Obligations.BlockedWaitChangesNothing := by
  intro k
  induction k with
  | zero =>
    intro s _ _ _ _
    rfl
  | succ k ih =>
    intro s hph hnf hirq hreset
    have hstep : step s = .next (s.setEnv s.env.afterMove) :=
      step_blocked hph hnf (nextMove_ne_of_not_mem_take (by decide) hirq)
        (nextMove_ne_of_not_mem_take (by decide) hreset)
    have hrest := ih (s.setEnv s.env.afterMove) hph hnf (not_mem_take_afterMove hirq)
      (not_mem_take_afterMove hreset)
    rw [run_succ hstep, hrest, ← List.drop_tail]
    rfl

/-! ## From reset to the run loop (R140, R281, R319) -/

/-- With an empty schedule the halted state holds for any number of steps (R149). -/
theorem run_halted (hph : s.ph = P_HALT) (hsched : s.env.sched = []) (k : Nat) :
    Host.Core.run core k s = .next s := by
  induction k with
  | zero => rfl
  | succ k ih => exact (run_exec hsched (congrArg decodePhase hph) rfl).trans ih

/-- The state in which START finds the tables: after CFGCHK on a legal length, TWINIT and GENWIN. -/
def State.tablesBuilt (s : State) : State := (s.setPh P_TWINIT).twiddled.winGenerated

/-- The three operations from reset to START (R251). -/
theorem run_tablesBuilt {k : Nat} (hph : s.ph = P_CFGCHK) (hlegal : s.cfg.lengthLegal = true)
    (hsched : s.env.sched = []) :
    Host.Core.run core (k + 3) s = Host.Core.run core k s.tablesBuilt := by
  calc Host.Core.run core (k + 3) s
      = Host.Core.run core (k + 2) (s.setPh P_TWINIT) :=
        run_exec hsched (congrArg decodePhase hph) (exec_cfgchk_legal hlegal)
    _ = Host.Core.run core (k + 1) (s.setPh P_TWINIT).twiddled :=
        run_exec hsched rfl (exec_twinit _)
    _ = Host.Core.run core k s.tablesBuilt :=
        run_exec hsched rfl (exec_genwin _)

theorem tablesBuilt_win_find {j : Nat} (hj : j < s.len) :
    s.tablesBuilt.win.find j = some (Cfg.winNomAt s.cfg j) :=
  winGenerated_find_of_lt (s := (s.setPh P_TWINIT).twiddled) hj

/-- What TWINIT lists in the two cells of a pair (R143). -/
theorem twiddled_find_pair {m : Nat} (hm : m < s.len / 2) :
    s.twiddled.tw.find (2 * m) = some (Cfg.twNomAt s.cfg m).1 ∧
      s.twiddled.tw.find (2 * m + 1) = some (Cfg.twNomAt s.cfg m).2 := by
  have heven : 2 * m / 2 = m := by omega
  have hodd : (2 * m + 1) / 2 = m := by omega
  constructor
  · rw [twiddled_find, if_pos (by omega), if_pos (by omega), heven]
  · rw [twiddled_find, if_pos (by omega), if_neg (by omega), hodd]

theorem tablesBuilt_tw_find {m : Nat} (hm : m < s.len / 2) :
    s.tablesBuilt.tw.find (2 * m) = some (Cfg.twNomAt s.cfg m).1 ∧
      s.tablesBuilt.tw.find (2 * m + 1) = some (Cfg.twNomAt s.cfg m).2 :=
  twiddled_find_pair (s := s.setPh P_TWINIT) hm

/-- An answered START writes PH, CAUSE, the queue of answers and `out` alone (R148). -/
theorem exec_start_answered {r : BitVec 1} {rest : List (BitVec 1)} (h : s.env.starts = r :: rest) :
    ∃ t, exec .start s = .next t ∧
      t = { s with ph := t.ph, cause := t.cause, env := t.env, out := t.out } ∧
      (r = 0#1 → t.ph = P_WAIT ∧ t.cause = s.cause ∧ t.out = s.out ++ [startRequest s.cfg]) ∧
      (r = 1#1 → t.ph = P_HALT ∧ t.cause = 2#2 ∧
        t.out = s.out ++ [startRequest s.cfg, .event evFatal 2#32]) := by
  obtain ⟨haccepted, hrefused, -⟩ := startFollowsTheAnswer s rest
  rcases BitVec.eq_zero_or_eq_one r with rfl | rfl
  · exact ⟨_, haccepted h, rfl, fun _ => ⟨rfl, rfl, rfl⟩, fun h1 => absurd h1 (by decide)⟩
  · exact ⟨_, hrefused h, rfl, fun h0 => absurd h0 (by decide), fun _ => ⟨rfl, rfl, rfl⟩⟩

/-- Settles O19: an illegal length halts in the first step, and a legal one leads through both tables to
START's answer. -/
theorem initialisationReachesTheRunLoop : Obligations.InitialisationReachesTheRunLoop := by
  intro c e out launch r rest hsched hstarts
  cases hlegal : c.lengthLegal with
  | false =>
    have hcheck : exec .cfgchk (State.launched c e out launch) =
        .next (raiseFatal .invalidLength (State.launched c e out launch)) :=
      exec_cfgchk_illegal (Bool.eq_false_iff.1 hlegal)
    have hrun : Host.Core.run core 4 (State.launched c e out launch) =
        .next (raiseFatal .invalidLength (State.launched c e out launch)) :=
      (run_exec (s := State.launched c e out launch) hsched rfl hcheck).trans (run_halted rfl hsched 3)
    exact ⟨_, hrun, rfl, rfl, rfl, rfl,
      fun _ => ⟨rfl, rfl, rfl, rfl, rfl⟩, fun h => absurd h (by decide)⟩
  | true =>
    obtain ⟨t, hstart, ht, haccepted, hrefused⟩ :=
      exec_start_answered (s := (State.launched c e out launch).tablesBuilt) hstarts
    have hrun : Host.Core.run core 4 (State.launched c e out launch) = .next t :=
      (run_tablesBuilt (k := 1) rfl hlegal hsched).trans (run_exec hsched rfl hstart)
    have hwin : t.win = (State.launched c e out launch).tablesBuilt.win := by rw [ht]
    have htw : t.tw = (State.launched c e out launch).tablesBuilt.tw := by rw [ht]
    refine ⟨t, hrun, congrArg State.nf ht, congrArg State.fill ht, congrArg State.stat ht,
      congrArg State.cfg ht, fun h => absurd h (by decide),
      fun _ => ⟨fun i hi => ?win, fun m hm => ?tw, haccepted, hrefused⟩⟩
    case win =>
      rw [hwin]
      exact tablesBuilt_win_find hi
    case tw =>
      rw [htw]
      exact tablesBuilt_tw_find hm

/-! ## Which steps are answered (R167, R253, R271) -/

/-- READ refuses a response that breaks the contract, by the clause that is broken (R167). -/
theorem exec_read_refused {r : Refusal}
    (h : readContract s.layout (readMaxLen s) s.env.nextRead = some r) :
    exec .read s = .refused r := by
  change execRead s = _
  simp only [execRead, h]

/-- An operation whose phase is ready for it is answered, but for READ: the length is legal where the
transform engine runs (R141, R201). -/
theorem exec_answered (hready : State.ReadyFor i s) (hread : i ≠ .read) :
    ∃ t, exec i s = .next t := by
  cases i with
  | twinit | genwin | window | mag | suppress | yield | halt => exact ⟨_, rfl⟩
  | rsvd14 | notify => exact hready.elim
  | read => exact absurd rfl hread
  | cfgchk =>
    by_cases h : s.cfg.lengthLegal = true
    · exact ⟨_, exec_cfgchk_legal h⟩
    · exact ⟨_, exec_cfgchk_illegal h⟩
  | start =>
    cases h : s.env.starts with
    | nil => exact ⟨_, exec_start_unanswered h⟩
    | cons r rest =>
      obtain ⟨t, ht, -⟩ := exec_start_answered h
      exact ⟨t, ht⟩
  | wait =>
    cases h : s.nf with
    | true => exact ⟨_, exec_wait_notified h⟩
    | false => exact ⟨_, exec_wait_blocked h⟩
  | fft | bitrev | unpack =>
    obtain ⟨-, ⟨-, hlegal, -⟩, -⟩ := hready
    exact ⟨_, if_pos (lenPow2_of_lengthLegal hlegal)⟩
  | render =>
    cases h : s.env.rendererAccepts with
    | true => exact ⟨_, exec_render_accepted h⟩
    | false => exact ⟨_, exec_render_busy h⟩

/-- Settles O53: each move but the consumer's READ is answered, and READ exactly when the response keeps
the contract. -/
theorem onlyABrokenContractStopsAReachableState :
    Obligations.OnlyABrokenContractStopsAReachableState := by
  intro s hinv
  cases hm : s.env.nextMove with
  | irq => exact .inl ⟨_, step_irq hm⟩
  | reset => exact .inl ⟨_, step_reset hm⟩
  | idle => exact .inl ⟨_, step_idle hm⟩
  | consumer =>
    rw [step_consumer hm]
    by_cases hd : decodePhase s.ph = .read
    · rw [hd]
      cases hc : readContract s.layout (readMaxLen s) s.env.nextRead with
      | none => exact .inl ⟨_, execRead_eq (s.setEnv s.env.afterMove) hc⟩
      | some r =>
        exact .inr ⟨rfl, phase_of_decodePhase hd rfl, r, rfl,
          exec_read_refused (s := s.setEnv s.env.afterMove) hc⟩
    · exact .inl (exec_answered (readyFor_of_inv (inv_setEnv s.env.afterMove hinv) :) hd)

end Sys2Proof.Machine
end

section
/-! Reset and the state only reset leaves (70_reset_and_hazards.md R310, R311), the responses READ refuses
(41_signal_and_frame_assembly.md R167), and the operation words (30_encoding.md R100 to R104). -/

namespace Sys2Proof.Machine

variable {s : State} {e : Env}

/-! ## The halted block (R149, R311) -/

/-- A move other than the consumer's lies among the first moves when it comes next or lies among those
after it. -/
theorem mem_take_succ {m : Move} {k : Nat} (hm : m ≠ .consumer) :
    m ∈ e.sched.take (k + 1) ↔ e.nextMove = m ∨ m ∈ e.afterMove.sched.take k := by
  cases hs : e.sched with
  | nil => simp [nextMove_of_sched_nil hs, Env.afterMove, hs, hm.symm]
  | cons m' ms => simp [nextMove_of_sched hs, Env.afterMove, hs, eq_comm (a := m)]

/-- Without a reset, a step of the halted block uses up its move and sets NF if that move is an event. -/
theorem step_halted (hph : s.ph = P_HALT) (hreset : s.env.nextMove ≠ .reset) :
    step s = .next ((s.setEnv s.env.afterMove).setNf (s.nf || decide (s.env.nextMove = .irq))) := by
  cases hm : s.env.nextMove with
  | consumer =>
    rw [step_consumer hm, hph, decide_eq_false (by decide), Bool.or_false]
    rfl
  | irq =>
    rw [step_irq hm, exec_notify, decide_eq_true rfl, Bool.or_true]
  | reset => exact absurd hm hreset
  | idle =>
    rw [step_idle hm, decide_eq_false (by decide), Bool.or_false]
    rfl

/-- Settles O21, by induction on the number of moves: an event is in the first move or in the rest. -/
theorem haltedUntilReset : Obligations.HaltedUntilReset := by
  intro k
  induction k with
  | zero =>
    intro s _ _
    rw [List.take_zero, decide_eq_false List.not_mem_nil, Bool.or_false]
    rfl
  | succ k ih =>
    intro s hph hreset
    have hstep := step_halted hph (nextMove_ne_of_not_mem_take (by decide) hreset)
    have hrest := ih ((s.setEnv s.env.afterMove).setNf (s.nf || decide (s.env.nextMove = .irq))) hph
      (not_mem_take_afterMove hreset)
    have hevent : decide (Move.irq ∈ s.env.sched.take (k + 1)) =
        (decide (s.env.nextMove = .irq) || decide (Move.irq ∈ s.env.afterMove.sched.take k)) := by
      rw [← Bool.decide_or, decide_eq_decide]
      exact mem_take_succ (by decide)
    rw [run_succ hstep, hrest, hevent, ← List.drop_tail, ← Bool.or_assoc]
    rfl

/-! ## Reset (R67, R310) -/

/-- Settles O1, register by register of what reset leaves. -/
theorem resetPutsEveryRegisterAtItsResetValue :
    Obligations.ResetPutsEveryRegisterAtItsResetValue := by
  intro s hm
  exact ⟨_, step_reset hm, takeReset_nf _, takeReset_fill _, takeReset_ph _, takeReset_stat _,
    takeReset_cause _, takeReset_cfg _, fun i => ⟨rfl, rfl, rfl, rfl, rfl⟩, decode_encode .cfgchk⟩

/-! ## The responses READ refuses (R167) -/

/-- Clause (a) of the contract broken. -/
theorem readContract_of_count_above {l : Layout} {maxLen : Word} {r : RdRsp}
    (ha : maxLen.toNat < r.count.toNat) :
    readContract l maxLen r = some .readCountAboveMaxLen := if_pos ha

/-- Clause (b) broken, clause (a) kept. -/
theorem readContract_of_partial_word {l : Layout} {maxLen : Word} {r : RdRsp}
    (ha : r.count.toNat ≤ maxLen.toNat) (hb : r.count.toNat % l.wordBytes ≠ 0) :
    readContract l maxLen r = some .readCountNotWholeWords :=
  (if_neg (Nat.not_lt.2 ha)).trans (if_pos hb)

/-- Clause (c) broken, clauses (a) and (b) kept. -/
theorem readContract_of_payload_length {l : Layout} {maxLen : Word} {r : RdRsp}
    (ha : r.count.toNat ≤ maxLen.toNat) (hb : r.count.toNat % l.wordBytes = 0)
    (hc : r.bytes.length ≠ r.count.toNat) :
    readContract l maxLen r = some .readPayloadLength :=
  (if_neg (Nat.not_lt.2 ha)).trans ((if_neg (not_not.2 hb)).trans (if_pos hc))

/-- A response that keeps the contract is answered, and the frame does not overflow (R173). -/
theorem exec_read_accepted (h : readContract s.layout (readMaxLen s) s.env.nextRead = none) :
    ∃ t, exec .read s = .next t ∧ (s.fill ≤ s.len → t.fill ≤ s.len) := by
  refine ⟨_, execRead_eq s h, fun hf => ?_⟩
  obtain ⟨frame, fill, stat, out, ht, hfill, -⟩ := execRead_effect (execRead_eq s h) hf
  rw [ht]
  exact hfill

/-- Settles O24, one lemma per clause of the contract. -/
theorem readRefusesABrokenContract : Obligations.ReadRefusesABrokenContract := by
  rintro s r rfl
  exact ⟨fun ha => exec_read_refused (readContract_of_count_above ha),
    fun ha hb => exec_read_refused (readContract_of_partial_word ha hb),
    fun ha hb hc => exec_read_refused (readContract_of_payload_length ha hb hc),
    fun ha hb hc => exec_read_accepted ((readContract_none_iff _ _ _).2 ⟨ha, hb, hc⟩)⟩

/-! ## Operation words (R100 to R104, log 16) -/

/-- A word selects at most the operation it encodes. -/
theorem encode_of_decode {o : OpWord} {i : Instr} (h : decode o = .ok i) : encode i = o := by
  cases o with
  | ph code =>
    obtain rfl : decodePhase code = i := Except.ok.inj h
    exact encode_decodePhase code
  | irq evt =>
    rcases BitVec.eq_zero_or_eq_one evt with rfl | rfl
    · cases h
    · obtain rfl : Instr.notify = i := Except.ok.inj h
      rfl

/-- Settles O4: decoding and encoding are inverse, and a byte's bits above its field are tested. -/
theorem encodingIsUnambiguous : Obligations.EncodingIsUnambiguous := by
  refine ⟨fun o i => ⟨encode_of_decode, ?_⟩, fun b hb => if_neg (Nat.not_lt.2 hb),
    fun b hb => if_neg (Nat.not_lt.2 hb)⟩
  rintro rfl
  exact decode_encode i

end Sys2Proof.Machine
end
